-- ==== Sys2Proof/Word.lean ====
section
/-! DEFINITION. The words of the PCTR block: bytes, 32-bit port values, 12-bit cell addresses (20_memory.md R50, 00_scope.md R11). -/

namespace Sys2Proof

/-- A byte of 8 bits (R11). -/
abbrev Byte := BitVec 8

/-- The value a host transaction carries; also a command word (R16, R70). -/
abbrev PortWord := BitVec 32

/-- A cell address of the host port, 12 bits (`ADDR_W`, R8, R50). -/
abbrev CellAddr := BitVec 12

end Sys2Proof
end

