-- ==== Sys2Proof/Config.lean ====
section
/-! DEFINITION. What an implementation fixes: the constants and the parameters of 00_scope.md R8, and the record
layout structure of 30_encoding.md R76. The values of the default instance stand in Machine/Layouts.lean. -/

namespace Sys2Proof

/-- `MF`, the length of the packet multiframe (R8). -/
def mf : Nat := 52

/-- `MF51`, the length of the other multiframe (R8). -/
def mf51 : Nat := 51

/-- `BLK`, units per block (R8). -/
def blk : Nat := 4

/-- Byte order of a layout's multi-byte fields (R14, R76). -/
inductive Endian where
  | le
  | be
deriving DecidableEq, Repr

/-- A byte range of a record: offset from byte 0, and width in bytes (R76). -/
structure Slot where
  off : Nat
  width : Nat
deriving DecidableEq, Repr

/-- What a layout holds for kind 1, INFO_IND (R74, R76). -/
structure InfoForm where
  disc : Nat
  cell : Slot
  tmr : Slot
deriving DecidableEq, Repr

/-- What a layout holds for kind 2, RA_IND. -/
structure RaForm where
  disc : Nat
  ra : Slot
  ta : Slot
  fn : Slot
deriving DecidableEq, Repr

/-- What a layout holds for kind 3, RTS_IND. -/
structure RtsForm where
  disc : Nat
  tn : Slot
  fn : Slot
  sapi : Slot
  bn : Slot
deriving DecidableEq, Repr

/-- What a layout holds for kinds 4 and 5, DATA_IND and DATA_REQ; `pay` is `(PAY_OFF, PAYCAP)`. -/
structure DataForm where
  disc : Nat
  sapi : Slot
  len : Slot
  fn : Slot
  tn : Slot
  bn : Slot
  pay : Slot
deriving DecidableEq, Repr

/-- What a layout holds for kind 6, TIME_IND. -/
structure TimeForm where
  disc : Nat
  fn : Slot
deriving DecidableEq, Repr

/-- A record layout (R76); an absent kind is `none`. -/
structure Layout where
  /-- `CAP`, the record's capacity in bytes. -/
  cap : Nat
  endian : Endian
  /-- `DISC`, the place of the discriminator, the same for every kind. -/
  disc : Slot
  info : Option InfoForm
  ra : Option RaForm
  rts : Option RtsForm
  dataInd : Option DataForm
  dataReq : Option DataForm
  time : Option TimeForm
deriving DecidableEq, Repr

/-- The implementation parameters of R8 that a rule of the block reads. They are fixed for the life of an instance
(R45, R215); State carries them unchanged (DESIGN CHOICE, log 1). -/
structure Params where
  /-- `NBLK`, the block count of the 52-multiframe. -/
  nblk : Nat
  pdMm : BitVec 8
  pdRr : BitVec 8
  mtLur : BitVec 8
  mtIdi : BitVec 8
  mtCmsr : BitVec 8
  mtPgr : BitVec 8
  mtAsc : BitVec 8
  /-- `LAYOUTS` at the ids 1 to 15; the first entry of an id counts (log 1). Id 0 is always `LAYOUT_REF` (R80). -/
  layouts : List (BitVec 4 × Layout)
deriving DecidableEq, Repr

end Sys2Proof
end

