-- ==== Sys2Proof/Syntax.lean ====
section
/-! DEFINITION. The sixteen commands of spec/opcode_table.json, the primitive kinds, the raw fields of a command word,
and the events of the host port. -/

namespace Sys2Proof

/-- The commands (00_scope.md R2, 30_encoding.md R72). None has an operand field: every operand is a cell (R70). -/
inductive Instr where
  | nop
  | clr
  | encInfo
  | encRa
  | encRts
  | encDind
  | encDreq
  | encTime
  | dec
  | pack
  | unpack
  | blknum
  | mfpos52
  | mfpos51
  | route
  | cause
deriving DecidableEq, Repr

/-- The six primitive kinds (R74). -/
inductive Kind where
  | infoInd
  | raInd
  | rtsInd
  | dataInd
  | dataReq
  | timeInd
deriving DecidableEq, Repr

/-- ENC.k, the encode command of a kind (R74: the kind code is the `ARG` of ENC.*). -/
def encCommand : Kind → Instr
  | .infoInd => .encInfo
  | .raInd => .encRa
  | .rtsInd => .encRts
  | .dataInd => .encDind
  | .dataReq => .encDreq
  | .timeInd => .encTime

/-- The four fields of a command word (R70). -/
structure CmdFields where
  zero : BitVec 16
  unit : BitVec 4
  op : BitVec 4
  arg : BitVec 8
deriving DecidableEq, Repr

/-- One thing that reaches the block from outside: a host transaction `HW(a, v)` or `HR(a)` (00_scope.md R16), or a
pulse of the reset input (70_reset_and_hazards.md R210). -/
inductive PortEvent where
  | write (a : CellAddr) (v : PortWord)
  | read (a : CellAddr)
  | reset
deriving DecidableEq, Repr

/-- The two responses of a transaction (R16). -/
inductive Response where
  | okay
  | slverr
deriving DecidableEq, Repr

/-- What a transaction gives back to the host: a write its response, a read its response and value (R16). -/
inductive Reply where
  | write (r : Response)
  | read (r : Response) (v : PortWord)
deriving DecidableEq, Repr

end Sys2Proof
end

