-- ==== Sys2Proof/Machine/Cells.lean ====
section
/-! DEFINITION. The cells of the host port: names, addresses, widths and access (10_state.md R21 to R42, 20_memory.md R51). -/

namespace Sys2Proof.Machine

/-- The register cells that hold a value: those of R21 and R23 to R40. CMD (R22) holds none. -/
inductive Reg where
  | cfg
  | status
  | rlen
  | kind
  | sapi
  | tn
  | bn
  | fn
  | ta
  | ra
  | len
  | fbits
  | mfpos
  | pd
  | mt
  | chv
  | hid
  | fclass
  | cause
deriving DecidableEq, Repr

/-- The five buffers (R41, R42); `record` is REC. -/
inductive Buffer where
  | record
  | pay
  | cellcfg
  | tmrcfg
  | frm
deriving DecidableEq, Repr

/-- A mapped cell: a register, the write-only CMD, or one cell of a buffer. -/
inductive CellId where
  | reg (r : Reg)
  | cmd
  | buf (b : Buffer) (i : Nat)
deriving DecidableEq, Repr

/-- The access attribute of a cell (R51); CMD, the one WO cell, is no register here. -/
inductive Access where
  | rw
  | ro
deriving DecidableEq, Repr

/-- The registers in address order. -/
def Reg.all : List Reg :=
  [.cfg, .status, .rlen, .kind, .sapi, .tn, .bn, .fn, .ta, .ra, .len, .fbits, .mfpos, .pd, .mt, .chv, .hid, .fclass,
    .cause]

/-- The buffers in address order. -/
def Buffer.all : List Buffer := [.record, .pay, .cellcfg, .tmrcfg, .frm]

/-- The address of CMD (R22). -/
def cmdAddr : CellAddr := 0x001#12

/-- Register addresses (R51). -/
def Reg.addr : Reg → Nat
  | .cfg => 0x000
  | .status => 0x002
  | .rlen => 0x003
  | .kind => 0x004
  | .sapi => 0x005
  | .tn => 0x006
  | .bn => 0x007
  | .fn => 0x008
  | .ta => 0x009
  | .ra => 0x00A
  | .len => 0x00B
  | .fbits => 0x00C
  | .mfpos => 0x00D
  | .pd => 0x00E
  | .mt => 0x00F
  | .chv => 0x010
  | .hid => 0x011
  | .fclass => 0x012
  | .cause => 0x013

/-- Register widths in stored bits (R51). CFG stores its field LAYOUT only, 4 bits (R53). -/
def Reg.width : Reg → Nat
  | .cfg => 4
  | .status => 8
  | .rlen => 16
  | .kind => 3
  | .sapi => 8
  | .tn => 8
  | .bn => 8
  | .fn => 32
  | .ta => 8
  | .ra => 16
  | .len => 16
  | .fbits => 16
  | .mfpos => 6
  | .pd => 8
  | .mt => 8
  | .chv => 1
  | .hid => 3
  | .fclass => 4
  | .cause => 8

/-- Register access (R51): STATUS, KIND, MFPOS, HID and CAUSE are read-only. -/
def Reg.access : Reg → Access
  | .status => .ro
  | .kind => .ro
  | .mfpos => .ro
  | .hid => .ro
  | .cause => .ro
  | .cfg => .rw
  | .rlen => .rw
  | .sapi => .rw
  | .tn => .rw
  | .bn => .rw
  | .fn => .rw
  | .ta => .rw
  | .ra => .rw
  | .len => .rw
  | .fbits => .rw
  | .pd => .rw
  | .mt => .rw
  | .chv => .rw
  | .fclass => .rw

/-- First address of a buffer (R51). -/
def Buffer.base : Buffer → Nat
  | .record => 0x100
  | .pay => 0x200
  | .cellcfg => 0x300
  | .tmrcfg => 0x340
  | .frm => 0x800

/-- Number of cells of a buffer: `RECMAX`, `PAYMAX`, `CFGMAX`, `CFGMAX`, `FRMMAX` (R8, R51). -/
def Buffer.size : Buffer → Nat
  | .record => 256
  | .pay => 255
  | .cellcfg => 64
  | .tmrcfg => 64
  | .frm => 2040

/-- Width in bits of one cell of a buffer (R51). -/
def Buffer.width : Buffer → Nat
  | .record => 8
  | .pay => 8
  | .cellcfg => 8
  | .tmrcfg => 8
  | .frm => 1

/-- The buffer whose range holds the address `n`, if any. -/
def bufferAt (n : Nat) : Option Buffer :=
  Buffer.all.find? fun b => decide (b.base ≤ n ∧ n < b.base + b.size)

/-- The address map (R51): the cell at an address, `none` where it is unmapped. -/
def cellAt (a : CellAddr) : Option CellId :=
  if a = cmdAddr then some .cmd
  else
    match Reg.all.find? fun r => decide (r.addr = a.toNat) with
    | some r => some (.reg r)
    | none => (bufferAt a.toNat).map fun b => .buf b (a.toNat - b.base)

/-- The address of a cell (R51, and `addr(<cell>)` of R88). -/
def CellId.addr : CellId → CellAddr
  | .reg r => BitVec.ofNat 12 r.addr
  | .cmd => cmdAddr
  | .buf b i => BitVec.ofNat 12 (b.base + i)

end Sys2Proof.Machine
end

