-- ==== Sys2Proof/Machine/Layouts.lean ====
section
/-! DEFINITION. Record layouts: the six kinds of a layout in one shape, the well-formedness W1 to W7 (30_encoding.md R77),
the two layouts the spec gives (R78, R84), the default instance's parameters (00_scope.md R8), and layout lookup (R80). -/

namespace Sys2Proof.Machine

/-- The kinds in the order of their codes (R74). -/
def kindsInOrder : List Kind := [.infoInd, .raInd, .rtsInd, .dataInd, .dataReq, .timeInd]

/-- The kind code, as KIND and the `ARG` of ENC.* hold it (R74). -/
def kindCode : Kind → Nat
  | .infoInd => 1
  | .raInd => 2
  | .rtsInd => 3
  | .dataInd => 4
  | .dataReq => 5
  | .timeInd => 6

/-- The payload of a data kind: the place of its LEN field and its region `(PAY_OFF, PAYCAP)` (R76). -/
structure Payload where
  len : Slot
  region : Slot
deriving DecidableEq, Repr

/-- A kind of a layout in the one shape the codec works on: discriminator, scalar fields in the order of R74 (the order
checks are made in), the payload of a data kind, the byte blocks of the info kind. -/
structure KindForm where
  disc : Nat
  scalars : List (Reg × Slot)
  payload : Option Payload
  blocks : List (Buffer × Slot)
deriving DecidableEq, Repr

/-- Kind 1 has no scalar field; its blocks are CELLCFG and TMRCFG (R74). -/
def infoKindForm (f : InfoForm) : KindForm :=
  { disc := f.disc, scalars := [], payload := none, blocks := [(.cellcfg, f.cell), (.tmrcfg, f.tmr)] }

/-- Kind 2: RA, TA, FN (R74). -/
def raKindForm (f : RaForm) : KindForm :=
  { disc := f.disc, scalars := [(.ra, f.ra), (.ta, f.ta), (.fn, f.fn)], payload := none, blocks := [] }

/-- Kind 3: TN, FN, SAPI, BN (R74). -/
def rtsKindForm (f : RtsForm) : KindForm :=
  { disc := f.disc, scalars := [(.tn, f.tn), (.fn, f.fn), (.sapi, f.sapi), (.bn, f.bn)], payload := none, blocks := [] }

/-- Kinds 4 and 5: SAPI, LEN, FN, TN, BN, and the payload (R74). -/
def dataKindForm (f : DataForm) : KindForm :=
  { disc := f.disc
    scalars := [(.sapi, f.sapi), (.len, f.len), (.fn, f.fn), (.tn, f.tn), (.bn, f.bn)]
    payload := some { len := f.len, region := f.pay }
    blocks := [] }

/-- Kind 6: FN (R74). -/
def timeKindForm (f : TimeForm) : KindForm :=
  { disc := f.disc, scalars := [(.fn, f.fn)], payload := none, blocks := [] }

/-- `L.kind(k)`, `none` where the kind is absent (R76). -/
def layoutKind (L : Layout) : Kind → Option KindForm
  | .infoInd => L.info.map infoKindForm
  | .raInd => L.ra.map raKindForm
  | .rtsInd => L.rts.map rtsKindForm
  | .dataInd => L.dataInd.map dataKindForm
  | .dataReq => L.dataReq.map dataKindForm
  | .timeInd => L.time.map timeKindForm

/-- The present kinds of a layout, in code order. -/
def presentKinds (L : Layout) : List (Kind × KindForm) :=
  kindsInOrder.filterMap fun k => (layoutKind L k).map fun K => (k, K)

/-- The byte ranges a kind's record uses besides DISC: its scalar fields, its payload region, its byte blocks. -/
def kindSlots (K : KindForm) : List Slot :=
  K.scalars.map (·.2) ++ (K.payload.map (·.region)).toList ++ K.blocks.map (·.2)

/-- A field width is 1, 2 or 4 bytes (W2, W3). -/
def fieldWidthOk (w : Nat) : Bool := w == 1 || w == 2 || w == 4

/-- A byte range lies inside the record. -/
def slotFits (L : Layout) (f : Slot) : Bool := decide (f.off + f.width ≤ L.cap)

/-- Two byte ranges share no byte; an empty range shares none (DEDUCED, log 7). -/
def slotsDisjoint (a b : Slot) : Bool :=
  decide (a.width = 0 ∨ b.width = 0 ∨ a.off + a.width ≤ b.off ∨ b.off + b.width ≤ a.off)

/-- W1. -/
def layoutW1 (L : Layout) : Bool := decide (1 ≤ L.cap ∧ L.cap ≤ 256)

/-- W2. -/
def layoutW2 (L : Layout) : Bool := fieldWidthOk L.disc.width && slotFits L L.disc

/-- W3. -/
def layoutW3 (L : Layout) : Bool :=
  (presentKinds L).all fun p =>
    p.2.scalars.all fun rf => fieldWidthOk rf.2.width && slotFits L rf.2 && decide (8 * rf.2.width ≤ rf.1.width)

/-- W4. -/
def layoutW4 (L : Layout) : Bool :=
  (presentKinds L).all fun p =>
    p.2.payload.toList.all fun q =>
      decide (q.region.width ≤ 255) && slotFits L q.region && decide (q.region.width < 2 ^ (8 * q.len.width))

/-- W5. -/
def layoutW5 (L : Layout) : Bool :=
  (presentKinds L).all fun p =>
    p.2.blocks.all fun bf => decide (bf.2.width ≤ bf.1.size) && slotFits L bf.2

/-- W6. -/
def layoutW6 (L : Layout) : Bool :=
  (presentKinds L).all fun p => decide ((L.disc :: kindSlots p.2).Pairwise fun a b => slotsDisjoint a b = true)

/-- W7. -/
def layoutW7 (L : Layout) : Bool :=
  (presentKinds L).all (fun p => decide (p.2.disc < 2 ^ (8 * L.disc.width))) &&
    decide (((presentKinds L).map fun p => p.2.disc).Pairwise (· ≠ ·))

/-- A layout is well-formed when all of W1 to W7 hold (R77). -/
def layoutOk (L : Layout) : Bool :=
  layoutW1 L && layoutW2 L && layoutW3 L && layoutW4 L && layoutW5 L && layoutW6 L && layoutW7 L

/-- `LAYOUT_REF`, the layout at id 0 (R78). It is not claimed to match any real packet-control process. -/
def layoutRef : Layout :=
  { cap := 64
    endian := .le
    disc := ⟨0, 1⟩
    info := some { disc := 0x11, cell := ⟨1, 8⟩, tmr := ⟨9, 16⟩ }
    ra := some { disc := 0x12, ta := ⟨1, 1⟩, ra := ⟨2, 2⟩, fn := ⟨4, 4⟩ }
    rts := some { disc := 0x13, sapi := ⟨1, 1⟩, tn := ⟨2, 1⟩, bn := ⟨3, 1⟩, fn := ⟨4, 4⟩ }
    dataInd := some
      { disc := 0x14, sapi := ⟨1, 1⟩, tn := ⟨2, 1⟩, bn := ⟨3, 1⟩, fn := ⟨4, 4⟩, len := ⟨8, 1⟩, pay := ⟨9, 55⟩ }
    dataReq := some
      { disc := 0x15, sapi := ⟨1, 1⟩, tn := ⟨2, 1⟩, bn := ⟨3, 1⟩, fn := ⟨4, 4⟩, len := ⟨8, 1⟩, pay := ⟨9, 55⟩ }
    time := some { disc := 0x16, fn := ⟨4, 4⟩ } }

/-- `LAYOUT_T1`, the second, illustrative layout, bound to no id by default (R84). -/
def layoutT1 : Layout :=
  { cap := 32
    endian := .be
    disc := ⟨0, 2⟩
    info := none
    ra := some { disc := 0x0102, ra := ⟨2, 2⟩, ta := ⟨4, 1⟩, fn := ⟨8, 4⟩ }
    rts := some { disc := 0x0103, tn := ⟨2, 1⟩, sapi := ⟨3, 1⟩, fn := ⟨4, 4⟩, bn := ⟨8, 1⟩ }
    dataInd := some
      { disc := 0x0104, sapi := ⟨2, 1⟩, len := ⟨3, 1⟩, fn := ⟨4, 2⟩, tn := ⟨6, 1⟩, bn := ⟨7, 1⟩, pay := ⟨8, 24⟩ }
    dataReq := some
      { disc := 0x0105, sapi := ⟨2, 1⟩, len := ⟨3, 1⟩, fn := ⟨4, 2⟩, tn := ⟨6, 1⟩, bn := ⟨7, 1⟩, pay := ⟨8, 24⟩ }
    time := some { disc := 0x0106, fn := ⟨4, 4⟩ } }

/-- The default instance: every parameter at the default of R8's table, ids 1 to 15 undefined (R80). The router codes are
the spec's general-knowledge defaults of OPEN parameters (PRESUMED, log 8). -/
def defaultParams : Params :=
  { nblk := 11
    pdMm := 0x05#8
    pdRr := 0x06#8
    mtLur := 0x08#8
    mtIdi := 0x01#8
    mtCmsr := 0x24#8
    mtPgr := 0x27#8
    mtAsc := 0x29#8
    layouts := [] }

/-- `LAYOUTS(id)`, `none` where it is undefined: id 0 is `LAYOUT_REF`, and an entry that is not well-formed counts as
undefined (R77, R80). -/
def layoutOf (p : Params) (id : BitVec 4) : Option Layout :=
  if id = 0#4 then some layoutRef
  else
    match p.layouts.lookup id with
    | some L => if layoutOk L then some L else none
    | none => none

end Sys2Proof.Machine
end

