-- ==== Sys2Proof/WellFormed.lean ====
section
/-! DEFINITION. Well-formedness of what is written down outside the machine: the four fields of a command word
(30_encoding.md R70, R73) and an instance's parameters (00_scope.md R9, 92_eei_decisions.md open parameters). Layouts have
theirs, W1 to W7, in Machine/Layouts.lean, where the codec also reads it. An `Instr` carries no operand, so every `Instr` is
well-formed. -/

namespace Sys2Proof

/-- R73, first reason: `ZERO` must be 0. -/
def zeroFieldOk (c : CmdFields) : Bool := c.zero == 0#16

/-- R73, second reason: the unit exists (R70: 0 system, 1 codec, 2 timing, 3 router). -/
def unitFieldOk (c : CmdFields) : Bool := decide (c.unit.toNat < 4)

/-- R73, third reason: the unit has the operation. Units 0, 2 and 3 have operations 0 and 1, unit 1 has 0 to 3 (R72). -/
def opFieldOk (c : CmdFields) : Bool :=
  if c.unit = 1#4 then decide (c.op.toNat < 4) else decide (c.op.toNat < 2)

/-- R73, fourth reason: `ARG` is one the row shows: a kind code for ENC (unit 1, op 0), a multiframe length for MFPOS
(unit 2, op 1), 0 elsewhere (R72). -/
def argFieldOk (c : CmdFields) : Bool :=
  if c.unit = 1#4 ∧ c.op = 0#4 then decide (1 ≤ c.arg.toNat ∧ c.arg.toNat ≤ 6)
  else if c.unit = 2#4 ∧ c.op = 1#4 then decide (c.arg.toNat = mf ∨ c.arg.toNat = mf51)
  else c.arg == 0#8

/-- The fields are those of a command. -/
def CmdFields.wf (c : CmdFields) : Bool :=
  zeroFieldOk c && unitFieldOk c && opFieldOk c && argFieldOk c

/-- R9: the two discriminators differ and neither is 0xFF. -/
def discriminatorsOk (p : Params) : Bool :=
  p.pdMm != p.pdRr && p.pdMm != 0xFF#8 && p.pdRr != 0xFF#8

/-- R9: the three mobility-management types are pairwise distinct. -/
def mmTypesOk (p : Params) : Bool :=
  p.mtLur != p.mtIdi && p.mtLur != p.mtCmsr && p.mtIdi != p.mtCmsr

/-- R9: the two radio-resource types differ. -/
def rrTypesOk (p : Params) : Bool := p.mtPgr != p.mtAsc

/-- Open parameters: `NBLK` is at least 1. -/
def nblkOk (p : Params) : Bool := decide (1 ≤ p.nblk)

/-- Open parameters: every supplied layout meets W1 to W7. -/
def suppliedLayoutsOk (p : Params) : Bool := p.layouts.all fun e => Machine.layoutOk e.2

/-- The constraints on an instance's parameters. -/
def Params.wf (p : Params) : Bool :=
  discriminatorsOk p && mmTypesOk p && rrTypesOk p && nblkOk p && suppliedLayoutsOk p

end Sys2Proof
end

