-- ==== Sys2Proof/Decode.lean ====
section
/-! DEFINITION. Decoding a command word (30_encoding.md R70 to R73), and after it the encoder. -/

namespace Sys2Proof

/-- Why a word is no command, by the four reasons of R73. Every one of them ends in E_ILLEGAL; the names say which field is
wrong first. -/
inductive DecodeReject where
  /-- `ZERO ≠ 0`. -/
  | zeroNotClear
  /-- `UNIT ≥ 4`. -/
  | noSuchUnit
  /-- an `OP` the unit lacks. -/
  | noSuchOp
  /-- an `ARG` the row does not show. -/
  | badArg
deriving DecidableEq, Repr

/-- The fields of a command word (R70). -/
def fieldsOf (v : PortWord) : CmdFields :=
  { zero := v.extractLsb' 16 16, unit := v.extractLsb' 12 4, op := v.extractLsb' 8 4, arg := v.extractLsb' 0 8 }

/-- The first reason of R73 that applies to a word that is no command. -/
def rejectReason (v : PortWord) : DecodeReject :=
  if zeroFieldOk (fieldsOf v) = false then .zeroNotClear
  else if unitFieldOk (fieldsOf v) = false then .noSuchUnit
  else if opFieldOk (fieldsOf v) = false then .noSuchOp
  else .badArg

/-- The sixteen command words (R72). -/
def commandTable : List (PortWord × Instr) :=
  [(0x00000000#32, .nop), (0x00000100#32, .clr),
   (0x00001001#32, .encInfo), (0x00001002#32, .encRa), (0x00001003#32, .encRts),
   (0x00001004#32, .encDind), (0x00001005#32, .encDreq), (0x00001006#32, .encTime),
   (0x00001100#32, .dec), (0x00001200#32, .pack), (0x00001300#32, .unpack),
   (0x00002000#32, .blknum), (0x00002134#32, .mfpos52), (0x00002133#32, .mfpos51),
   (0x00003000#32, .route), (0x00003100#32, .cause)]

/-- Decoding is total and by equality on the whole word (R71); a word that is no command is rejected by name (R73). -/
def decode (v : PortWord) : Except DecodeReject Instr :=
  match commandTable.lookup v with
  | some i => .ok i
  | none => .error (rejectReason v)

/-- The fields of a command, from the columns UNIT, OP and ARG of R72's table. -/
def commandFields : Instr → CmdFields
  | .nop => { zero := 0, unit := 0, op := 0, arg := 0x00 }
  | .clr => { zero := 0, unit := 0, op := 1, arg := 0x00 }
  | .encInfo => { zero := 0, unit := 1, op := 0, arg := 0x01 }
  | .encRa => { zero := 0, unit := 1, op := 0, arg := 0x02 }
  | .encRts => { zero := 0, unit := 1, op := 0, arg := 0x03 }
  | .encDind => { zero := 0, unit := 1, op := 0, arg := 0x04 }
  | .encDreq => { zero := 0, unit := 1, op := 0, arg := 0x05 }
  | .encTime => { zero := 0, unit := 1, op := 0, arg := 0x06 }
  | .dec => { zero := 0, unit := 1, op := 1, arg := 0x00 }
  | .pack => { zero := 0, unit := 1, op := 2, arg := 0x00 }
  | .unpack => { zero := 0, unit := 1, op := 3, arg := 0x00 }
  | .blknum => { zero := 0, unit := 2, op := 0, arg := 0x00 }
  | .mfpos52 => { zero := 0, unit := 2, op := 1, arg := 0x34 }
  | .mfpos51 => { zero := 0, unit := 2, op := 1, arg := 0x33 }
  | .route => { zero := 0, unit := 3, op := 0, arg := 0x00 }
  | .cause => { zero := 0, unit := 3, op := 1, arg := 0x00 }

/-- The word with given fields (R70). -/
def wordOf (c : CmdFields) : PortWord := c.zero ++ c.unit ++ c.op ++ c.arg

/-- The word of a command (R70, R72). -/
def encode (i : Instr) : PortWord := wordOf (commandFields i)

/-- The command word a table row's bits stand for: the bits above `nbits` are 0, and a value that is no 32-bit word is
none, since CMD is written with 32 bits (R55; log 11). -/
def tableWord (nbits w : Nat) : Option PortWord :=
  let v := w % 2 ^ nbits
  if v < 2 ^ 32 then some (BitVec.ofNat 32 v) else none

/-- The command the decoder reads from a table row's bits. -/
def decodeTableWord (nbits w : Nat) : Option Instr :=
  match tableWord nbits w with
  | some v => (decode v).toOption
  | none => none

end Sys2Proof
end

