-- ==== Sys2Proof/Machine/State.lean ====
section
/-! DEFINITION. The state of the PCTR block (10_state.md R20 to R44) as plain data, and its reset value (R46). -/

namespace Sys2Proof.Machine

/-- The faults of the machine: none. Nothing in the block traps or sticks, every command and every transaction completes
(60_exceptions.md R172, 70_reset_and_hazards.md R223; log 6). -/
inductive Fault where
deriving DecidableEq, Repr

/-- The refusals of the machine. -/
inductive Refusal where
  /-- Raised by an arm of `exec` whose command has no meaning yet; safe, since no claim about a next state can use it.
  No arm of this model raises it. -/
  | notModelled (mnemonic : String)
deriving DecidableEq, Repr

/-- The five handlers the router selects (44_router.md R151). -/
inductive Handler where
  | locupd
  | detach
  | cmserv
  | pagrsp
  | asscmp
deriving DecidableEq, Repr

/-- The one event form of the output trace EV: `INVOKE(h)` (10_state.md R44). -/
inductive Event where
  | invoke (h : Handler)
deriving DecidableEq, Repr

/-- The buffers' cells as (cell address, byte) pairs, addresses strictly rising, no entry equal to what an unlisted cell
reads as (log 5). -/
abbrev Memory := List Host.Cell

/-- What an unlisted cell reads as: 0, the reset value of every buffer cell (R46). -/
def unlisted : Byte := 0#8

/-- The state. The fields from `layout` to `ev` are the architectural state of R20; the last three are the model's own. -/
structure State where
  /-- The field LAYOUT of CFG; CFG's other bits are hard-wired zero (R21; log 4). -/
  layout : BitVec 4
  status : BitVec 8
  rlen : BitVec 16
  kind : BitVec 3
  sapi : BitVec 8
  tn : BitVec 8
  bn : BitVec 8
  fn : BitVec 32
  ta : BitVec 8
  ra : BitVec 16
  len : BitVec 16
  fbits : BitVec 16
  mfpos : BitVec 6
  pd : BitVec 8
  mt : BitVec 8
  chv : BitVec 1
  hid : BitVec 3
  fclass : BitVec 4
  cause : BitVec 8
  /-- REC, PAY, CELLCFG, TMRCFG and FRM at their cell addresses (R41, R42, R51). -/
  mem : Memory
  /-- The notional command pointer (R43). -/
  cp : Nat
  /-- The output event trace, oldest first (R44). -/
  ev : List Event
  /-- The instance's parameters, which no step changes (R8, R45; DESIGN CHOICE, log 1). -/
  params : Params
  /-- The port events still to come, oldest first (R10, R224; DESIGN CHOICE, log 2). -/
  pending : List PortEvent
  /-- What the host has received, oldest first (R16, R224; DESIGN CHOICE, log 3). -/
  replies : List Reply
deriving DecidableEq, Repr

/-- The reset state (R46, 70_reset_and_hazards.md R210) of the default instance (log 1), with no transaction waiting
(log 2) and none answered (log 3). -/
def State.reset : State :=
  { layout := 0, status := 0x00, rlen := 0, kind := 0, sapi := 0, tn := 0, bn := 0, fn := 0, ta := 0, ra := 0, len := 0
    fbits := 0, mfpos := 0, pd := 0, mt := 0, chv := 0, hid := 0, fclass := 0, cause := 0, mem := [], cp := 0, ev := []
    params := defaultParams, pending := [], replies := [] }

end Sys2Proof.Machine
end

