-- ==== Sys2Proof/Machine/Flags.lean ====
section
/-! DEFINITION. The block's one flag register, STATUS: the status codes and their numbers (60_exceptions.md R170). -/

namespace Sys2Proof.Machine

/-- The eleven status codes (R170). -/
inductive StatusCode where
  | ok
  | noValue
  | eBounds
  | eLength
  | eRange
  | eFrame
  | eLayout
  | eIllegal
  | eArg
  | unsupportedProtocol
  | unsupportedMessage
deriving DecidableEq, Repr

/-- The number of a status code (R170). -/
def statusNumber : StatusCode → BitVec 8
  | .ok => 0x00#8
  | .noValue => 0x01#8
  | .eBounds => 0x02#8
  | .eLength => 0x03#8
  | .eRange => 0x04#8
  | .eFrame => 0x05#8
  | .eLayout => 0x06#8
  | .eIllegal => 0x07#8
  | .eArg => 0x08#8
  | .unsupportedProtocol => 0x10#8
  | .unsupportedMessage => 0x11#8

/-- The codes in the order of R170's table. -/
def statusCodes : List StatusCode :=
  [.ok, .noValue, .eBounds, .eLength, .eRange, .eFrame, .eLayout, .eIllegal, .eArg, .unsupportedProtocol,
    .unsupportedMessage]

/-- The numbers a command can leave in STATUS (R170, R171). -/
def statusNumbers : List (BitVec 8) := statusCodes.map statusNumber

end Sys2Proof.Machine
end

