-- ==== Sys2Proof/Machine/Ops.lean ====
section
/-! DEFINITION. The named operations over cells: buffer memory, register cells, the buffers' block reads and writes
(00_scope.md R13), and how a command begins and ends (R15, 40_system.md R102, 60_exceptions.md R172). -/

namespace Sys2Proof.Machine

/-- The byte an address holds; an address not listed holds `unlisted`. -/
def Memory.read (m : Memory) (a : Nat) : Byte :=
  match m with
  | [] => unlisted
  | (k, v) :: rest => if k = a then v else Memory.read rest a

/-- The entries that hold `vs` from address `a` up, less those an unlisted address reads as anyway. -/
def cellsFrom (a : Nat) : List Byte → Memory
  | [] => []
  | v :: vs => if v = unlisted then cellsFrom (a + 1) vs else (a, v) :: cellsFrom (a + 1) vs

/-- The bytes `vs` stored from address `a` up; the entries below and above stay. -/
def Memory.writeBlock (m : Memory) (a : Nat) (vs : List Byte) : Memory :=
  m.filter (fun c => decide (c.1 < a)) ++ cellsFrom a vs ++ m.filter (fun c => decide (a + vs.length ≤ c.1))

/-- One byte stored. -/
def Memory.write (m : Memory) (a : Nat) (v : Byte) : Memory := m.writeBlock a [v]

/-- The `n` bytes from address `a` up. -/
def Memory.readBlock (m : Memory) (a : Nat) : Nat → List Byte
  | 0 => []
  | n + 1 => m.read a :: Memory.readBlock m (a + 1) n

/-- The canonical form: addresses strictly rising, no entry equal to what an unlisted address reads as (log 5). -/
def Memory.wf (m : Memory) : Bool :=
  decide (m.Pairwise fun c d => c.1 < d.1) && m.all fun c => c.2 != unlisted

/-- `x[NAME]`, the number a register cell holds (R13). -/
def State.get (s : State) : Reg → Nat
  | .cfg => s.layout.toNat
  | .status => s.status.toNat
  | .rlen => s.rlen.toNat
  | .kind => s.kind.toNat
  | .sapi => s.sapi.toNat
  | .tn => s.tn.toNat
  | .bn => s.bn.toNat
  | .fn => s.fn.toNat
  | .ta => s.ta.toNat
  | .ra => s.ra.toNat
  | .len => s.len.toNat
  | .fbits => s.fbits.toNat
  | .mfpos => s.mfpos.toNat
  | .pd => s.pd.toNat
  | .mt => s.mt.toNat
  | .chv => s.chv.toNat
  | .hid => s.hid.toNat
  | .fclass => s.fclass.toNat
  | .cause => s.cause.toNat

/-- `x[NAME] <- v`, keeping `v mod 2^w` for the cell's width `w` (R13, 20_memory.md R53). -/
def State.set (s : State) (r : Reg) (v : Nat) : State :=
  match r with
  | .cfg => { s with layout := BitVec.ofNat 4 v }
  | .status => { s with status := BitVec.ofNat 8 v }
  | .rlen => { s with rlen := BitVec.ofNat 16 v }
  | .kind => { s with kind := BitVec.ofNat 3 v }
  | .sapi => { s with sapi := BitVec.ofNat 8 v }
  | .tn => { s with tn := BitVec.ofNat 8 v }
  | .bn => { s with bn := BitVec.ofNat 8 v }
  | .fn => { s with fn := BitVec.ofNat 32 v }
  | .ta => { s with ta := BitVec.ofNat 8 v }
  | .ra => { s with ra := BitVec.ofNat 16 v }
  | .len => { s with len := BitVec.ofNat 16 v }
  | .fbits => { s with fbits := BitVec.ofNat 16 v }
  | .mfpos => { s with mfpos := BitVec.ofNat 6 v }
  | .pd => { s with pd := BitVec.ofNat 8 v }
  | .mt => { s with mt := BitVec.ofNat 8 v }
  | .chv => { s with chv := BitVec.ofNat 1 v }
  | .hid => { s with hid := BitVec.ofNat 3 v }
  | .fclass => { s with fclass := BitVec.ofNat 4 v }
  | .cause => { s with cause := BitVec.ofNat 8 v }

/-- The byte held for cell `i` of a buffer. -/
def State.bufByte (s : State) (b : Buffer) (i : Nat) : Byte := s.mem.read (b.base + i)

/-- `MemRead(BUF, off, n)` (R13). -/
def State.memRead (s : State) (b : Buffer) (off n : Nat) : List Byte := s.mem.readBlock (b.base + off) n

/-- `MemWrite(BUF, off, n, L)`, with `n` the length of the list (R13). -/
def State.memWrite (s : State) (b : Buffer) (off : Nat) (vs : List Byte) : State :=
  { s with mem := s.mem.writeBlock (b.base + off) vs }

/-- The first act of every command, and of an illegal word: `cp <- cp + 1` (R43, R102 (a), R73). -/
def State.start (s : State) : State := { s with cp := s.cp + 1 }

/-- `raise <CODE>`, the block's whole trap entry: STATUS takes the code, and the command is complete. No state is saved, no
mode changes, control goes nowhere; the one result-register write a rule names is made before it (R15, R172). There is
no return from it, because nothing is entered (R176). -/
def State.raise (s : State) (c : StatusCode) : State := { s with status := statusNumber c }

/-- `done`: the command ends with STATUS = OK (R15). -/
def State.done (s : State) : State := s.raise .ok

/-- `emit INVOKE(h)` (R15, R44). -/
def State.emit (s : State) (h : Handler) : State := { s with ev := s.ev ++ [.invoke h] }

/-- Every register cell of R24 to R40 and every buffer cell becomes 0; CFG, `cp` and `EV` stay (40_system.md R101). -/
def State.clearCells (s : State) : State :=
  { s with
    rlen := 0, kind := 0, sapi := 0, tn := 0, bn := 0, fn := 0, ta := 0, ra := 0, len := 0, fbits := 0, mfpos := 0
    pd := 0, mt := 0, chv := 0, hid := 0, fclass := 0, cause := 0, mem := [] }

/-- A list brought to length `n`: cut, or filled up with zero bytes. -/
def padTo (n : Nat) (l : List Byte) : List Byte := l.take n ++ List.replicate (n - l.length) 0#8

/-- The low `w` bytes of `v`, least significant first. -/
def bytesLE : Nat → Nat → List Byte
  | 0, _ => []
  | w + 1, v => BitVec.ofNat 8 v :: bytesLE w (v / 256)

/-- The number of a list of bytes, least significant first. -/
def valLE : List Byte → Nat
  | [] => 0
  | b :: bs => b.toNat + 256 * valLE bs

/-- `bytes_E(v, w)` (00_scope.md R14). -/
def bytesOf (e : Endian) (w v : Nat) : List Byte :=
  match e with
  | .le => bytesLE w v
  | .be => (bytesLE w v).reverse

/-- `val_E(L)`, the inverse of `bytes_E` (R14). -/
def valOf (e : Endian) (l : List Byte) : Nat :=
  match e with
  | .le => valLE l
  | .be => valLE l.reverse

/-- A buffer with the bytes `vs` laid over it from offset `off` up; its length stays. -/
def place : List Byte → Nat → List Byte → List Byte
  | [], _, _ => []
  | b :: buf, 0, [] => b :: buf
  | _ :: buf, 0, v :: vs => v :: place buf 0 vs
  | b :: buf, off + 1, vs => b :: place buf off vs

/-- The eight bits of a byte, most significant first (20_memory.md R60). -/
def byteBits (b : Byte) : List Bool :=
  [b.getLsbD 7, b.getLsbD 6, b.getLsbD 5, b.getLsbD 4, b.getLsbD 3, b.getLsbD 2, b.getLsbD 1, b.getLsbD 0]

/-- The byte of eight bits, the first the most significant: the sum of `bit j * 2^(7-j)` (R60, R126). -/
def bitsByte (a b c d e f g h : Bool) : Byte :=
  BitVec.ofNat 8
    (a.toNat * 128 + b.toNat * 64 + c.toNat * 32 + d.toNat * 16 + e.toNat * 8 + f.toNat * 4 + g.toNat * 2 + h.toNat)

/-- Frame bits to payload bytes, eight bits a byte (R126). -/
def packBits : List Bool → List Byte
  | a :: b :: c :: d :: e :: f :: g :: h :: rest => bitsByte a b c d e f g h :: packBits rest
  | _ => []

/-- Payload bytes to frame bits (R127). -/
def unpackBits : List Byte → List Bool
  | [] => []
  | b :: bs => byteBits b ++ unpackBits bs

/-- The byte a bit cell of FRM is held as (log 5). -/
def bitCell (b : Bool) : Byte := if b then 1#8 else 0#8

/-- The bit a byte held for a cell of FRM stands for: its lowest bit, the cell being one bit wide. -/
def cellBit (b : Byte) : Bool := b.getLsbD 0

end Sys2Proof.Machine
end

