-- ==== Sys2Proof/Machine/Operands.lean ====
section
/-! DEFINITION. The operands of the codec: the layout in force (30_encoding.md R80), a record's fields (00_scope.md R14), the
frame's bits (42_codec_decode_frame.md R125). -/

namespace Sys2Proof.Machine

/-- `LAYOUTS(x[CFG].LAYOUT)`, the layout in force for a command (R80, 10_state.md R21). -/
def State.layoutInForce (s : State) : Option Layout := layoutOf s.params s.layout

/-- `get(off, w)`: a field of the record in REC, in the layout's byte order (R14). -/
def State.recField (s : State) (L : Layout) (f : Slot) : Nat := valOf L.endian (s.memRead .record f.off f.width)

/-- The first `n` bits of the frame in FRM (R125). -/
def State.frameBits (s : State) (n : Nat) : List Bool := (s.memRead .frm 0 n).map cellBit

/-- FRM[0..] written with the given bits, and 0 in every later cell (R127). -/
def State.writeFrame (s : State) (bits : List Bool) : State :=
  s.memWrite .frm 0 (padTo Buffer.frm.size (bits.map bitCell))

/-- A byte buffer written with the given bytes from its first cell up, and 0 in every later cell (R122, R126). -/
def State.writeWhole (s : State) (b : Buffer) (bytes : List Byte) : State := s.memWrite b 0 (padTo b.size bytes)

/-- Step 2 of Encode (41_codec_encode.md R107): some scalar register does not fit its field, `x[f] ≥ 2^(8w)`. -/
def State.rangeFails (s : State) (K : KindForm) : Bool :=
  K.scalars.any fun rf => decide (2 ^ (8 * rf.2.width) ≤ s.get rf.1)

/-- Step 1 of Encode (R107), data kinds only: `x[LEN] > PAYCAP`. -/
def State.boundsFail (s : State) (K : KindForm) : Bool :=
  K.payload.any fun q => decide (q.region.width < s.get .len)

/-- The placements of step 3 of Encode (R107): discriminator, scalar fields, `PAY[0..LEN-1]`, byte blocks. -/
def State.placements (s : State) (L : Layout) (K : KindForm) : List (Nat × List Byte) :=
  (L.disc.off, bytesOf L.endian L.disc.width K.disc) ::
    (K.scalars.map (fun rf => (rf.2.off, bytesOf L.endian rf.2.width (s.get rf.1))) ++
      K.payload.toList.map (fun q => (q.region.off, s.memRead .pay 0 (s.get .len))) ++
      K.blocks.map (fun bf => (bf.2.off, s.memRead bf.1 0 bf.2.width)))

/-- Step 3 of Encode (R107): `CAP` zero bytes with the placements laid over them. -/
def State.buildRecord (s : State) (L : Layout) (K : KindForm) : List Byte :=
  (s.placements L K).foldl (fun buf p => place buf p.1 p.2) (List.replicate L.cap 0#8)

/-- The present kind whose discriminator is `d` (R81). -/
def recognise (L : Layout) (d : Nat) : Option (Kind × KindForm) :=
  (presentKinds L).find? fun p => decide (p.2.disc = d)

/-- The bounds test of DEC, data kinds only: the record's length field exceeds `PAYCAP` (42_codec_decode_frame.md R121). -/
def State.wireLenTooLong (s : State) (L : Layout) (K : KindForm) : Bool :=
  K.payload.any fun q => decide (q.region.width < s.recField L q.len)

/-- The scalar registers of kind `K` written from the values read out of REC (R122). -/
def State.writeScalars (s : State) (vals : List (Reg × Nat)) : State := vals.foldl (fun t rv => t.set rv.1 rv.2) s

/-- Whole byte buffers written from the blocks read out of REC (R122). -/
def State.writeBlocks (s : State) (blocks : List (Buffer × List Byte)) : State :=
  blocks.foldl (fun t bv => t.writeWhole bv.1 bv.2) s

/-- The scalar values a DEC of kind `K` reads out of REC (R122). -/
def State.recScalars (s : State) (L : Layout) (K : KindForm) : List (Reg × Nat) :=
  K.scalars.map fun rf => (rf.1, s.recField L rf.2)

/-- The byte blocks a DEC of kind `K` reads out of REC: the payload's first `n` bytes for a data kind, with `n` the decoded
length, and the blocks of the info kind (R122). -/
def State.recBlocks (s : State) (L : Layout) (K : KindForm) : List (Buffer × List Byte) :=
  K.payload.toList.map (fun q => (Buffer.pay, s.memRead .record q.region.off (s.recField L q.len))) ++
    K.blocks.map fun bf => (bf.1, s.memRead .record bf.2.off bf.2.width)

/-- The field copy of a successful DEC (R122): all reads of REC precede all writes. -/
def State.copyFields (s : State) (L : Layout) (K : KindForm) : State :=
  (s.writeScalars (s.recScalars L K)).writeBlocks (s.recBlocks L K)

end Sys2Proof.Machine
end

