-- ==== Sys2Proof/Machine/DecodeFrame.lean ====
section
/-! DEFINITION. Unit 1, DEC, PACK and UNPACK (42_codec_decode_frame.md). -/

namespace Sys2Proof.Machine

/-- A failing DEC: `KIND <- 0`, then `raise` (R121). -/
def State.decFail (s : State) (c : StatusCode) : State := (s.set .kind 0).raise c

/-- A successful DEC of kind `k`: KIND and the kind's cells, done (R121, R122). -/
def State.decAccept (s : State) (L : Layout) (k : Kind) (K : KindForm) : State :=
  ((s.set .kind (kindCode k)).copyFields L K).done

/-- DEC with the layout in force, its tests in the order of R121. -/
def State.decodeWith (s : State) (L : Layout) : State :=
  if s.get .rlen ≠ L.cap then s.decFail .eLength
  else
    match recognise L (s.recField L L.disc) with
    | none => s.decFail .noValue
    | some (k, K) => if s.wireLenTooLong L K then s.decFail .eBounds else s.decAccept L k K

/-- DEC after its first act (R121). -/
def State.decodeRecord (s : State) : State :=
  match s.layoutInForce with
  | none => s.decFail .eLayout
  | some L => s.decodeWith L

/-- DEC (R121). -/
def execDec (s : State) : Host.Outcome State Fault Refusal := .next s.start.decodeRecord

/-- PACK after its first act (R126): the frame's bits to PAY, 0 beyond, and their number of bytes to LEN. -/
def State.packFrame (s : State) : State :=
  let b := s.get .fbits
  if b % 8 ≠ 0 ∨ 2040 < b then s.raise .eFrame
  else ((s.writeWhole .pay (packBits (s.frameBits b))).set .len (b / 8)).done

/-- PACK (R126). -/
def execPack (s : State) : Host.Outcome State Fault Refusal := .next s.start.packFrame

/-- UNPACK after its first act (R127): the payload's bytes to FRM, 0 beyond, and their number of bits to FBITS. -/
def State.unpackFrame (s : State) : State :=
  let n := s.get .len
  if 255 < n then s.raise .eFrame
  else ((s.writeFrame (unpackBits (s.memRead .pay 0 n))).set .fbits (8 * n)).done

/-- UNPACK (R127). -/
def execUnpack (s : State) : Host.Outcome State Fault Refusal := .next s.start.unpackFrame

end Sys2Proof.Machine
end

