-- ==== Sys2Proof/Machine/Encode.lean ====
section
/-! DEFINITION. Unit 1, the six encode commands (41_codec_encode.md). -/

namespace Sys2Proof.Machine

/-- Step 4 of Encode (R107): the record to REC, `RLEN <- CAP`, done. `REC[CAP..255]` is not written. -/
def State.commitRecord (s : State) (L : Layout) (K : KindForm) : State :=
  ((s.memWrite .record 0 (s.buildRecord L K)).set .rlen L.cap).done

/-- `Encode(L, k)` with `K = L.kind(k)` (R107): bounds before range (60_exceptions.md R174). -/
def State.encodeForm (s : State) (L : Layout) (K : KindForm) : State :=
  if s.boundsFail K then s.raise .eBounds
  else if s.rangeFails K then s.raise .eRange
  else s.commitRecord L K

/-- ENC.k after its first act: the layout and kind check of R106, then `Encode(L, k)`. -/
def State.encodeKind (s : State) (k : Kind) : State :=
  match s.layoutInForce with
  | none => s.raise .eLayout
  | some L =>
    match layoutKind L k with
    | none => s.raise .eLayout
    | some K => s.encodeForm L K

/-- ENC.INFO (R108). -/
def execEncInfo (s : State) : Host.Outcome State Fault Refusal := .next (s.start.encodeKind .infoInd)

/-- ENC.RA (R109). -/
def execEncRa (s : State) : Host.Outcome State Fault Refusal := .next (s.start.encodeKind .raInd)

/-- ENC.RTS (R110). It does not compute BN (R114). -/
def execEncRts (s : State) : Host.Outcome State Fault Refusal := .next (s.start.encodeKind .rtsInd)

/-- ENC.DIND (R111). -/
def execEncDind (s : State) : Host.Outcome State Fault Refusal := .next (s.start.encodeKind .dataInd)

/-- ENC.DREQ (R112). -/
def execEncDreq (s : State) : Host.Outcome State Fault Refusal := .next (s.start.encodeKind .dataReq)

/-- ENC.TIME (R113). -/
def execEncTime (s : State) : Host.Outcome State Fault Refusal := .next (s.start.encodeKind .timeInd)

end Sys2Proof.Machine
end

