-- ==== Sys2Proof/Machine/Router.lean ====
section
/-! DEFINITION. Unit 3, the message dispatch router and the cause-code lookup (44_router.md). -/

namespace Sys2Proof.Machine

/-- What `Route` returns: a handler or one of two failures (R152). -/
inductive RouteOutcome where
  | handler (h : Handler)
  | unsupportedMessage
  | unsupportedProtocol
deriving DecidableEq, Repr

/-- The failure classes with their names (R156). -/
inductive FailureClass where
  | readTimeout
  | primState
  | msgState
  | unsupMsg
  | sigTimer
  | sessTimeout
  | sessError
  | unsupProto
deriving DecidableEq, Repr

/-- Handler ids (R151). -/
def handlerId : Handler → Nat
  | .locupd => 1
  | .detach => 2
  | .cmserv => 3
  | .pagrsp => 4
  | .asscmp => 5

/-- The pulse `INVOKE(h)` is on the output port h_invoke, where bit `h-1` stands for handler `h` (10_state.md R44; log 9). -/
def invokePulse : Event → BitVec 5
  | .invoke h => 1#5 <<< (handlerId h - 1)

/-- `Route(pd, mt, chv)`, first match wins (R152). -/
def routeMessage (p : Params) (pd mt : BitVec 8) (chv : BitVec 1) : RouteOutcome :=
  if pd = p.pdMm then
    if mt = p.mtLur then .handler .locupd
    else if mt = p.mtIdi then .handler .detach
    else if mt = p.mtCmsr then .handler .cmserv
    else .unsupportedMessage
  else if pd = p.pdRr then
    if mt = p.mtPgr then .handler .pagrsp
    else if mt = p.mtAsc then
      if chv = 1#1 then .handler .asscmp else .unsupportedMessage
    else .unsupportedMessage
  else .unsupportedProtocol

/-- ROUTE (R153). -/
def execRoute (s : State) : Host.Outcome State Fault Refusal :=
  match routeMessage s.params s.pd s.mt s.chv with
  | .unsupportedProtocol => .next ((s.start.set .hid 0).raise .unsupportedProtocol)
  | .unsupportedMessage => .next ((s.start.set .hid 0).raise .unsupportedMessage)
  | .handler h => .next (((s.start.set .hid (handlerId h)).emit h).done)

/-- The failure class of an FCLASS value; 0 and 9 to 15 name none (R156, R157). -/
def failureClass : Nat → Option FailureClass
  | 1 => some .readTimeout
  | 2 => some .primState
  | 3 => some .msgState
  | 4 => some .unsupMsg
  | 5 => some .sigTimer
  | 6 => some .sessTimeout
  | 7 => some .sessError
  | 8 => some .unsupProto
  | _ => none

/-- The cause code of a failure class (R156). -/
def causeCode : FailureClass → Nat
  | .readTimeout => 0x03
  | .primState => 0x62
  | .msgState => 0x62
  | .unsupMsg => 0x61
  | .sigTimer => 0x03
  | .sessTimeout => 0x03
  | .sessError => 0x01
  | .unsupProto => 0x61

/-- CAUSE (R157). -/
def execCause (s : State) : Host.Outcome State Fault Refusal :=
  match failureClass (s.get .fclass) with
  | none => .next (s.start.raise .eArg)
  | some c => .next (s.start.set .cause (causeCode c)).done

end Sys2Proof.Machine
end

