-- ==== Sys2Proof/Machine/System.lean ====
section
/-! DEFINITION. Unit 0: NOP and CLR (40_system.md). -/

namespace Sys2Proof.Machine

/-- NOP (R100): STATUS becomes OK, nothing else. -/
def execNop (s : State) : Host.Outcome State Fault Refusal := .next s.start.done

/-- CLR (R101): every cell of R23 to R42 becomes 0; CFG, `cp` and `EV` are not cleared. -/
def execClr (s : State) : Host.Outcome State Fault Refusal := .next s.start.clearCells.done

end Sys2Proof.Machine
end

