-- ==== Sys2Proof/Machine/Timing.lean ====
section
/-! DEFINITION. Unit 2, the frame-timing calculator (43_timing.md). -/

namespace Sys2Proof.Machine

/-- `BlockNumber(FN)` for a given `NBLK`: `min((FN mod 52) div 4, NBLK - 1)` (R136, R137). -/
def blockNumber (nblk fn : Nat) : Nat := min (fn % mf / blk) (nblk - 1)

/-- BLKNUM (R137): the position to MFPOS, the block number to BN. -/
def execBlknum (s : State) : Host.Outcome State Fault Refusal :=
  .next ((s.start.set .mfpos (s.get .fn % mf)).set .bn (blockNumber s.params.nblk (s.get .fn))).done

/-- MFPOS.52 (R138). -/
def execMfpos52 (s : State) : Host.Outcome State Fault Refusal := .next (s.start.set .mfpos (s.get .fn % mf)).done

/-- MFPOS.51 (R139). -/
def execMfpos51 (s : State) : Host.Outcome State Fault Refusal := .next (s.start.set .mfpos (s.get .fn % mf51)).done

end Sys2Proof.Machine
end

