-- ==== Sys2Proof/Machine/Dispatch.lean ====
section
/-! DEFINITION. The meaning of each command, one arm each. -/

namespace Sys2Proof.Machine

def exec (i : Instr) (s : State) : Host.Outcome State Fault Refusal :=
  match i with
  | .nop => Sys2Proof.Machine.execNop s
  | .clr => Sys2Proof.Machine.execClr s
  | .encInfo => Sys2Proof.Machine.execEncInfo s
  | .encRa => Sys2Proof.Machine.execEncRa s
  | .encRts => Sys2Proof.Machine.execEncRts s
  | .encDind => Sys2Proof.Machine.execEncDind s
  | .encDreq => Sys2Proof.Machine.execEncDreq s
  | .encTime => Sys2Proof.Machine.execEncTime s
  | .dec => Sys2Proof.Machine.execDec s
  | .pack => Sys2Proof.Machine.execPack s
  | .unpack => Sys2Proof.Machine.execUnpack s
  | .blknum => Sys2Proof.Machine.execBlknum s
  | .mfpos52 => Sys2Proof.Machine.execMfpos52 s
  | .mfpos51 => Sys2Proof.Machine.execMfpos51 s
  | .route => Sys2Proof.Machine.execRoute s
  | .cause => Sys2Proof.Machine.execCause s

end Sys2Proof.Machine
end

