-- ==== Sys2Proof/Machine/Port.lean ====
section
/-! DEFINITION. The host port: what a transaction and the reset input do (20_memory.md R52 to R58, 70_reset_and_hazards.md
R210), and how a word written to CMD becomes a command (R55). -/

namespace Sys2Proof.Machine

/-- The host receives a reply (R16; log 3). -/
def State.answer (s : State) (r : Reply) : State := { s with replies := s.replies ++ [r] }

/-- The next port event taken off the list of those to come (log 2). -/
def State.withPending (s : State) (rest : List PortEvent) : State := { s with pending := rest }

/-- The number a mapped cell holds, of the cell's width; CMD holds none and reads 0 (R22, R57, R58). -/
def State.cellValue (s : State) : CellId → Nat
  | .reg r => s.get r
  | .cmd => 0
  | .buf b i => (s.bufByte b i).toNat % 2 ^ b.width

/-- `HR(a)` (R57, R58): the reply; a read changes no state of the block. -/
def State.readReply (s : State) (a : CellAddr) : Reply :=
  match cellAt a with
  | some (.reg r) => .read .okay (BitVec.ofNat 32 (s.get r))
  | some (.buf b i) => .read .okay (BitVec.ofNat 32 (s.cellValue (.buf b i)))
  | some .cmd => .read .slverr 0#32
  | none => .read .slverr 0#32

/-- `HW(a, v)` to a cell of a buffer stores `v mod 2^w` (R54). -/
def State.writeBufCell (s : State) (b : Buffer) (i : Nat) (v : PortWord) : State :=
  s.memWrite b i [BitVec.ofNat 8 (v.toNat % 2 ^ b.width)]

/-- A word written to CMD (R55): the command it decodes to is executed; any other word does `cp <- cp + 1` and raises
E_ILLEGAL (30_encoding.md R73). -/
def command (v : PortWord) (s : State) : Host.Outcome State Fault Refusal :=
  match decode v with
  | .ok i => exec i s
  | .error _ => .next (s.start.raise .eIllegal)

/-- `HW(a, v)` (R53 to R56). -/
def hostWrite (a : CellAddr) (v : PortWord) (s : State) : Host.Outcome State Fault Refusal :=
  match cellAt a with
  | some .cmd => command v (s.answer (.write .okay))
  | some (.reg r) =>
    match r.access with
    | .rw => .next ((s.set r v.toNat).answer (.write .okay))
    | .ro => .next (s.answer (.write .slverr))
  | some (.buf b i) => .next ((s.writeBufCell b i v).answer (.write .okay))
  | none => .next (s.answer (.write .slverr))

/-- The reset input (R210): every architectural piece of state takes its reset value. The instance's parameters stay
(R215); what the host has received and has still to send is the host's, and stays (DESIGN CHOICE, log 3). -/
def State.resetPulse (s : State) : State :=
  { State.reset with params := s.params, pending := s.pending, replies := s.replies }

/-- One port event, whole (R52, R62). -/
def portEvent (e : PortEvent) (s : State) : Host.Outcome State Fault Refusal :=
  match e with
  | .write a v => hostWrite a v s
  | .read a => .next (s.answer (s.readReply a))
  | .reset => .next s.resetPulse

/-- One step: the next port event; with none waiting the block idles and holds its state (60_exceptions.md R184). -/
def portStep (s : State) : Host.Outcome State Fault Refusal :=
  match s.pending with
  | [] => .next s
  | e :: rest => portEvent e (s.withPending rest)

/-- The event put before those to come (log 2). -/
def State.pushEvent (s : State) (e : PortEvent) : State := s.withPending (e :: s.pending)

/-- The write to CMD of a table row's bits put first in the list of events to come; a value that is no 32-bit word can be
written to CMD by no transaction and leaves the state as it is (log 11). -/
def State.pushCommandBits (s : State) (nbits w : Nat) : State :=
  match tableWord nbits w with
  | some v => s.pushEvent (.write cmdAddr v)
  | none => s

end Sys2Proof.Machine
end

