-- ==== Sys2Proof/Machine/Step.lean ====
section
/-! DEFINITION. The step of the machine, and where a command to be run next is placed. -/

namespace Sys2Proof.Machine

/-- One step: one port event (20_memory.md R52; logs 2 and 10). -/
def step (s : State) : Host.Outcome State Fault Refusal := portStep s

/-- The state whose very next step writes the given command word to CMD (log 2). -/
def State.withFetchWord (s : State) (nbits w : Nat) : State := s.pushCommandBits nbits w

end Sys2Proof.Machine
end

