-- ==== Sys2Proof/Safety.lean ====
section
/-! DEFINITION. What a safe run is, and the words the claims use: the block's invariant, what a command may leave in STATUS,
and what an update keeps. -/

namespace Sys2Proof

open Machine

/-- A step is safe when it answers a next state: no fault, no refusal. -/
def stepSafe (s : State) : Prop := ∃ t, step s = .next t

/-- Every listed entry is a buffer cell, and holds a value of the cell's width (10_state.md R41, R42). -/
def memInBuffers (m : Memory) : Bool :=
  m.all fun c =>
    match bufferAt c.1 with
    | some b => decide (c.2.toNat < 2 ^ b.width)
    | none => false

/-- The invariant of the block: the memory is canonical and holds buffer cells only; STATUS is a code of R170's table;
KIND is at most 6, HID at most 5, MFPOS below 52 (60_exceptions.md R171; 10_state.md R25, R34, R38). -/
def blockInvariant (s : State) : Prop :=
  Memory.wf s.mem = true ∧ memInBuffers s.mem = true ∧ s.status ∈ statusNumbers ∧ s.kind.toNat ≤ 6 ∧ s.hid.toNat ≤ 5 ∧
    s.mfpos.toNat < 52

/-- The codes a command can end with, from the column "raised by" of R170's table. -/
def possibleCodes : Instr → List StatusCode
  | .nop => [.ok]
  | .clr => [.ok]
  | .encInfo => [.ok, .eLayout]
  | .encRa => [.ok, .eLayout, .eRange]
  | .encRts => [.ok, .eLayout, .eRange]
  | .encDind => [.ok, .eLayout, .eBounds, .eRange]
  | .encDreq => [.ok, .eLayout, .eBounds, .eRange]
  | .encTime => [.ok, .eLayout, .eRange]
  | .dec => [.ok, .eLayout, .eLength, .noValue, .eBounds]
  | .pack => [.ok, .eFrame]
  | .unpack => [.ok, .eFrame]
  | .blknum => [.ok]
  | .mfpos52 => [.ok]
  | .mfpos51 => [.ok]
  | .route => [.ok, .unsupportedProtocol, .unsupportedMessage]
  | .cause => [.ok, .eArg]

/-- Every register cell but the named ones keeps its number. -/
def regsKeptBut (rs : List Reg) (s t : State) : Prop := ∀ r, r ∉ rs → t.get r = s.get r

/-- Every buffer cell keeps what it held. -/
def cellsKept (s t : State) : Prop := ∀ a, t.mem.read a = s.mem.read a

/-- Every buffer cell outside the `n` cells from address `base` up keeps what it held. -/
def cellsKeptOutside (base n : Nat) (s t : State) : Prop :=
  ∀ a, ¬ (base ≤ a ∧ a < base + n) → t.mem.read a = s.mem.read a

/-- One command counted, no event appended, and nothing of what is the host's changed (R43, R44, R45). -/
def countsOneCommand (s t : State) : Prop :=
  t.cp = s.cp + 1 ∧ t.ev = s.ev ∧ t.params = s.params ∧ t.pending = s.pending ∧ t.replies = s.replies

/-- The layout that CFG selects is undefined: no entry, or one that is not well-formed (30_encoding.md R77, R80). -/
def layoutUndefined (s : State) : Prop :=
  s.layout ≠ 0#4 ∧ ∀ L, s.params.layouts.lookup s.layout = some L → layoutOk L = false

/-- Byte `i` of a record lies in a byte range. -/
def inSlot (f : Slot) (i : Nat) : Prop := f.off ≤ i ∧ i < f.off + f.width

/-- The router codes of an instance meet the constraints of 00_scope.md R9. -/
def routerParamsOk (p : Params) : Prop := discriminatorsOk p = true ∧ mmTypesOk p = true ∧ rrTypesOk p = true

/-- The unmapped addresses of the cell space (20_memory.md R51). -/
def unmapped (a : CellAddr) : Prop :=
  (0x014 ≤ a.toNat ∧ a.toNat ≤ 0x0FF) ∨ a.toNat = 0x2FF ∨ (0x380 ≤ a.toNat ∧ a.toNat ≤ 0x7FF) ∨ 0xFF8 ≤ a.toNat

end Sys2Proof
end

