-- ==== Sys2Proof/Certificates/Slice0/Obligations.lean ====
section
/-! DEFINITION. The statements for the provers. Each docstring names the rules of spec/ it formalises. They hold for every
instance: the parameters are a field of the state (log 1). In the statements about `step`, a host transaction is the first
port event waiting (log 2), and its response the last of the replies (log 3). -/

open Sys2Proof Sys2Proof.Machine

/-! ## Encoding -/

/-- R71: a word is a command exactly when it is one of the sixteen encodings, and then it is that command. -/
def Obligations.DecodeReadsExactlyTheEncodings : Prop := ∀ v i, decode v = .ok i ↔ v = encode i

/-- R72: the table of the sixteen command words, each with its fields; the `ARG` of ENC.* is the kind code. -/
def Obligations.TableWordsDecodeToTheirCommands : Prop :=
  (∀ row ∈ ([(0x00000000#32, .nop, 0, 0, 0x00), (0x00000100#32, .clr, 0, 1, 0x00),
      (0x00001001#32, .encInfo, 1, 0, 0x01), (0x00001002#32, .encRa, 1, 0, 0x02),
      (0x00001003#32, .encRts, 1, 0, 0x03), (0x00001004#32, .encDind, 1, 0, 0x04),
      (0x00001005#32, .encDreq, 1, 0, 0x05), (0x00001006#32, .encTime, 1, 0, 0x06),
      (0x00001100#32, .dec, 1, 1, 0x00), (0x00001200#32, .pack, 1, 2, 0x00), (0x00001300#32, .unpack, 1, 3, 0x00),
      (0x00002000#32, .blknum, 2, 0, 0x00), (0x00002134#32, .mfpos52, 2, 1, 0x34),
      (0x00002133#32, .mfpos51, 2, 1, 0x33), (0x00003000#32, .route, 3, 0, 0x00),
      (0x00003100#32, .cause, 3, 1, 0x00)] : List (PortWord × Instr × Nat × Nat × Nat)),
    decode row.1 = .ok row.2.1 ∧ encode row.2.1 = row.1 ∧
      fieldsOf row.1 = { zero := 0#16, unit := BitVec.ofNat 4 row.2.2.1, op := BitVec.ofNat 4 row.2.2.2.1,
                         arg := BitVec.ofNat 8 row.2.2.2.2 }) ∧
  ∀ k, (fieldsOf (encode (encCommand k))).arg.toNat = kindCode k

/-- R73: the words that are no command are those with a wrong field, and writing one to CMD counts a command, leaves
E_ILLEGAL in STATUS, answers OKAY and changes nothing else. -/
def Obligations.IllegalWordsAreThoseWithAWrongField : Prop :=
  (∀ v, (∀ i, v ≠ encode i) ↔ (fieldsOf v).wf = false) ∧
  ∀ s v rest, s.pending = .write 0x001#12 v :: rest → (∀ i, v ≠ encode i) →
    step s = .next { s with
      pending := rest, replies := s.replies ++ [.write .okay], cp := s.cp + 1, status := 0x07#8 }

/-! ## The step -/

/-- R55: a write to CMD counts a command and is answered OKAY for every word; a command's word runs that command, whatever
its outcome, and any other word raises E_ILLEGAL. The write is the first port event waiting (log 2), its response is
recorded before the command's effect (log 3). -/
def Obligations.StepRunsTheWrittenCommand : Prop :=
  ∀ s v rest, s.pending = .write 0x001#12 v :: rest →
    (∃ t, step s = .next t ∧ t.cp = s.cp + 1 ∧ t.replies = s.replies ++ [.write .okay] ∧ t.pending = rest) ∧
    (∀ i, decode v = .ok i → step s = exec i { s with pending := rest, replies := s.replies ++ [.write .okay] }) ∧
    ((∀ i, decode v ≠ .ok i) → step s = .next { s with
      pending := rest, replies := s.replies ++ [.write .okay], cp := s.cp + 1, status := 0x07#8 })

/-- The word of a command placed by `withFetchWord` is the one the very next step runs (the model's choice of where a
command waits, log 2; R55). -/
def Obligations.PlacedWordIsRunNext : Prop :=
  ∀ (s : State) (i : Instr), step (s.withFetchWord 32 (encode i).toNat) = exec i (s.answer (.write .okay))

/-- R223, and 93_implementation_defined.md ("every command and every transaction completes"): every step answers a next
state. -/
def Obligations.EveryStepCompletes : Prop := ∀ s, stepSafe s

/-- R184: with no port event waiting (the model's form of "between transactions", log 2) the block holds its state. -/
def Obligations.IdleBlockHoldsItsState : Prop := ∀ s, s.pending = [] → step s = .next s

/-- R43: `cp` counts the writes to CMD, whatever the word; nothing else but reset changes it. -/
def Obligations.OnlyCommandWritesAndResetChangeCp : Prop :=
  State.reset.cp = 0 ∧
  ∀ s t, step s = .next t →
    (∀ v rest, s.pending = .write 0x001#12 v :: rest → t.cp = s.cp + 1) ∧
    (∀ a v rest, s.pending = .write a v :: rest → a ≠ 0x001#12 → t.cp = s.cp) ∧
    (∀ a rest, s.pending = .read a :: rest → t.cp = s.cp) ∧
    (∀ rest, s.pending = .reset :: rest → t.cp = 0) ∧
    (s.pending = [] → t.cp = s.cp)

/-- R44: EV is empty at reset; outside reset it only grows, by at most one event a step, and by one exactly in a successful
ROUTE, whose handler the event and HID name; an event is the pulse of one bit of h_invoke; no read shows EV. -/
def Obligations.OnlyASuccessfulRouteAppendsAnEvent : Prop :=
  State.reset.ev = [] ∧
  (∀ s t e rest, s.pending = e :: rest → e ≠ .reset → step s = .next t →
    (t.ev = s.ev ∧ ¬ (e = .write 0x001#12 (encode .route) ∧ t.status = 0x00#8)) ∨
    ∃ h, t.ev = s.ev ++ [.invoke h] ∧ e = .write 0x001#12 (encode .route) ∧ t.status = 0x00#8 ∧
      t.hid.toNat = handlerId h) ∧
  (∀ h b, (invokePulse (.invoke h)).getLsbD b = decide (b + 1 = handlerId h)) ∧
  ∀ (s : State) (a : CellAddr) (e : List Event), State.readReply { s with ev := e } a = s.readReply a

/-- R45, R215: no step changes the instance's parameters, which the model carries in the state (log 1). -/
def Obligations.NoStepChangesTheParameters : Prop := ∀ s t, step s = .next t → t.params = s.params

/-- R21: no command writes CFG, not even CLR. -/
def Obligations.NoCommandWritesCfg : Prop := ∀ i s t, exec i s = .next t → t.layout = s.layout

/-- 93_implementation_defined.md V4, V5 (R171, R25, R34, R38): the block's invariant is kept by every step. -/
def Obligations.EveryStepKeepsTheBlockInvariant : Prop := ∀ s t, blockInvariant s → step s = .next t → blockInvariant t

/-- The block's invariant holds at reset (R46). -/
def Obligations.ResetMeetsTheBlockInvariant : Prop := blockInvariant State.reset

/-! ## Status and failures -/

/-- R170: each command ends with one of the codes R170's table says it raises. -/
def Obligations.EachCommandEndsWithACodeItRaises : Prop :=
  ∀ i s, ∃ t c, exec i s = .next t ∧ c ∈ possibleCodes i ∧ t.status = statusNumber c

/-- R171: the codes 0x09 to 0x0F and 0x12 to 0xFF are never written, by a command or by any step, and five commands end with
OK only. -/
def Obligations.UnlistedCodesAreNeverWritten : Prop :=
  (∀ i s t, exec i s = .next t →
    ¬ (0x09 ≤ t.status.toNat ∧ t.status.toNat ≤ 0x0F) ∧ ¬ 0x12 ≤ t.status.toNat ∧
    (i ∈ [Instr.nop, .clr, .blknum, .mfpos52, .mfpos51] → t.status = 0x00#8)) ∧
  ∀ s t, step s = .next t → (0x09 ≤ t.status.toNat ∧ t.status.toNat ≤ 0x0F) ∨ 0x12 ≤ t.status.toNat →
    t.status = s.status ∧ ∀ v rest, s.pending ≠ .write 0x001#12 v :: rest

/-- R175: a failing command is as if it had not been issued, but for STATUS, `cp` and the one result register of R172. -/
def Obligations.FailingCommandLeavesTheRestAlone : Prop :=
  ∀ i s t, exec i s = .next t → t.status ≠ 0x00#8 →
    t = { s with
      cp := s.cp + 1, status := t.status
      kind := if i = .dec then 0#3 else s.kind
      hid := if i = .route then 0#3 else s.hid }

/-- R102 (d): no command reads STATUS, `cp` or EV. -/
def Obligations.NoCommandReadsStatusCpOrEv : Prop :=
  ∀ i s t (st : BitVec 8) (c : Nat) (e : List Event), exec i s = .next t →
    exec i { s with status := st, cp := c, ev := e } =
      .next { t with cp := c + 1, ev := e ++ t.ev.drop s.ev.length }

/-- R102 (e), R220: a command run again makes the same writes; a second ROUTE appends its event again. -/
def Obligations.RunningACommandAgainMakesTheSameWrites : Prop :=
  ∀ i s t, exec i s = .next t →
    exec i t = .next { t with cp := t.cp + 1, ev := t.ev ++ t.ev.drop s.ev.length } ∧ (i ≠ .route → t.ev = s.ev)

/-! ## Reset, NOP, CLR -/

/-- R46: the reset state. -/
def Obligations.ResetStateHoldsZeroEverywhere : Prop :=
  (∀ r, State.reset.get r = 0) ∧ (∀ a, State.reset.mem.read a = 0#8) ∧ State.reset.cp = 0 ∧ State.reset.ev = []

/-- R210: the reset input puts the block in the reset state; the parameters (log 1) and what is the host's (log 3) stay. -/
def Obligations.ResetInputPutsTheBlockInTheResetState : Prop :=
  ∀ s rest, s.pending = .reset :: rest →
    step s = .next { State.reset with params := s.params, pending := rest, replies := s.replies }

/-- R211: reset and CLR differ in CFG, `cp` and EV only. -/
def Obligations.ClrAndResetDifferInThreeThings : Prop :=
  ∀ s rest, s.pending = .reset :: rest → ∃ t u, exec .clr s = .next t ∧ step s = .next u ∧
    (∀ r, r ≠ .cfg → t.get r = u.get r) ∧ cellsKept u t ∧
    u.layout = 0#4 ∧ u.cp = 0 ∧ u.ev = [] ∧ t.layout = s.layout ∧ t.cp = s.cp + 1 ∧ t.ev = s.ev

/-- R100: NOP writes STATUS, only the word 0 is NOP, and with another ARG the word is illegal. -/
def Obligations.NopWritesStatusOnly : Prop :=
  encode .nop = 0x00000000#32 ∧ (∀ v, v ≠ 0x00000000#32 → decode v ≠ .ok .nop) ∧
  (∀ a : BitVec 8, a ≠ 0x00#8 → ∀ i, decode (0x000000#24 ++ a) ≠ .ok i) ∧
  ∀ s, exec .nop s = .next { s with cp := s.cp + 1, status := 0x00#8 }

/-- R101: CLR zeroes every cell but CFG and keeps EV. -/
def Obligations.ClrZeroesEveryCellButCfg : Prop :=
  encode .clr = 0x00000100#32 ∧
  ∀ s, ∃ t, exec .clr s = .next t ∧ (∀ r, r ≠ .cfg → t.get r = 0) ∧ t.get .cfg = s.get .cfg ∧
    (∀ a, t.mem.read a = 0#8) ∧ countsOneCommand s t

/-! ## The host port -/

/-- R53: a host write to a read-write register keeps the low bits, and changes no other cell. -/
def Obligations.RegisterWriteKeepsTheLowBits : Prop :=
  ∀ s (r : Reg) v rest, r.access = .rw → s.pending = .write (BitVec.ofNat 12 r.addr) v :: rest →
    ∃ t, step s = .next t ∧ t.get r = v.toNat % 2 ^ r.width ∧ regsKeptBut [r] s t ∧ t.mem = s.mem ∧
      t.cp = s.cp ∧ t.ev = s.ev ∧ t.params = s.params ∧ t.pending = rest ∧ t.replies = s.replies ++ [.write .okay]

/-- R54: a host write to a buffer cell keeps `v mod 256`, or `v mod 2` in FRM, and changes exactly that cell. -/
def Obligations.BufferWriteChangesOneCell : Prop :=
  ∀ s (b : Buffer) i v rest, i < b.size → s.pending = .write (BitVec.ofNat 12 (b.base + i)) v :: rest →
    ∃ t, step s = .next t ∧ (t.mem.read (b.base + i)).toNat = v.toNat % (if b = .frm then 2 else 256) ∧
      (∀ a, a ≠ b.base + i → t.mem.read a = s.mem.read a) ∧ regsKeptBut [] s t ∧
      t.cp = s.cp ∧ t.ev = s.ev ∧ t.params = s.params ∧ t.pending = rest ∧ t.replies = s.replies ++ [.write .okay]

/-- R56: a host write to a read-only or unmapped address answers SLVERR and changes no state. -/
def Obligations.RefusedWriteChangesNothing : Prop :=
  ∀ s (a : CellAddr) v rest, s.pending = .write a v :: rest →
    (a.toNat ∈ [0x002, 0x004, 0x00D, 0x011, 0x013] ∨ unmapped a) →
    step s = .next { s with pending := rest, replies := s.replies ++ [.write .slverr] }

/-- R57: a host read of a register or buffer cell answers OKAY and its value zero-extended, and changes no state. -/
def Obligations.ReadAnswersTheCellAndChangesNothing : Prop :=
  (∀ s (r : Reg) rest, s.pending = .read (BitVec.ofNat 12 r.addr) :: rest →
    step s = .next { s with
      pending := rest, replies := s.replies ++ [.read .okay (BitVec.ofNat 32 (s.get r))] }) ∧
  (∀ s (b : Buffer) i rest, i < b.size → s.pending = .read (BitVec.ofNat 12 (b.base + i)) :: rest →
    step s = .next { s with
      pending := rest
      replies := s.replies ++
        [.read .okay (BitVec.ofNat 32 ((s.mem.read (b.base + i)).toNat % (if b = .frm then 2 else 256)))] })

/-- R58: a host read of CMD or of an unmapped address answers SLVERR and 0, and changes no state. -/
def Obligations.RefusedReadAnswersZero : Prop :=
  ∀ s (a : CellAddr) rest, s.pending = .read a :: rest → (a = 0x001#12 ∨ unmapped a) →
    step s = .next { s with pending := rest, replies := s.replies ++ [.read .slverr 0#32] }

/-- R20, R51: the unmapped addresses are the four ranges of the table, and no cell has two addresses. -/
def Obligations.AddressMapHasNoAliases : Prop :=
  (∀ a, cellAt a = none ↔ unmapped a) ∧ ∀ a b c, cellAt a = some c → cellAt b = some c → a = b

/-! ## Frame timing -/

/-- R137: BLKNUM, for every frame number and every block count. -/
def Obligations.BlknumWritesPositionAndBlock : Prop :=
  encode .blknum = 0x00002000#32 ∧
  ∀ s, ∃ t, exec .blknum s = .next t ∧ t.get .mfpos = s.get .fn % 52 ∧
    t.get .bn = min (s.get .fn % 52 / 4) (s.params.nblk - 1) ∧ t.status = 0x00#8 ∧
    regsKeptBut [.mfpos, .bn, .status] s t ∧ cellsKept s t ∧ countsOneCommand s t

/-- R136: with eleven blocks, BN is the count of the thresholds 4, 8, ..., 48 that are at most `FN mod 52`, capped at 10. -/
def Obligations.BlockNumberCountsThresholds : Prop :=
  ∀ s, s.params.nblk = 11 → ∃ t, exec .blknum s = .next t ∧
    t.get .bn =
      min (([4, 8, 12, 16, 20, 24, 28, 32, 36, 40, 44, 48].filter (· ≤ s.get .fn % 52)).length) 10 ∧
    t.get .bn = min (s.get .fn % 52 / 4) 10 ∧ (40 ≤ s.get .fn % 52 → t.get .bn = 10)

/-- R140: with eleven blocks, BN has period 52, does not decrease within a period, lies in [0,11) and takes every value there;
the period does not extend across the wrap of FN. -/
def Obligations.BlockNumberIsPeriodicMonotoneAndBelowEleven : Prop :=
  (∀ s u t v, s.params.nblk = 11 → u.params.nblk = 11 → exec .blknum s = .next t → exec .blknum u = .next v →
    (u.get .fn = s.get .fn + 52 → v.get .bn = t.get .bn) ∧
    (u.get .fn / 52 = s.get .fn / 52 → s.get .fn ≤ u.get .fn → t.get .bn ≤ v.get .bn) ∧
    t.get .bn ≤ 10 ∧
    (s.fn = 0xFFFFFFFF#32 → u.fn = s.fn + 1 → t.get .mfpos = 47 ∧ v.get .mfpos = 0)) ∧
  ∀ n, n ≤ 10 → ∃ s t, s.params.nblk = 11 ∧ exec .blknum s = .next t ∧ t.get .bn = n

/-- R138: MFPOS.52 writes the position and leaves BN. -/
def Obligations.MfposFiftyTwoWritesThePositionOnly : Prop :=
  encode .mfpos52 = 0x00002134#32 ∧
  ∀ s, ∃ t, exec .mfpos52 s = .next t ∧ t.get .mfpos = s.get .fn % 52 ∧ t.status = 0x00#8 ∧
    regsKeptBut [.mfpos, .status] s t ∧ cellsKept s t ∧ countsOneCommand s t

/-- R139: MFPOS.51 writes the position in the 51-structure and leaves BN. -/
def Obligations.MfposFiftyOneWritesThePositionOnly : Prop :=
  encode .mfpos51 = 0x00002133#32 ∧
  ∀ s, ∃ t, exec .mfpos51 s = .next t ∧ t.get .mfpos = s.get .fn % 51 ∧ t.status = 0x00#8 ∧
    regsKeptBut [.mfpos, .status] s t ∧ cellsKept s t ∧ countsOneCommand s t

/-! ## Router -/

/-- R152, R153, R85: each recognised row of the routing table selects its handler and invokes it once; nothing else changes. -/
def Obligations.RouteInvokesTheHandlerOfTheRow : Prop :=
  ∀ s h, routerParamsOk s.params →
    ((s.pd = s.params.pdMm ∧ s.mt = s.params.mtLur ∧ h = .locupd) ∨
     (s.pd = s.params.pdMm ∧ s.mt = s.params.mtIdi ∧ h = .detach) ∨
     (s.pd = s.params.pdMm ∧ s.mt = s.params.mtCmsr ∧ h = .cmserv) ∨
     (s.pd = s.params.pdRr ∧ s.mt = s.params.mtPgr ∧ h = .pagrsp) ∨
     (s.pd = s.params.pdRr ∧ s.mt = s.params.mtAsc ∧ s.chv = 1#1 ∧ h = .asscmp)) →
    exec .route s = .next { s with
      cp := s.cp + 1, status := 0x00#8, hid := BitVec.ofNat 3 (handlerId h), ev := s.ev ++ [.invoke h] }

/-- R152, R153: every other triple fails with UNSUPPORTED_PROTOCOL or UNSUPPORTED_MESSAGE, clears HID and invokes nothing. -/
def Obligations.RouteFailsOutsideTheTable : Prop :=
  ∀ s, routerParamsOk s.params →
    (s.pd ≠ s.params.pdMm → s.pd ≠ s.params.pdRr →
      exec .route s = .next { s with cp := s.cp + 1, status := 0x10#8, hid := 0#3 }) ∧
    (((s.pd = s.params.pdMm ∧ s.mt ≠ s.params.mtLur ∧ s.mt ≠ s.params.mtIdi ∧ s.mt ≠ s.params.mtCmsr) ∨
      (s.pd = s.params.pdRr ∧ s.mt ≠ s.params.mtPgr ∧ ¬ (s.mt = s.params.mtAsc ∧ s.chv = 1#1))) →
      exec .route s = .next { s with cp := s.cp + 1, status := 0x11#8, hid := 0#3 })

/-- R155: handler 5 is never selected for a channel that is not traffic-capable. -/
def Obligations.AssignmentHandlerNeedsATrafficChannel : Prop :=
  ∀ s t, exec .route s = .next t → (t.get .hid = 5 ∨ t.ev = s.ev ++ [.invoke .asscmp]) → s.chv = 1#1

/-- R156, R157: the cause codes of the eight classes; every other class is refused and CAUSE keeps its value. -/
def Obligations.CauseLooksUpTheFailureTable : Prop :=
  encode .cause = 0x00003100#32 ∧
  ∀ s, (1 ≤ s.get .fclass ∧ s.get .fclass ≤ 8 →
      exec .cause s = .next { s with
        cp := s.cp + 1, status := 0x00#8
        cause := [0x03#8, 0x62#8, 0x62#8, 0x61#8, 0x03#8, 0x03#8, 0x01#8, 0x61#8].getD (s.get .fclass - 1) 0#8 }) ∧
    (s.get .fclass = 0 ∨ 9 ≤ s.get .fclass →
      exec .cause s = .next { s with cp := s.cp + 1, status := 0x08#8 })

/-- R158: class 4 for UNSUPPORTED_MESSAGE and class 8 for UNSUPPORTED_PROTOCOL both give cause 0x61. -/
def Obligations.RouterFailuresLeadToCauseSixtyOne : Prop :=
  ∀ s t, exec .route s = .next t →
    (t.status = 0x11#8 → ∃ u, exec .cause { t with fclass := 4#4 } = .next u ∧ u.cause = 0x61#8 ∧ u.status = 0x00#8) ∧
    (t.status = 0x10#8 → ∃ u, exec .cause { t with fclass := 8#4 } = .next u ∧ u.cause = 0x61#8 ∧ u.status = 0x00#8)

/-! ## Encode -/

/-- R108 under LAYOUT_REF (R79): the record of ENC.INFO, and everything it leaves alone. -/
def Obligations.EncInfoWritesTheReferenceRecord : Prop :=
  ∀ s, s.layout = 0#4 → ∃ t, exec .encInfo s = .next t ∧
    t.memRead .record 0 64 =
      [0x11#8] ++ s.memRead .cellcfg 0 8 ++ s.memRead .tmrcfg 0 16 ++ List.replicate 39 0#8 ∧
    t.rlen = 64#16 ∧ t.status = 0x00#8 ∧ regsKeptBut [.rlen, .status] s t ∧ cellsKeptOutside 0x100 64 s t ∧
    countsOneCommand s t

/-- R109 under LAYOUT_REF (R79): the record of ENC.RA. -/
def Obligations.EncRaWritesTheReferenceRecord : Prop :=
  ∀ s, s.layout = 0#4 → ∃ t, exec .encRa s = .next t ∧
    t.memRead .record 0 64 =
      [0x12#8, s.ta, s.ra.extractLsb' 0 8, s.ra.extractLsb' 8 8, s.fn.extractLsb' 0 8, s.fn.extractLsb' 8 8,
        s.fn.extractLsb' 16 8, s.fn.extractLsb' 24 8] ++ List.replicate 56 0#8 ∧
    t.rlen = 64#16 ∧ t.status = 0x00#8 ∧ regsKeptBut [.rlen, .status] s t ∧ cellsKeptOutside 0x100 64 s t ∧
    countsOneCommand s t

/-- R110 under LAYOUT_REF (R79): the record of ENC.RTS, BN as it stands (R114). -/
def Obligations.EncRtsWritesTheReferenceRecord : Prop :=
  ∀ s, s.layout = 0#4 → ∃ t, exec .encRts s = .next t ∧
    t.memRead .record 0 64 =
      [0x13#8, s.sapi, s.tn, s.bn, s.fn.extractLsb' 0 8, s.fn.extractLsb' 8 8, s.fn.extractLsb' 16 8,
        s.fn.extractLsb' 24 8] ++ List.replicate 56 0#8 ∧
    t.rlen = 64#16 ∧ t.status = 0x00#8 ∧ regsKeptBut [.rlen, .status] s t ∧ cellsKeptOutside 0x100 64 s t ∧
    countsOneCommand s t

/-- R111, R112 under LAYOUT_REF (R79): the records of ENC.DIND and ENC.DREQ, for every LEN from 0 to PAYCAP; they differ in
the discriminator only. -/
def Obligations.EncDataWritesTheReferenceRecord : Prop :=
  ∀ s, s.layout = 0#4 → s.get .len ≤ 55 → ∀ i d, (i = Instr.encDind ∧ d = 0x14#8) ∨ (i = Instr.encDreq ∧ d = 0x15#8) →
    ∃ t, exec i s = .next t ∧
    t.memRead .record 0 64 =
      [d, s.sapi, s.tn, s.bn, s.fn.extractLsb' 0 8, s.fn.extractLsb' 8 8, s.fn.extractLsb' 16 8, s.fn.extractLsb' 24 8,
        s.len.extractLsb' 0 8] ++ s.memRead .pay 0 (s.get .len) ++ List.replicate (55 - s.get .len) 0#8 ∧
    t.rlen = 64#16 ∧ t.status = 0x00#8 ∧ regsKeptBut [.rlen, .status] s t ∧ cellsKeptOutside 0x100 64 s t ∧
    countsOneCommand s t

/-- R113 under LAYOUT_REF (R79): the record of ENC.TIME. -/
def Obligations.EncTimeWritesTheReferenceRecord : Prop :=
  ∀ s, s.layout = 0#4 → ∃ t, exec .encTime s = .next t ∧
    t.memRead .record 0 64 =
      [0x16#8, 0#8, 0#8, 0#8, s.fn.extractLsb' 0 8, s.fn.extractLsb' 8 8, s.fn.extractLsb' 16 8,
        s.fn.extractLsb' 24 8] ++ List.replicate 56 0#8 ∧
    t.rlen = 64#16 ∧ t.status = 0x00#8 ∧ regsKeptBut [.rlen, .status] s t ∧ cellsKeptOutside 0x100 64 s t ∧
    countsOneCommand s t

/-- R107, R115 (a), (b), (c), (f): under any layout, ENC.k whose operands fit writes the discriminator, every field, the
payload and the blocks at their places, 0 in every other byte of the record, and nothing else but RLEN and STATUS. -/
def Obligations.EncodeLaysOutTheRecordOfAnyLayout : Prop :=
  ∀ s k L K, s.layoutInForce = some L → layoutKind L k = some K →
    (∀ q ∈ K.payload, s.get .len ≤ q.region.width) → (∀ rf ∈ K.scalars, s.get rf.1 < 2 ^ (8 * rf.2.width)) →
    ∃ t, exec (encCommand k) s = .next t ∧ t.status = 0x00#8 ∧ t.get .rlen = L.cap ∧
      t.memRead .record L.disc.off L.disc.width = bytesOf L.endian L.disc.width K.disc ∧
      (∀ rf ∈ K.scalars,
        t.memRead .record rf.2.off rf.2.width = bytesOf L.endian rf.2.width (s.get rf.1)) ∧
      (∀ q ∈ K.payload, t.memRead .record q.region.off (s.get .len) = s.memRead .pay 0 (s.get .len) ∧
        ∀ i, s.get .len ≤ i → i < q.region.width → t.bufByte .record (q.region.off + i) = 0#8) ∧
      (∀ bf ∈ K.blocks, t.memRead .record bf.2.off bf.2.width = s.memRead bf.1 0 bf.2.width) ∧
      (∀ i, i < L.cap → (∀ f ∈ L.disc :: kindSlots K, ¬ inSlot f i) → t.bufByte .record i = 0#8) ∧
      regsKeptBut [.rlen, .status] s t ∧ cellsKeptOutside 0x100 L.cap s t ∧ countsOneCommand s t

/-- R106: with no layout, or none for the kind, ENC.k ends E_LAYOUT and writes nothing else. -/
def Obligations.EncodeWithoutLayoutOrKindIsRefused : Prop :=
  ∀ s k, (layoutUndefined s ∨ ∃ L, s.layoutInForce = some L ∧ layoutKind L k = none) →
    exec (encCommand k) s = .next { s with cp := s.cp + 1, status := 0x06#8 }

/-- R107 steps 1 and 2, R174: a payload over PAYCAP ends E_BOUNDS, before any range test; a register too wide for its field ends
E_RANGE; nothing is truncated or written. -/
def Obligations.EncodeRefusesWhatDoesNotFit : Prop :=
  ∀ s k L K, s.layoutInForce = some L → layoutKind L k = some K →
    ((∃ q ∈ K.payload, q.region.width < s.get .len) →
      exec (encCommand k) s = .next { s with cp := s.cp + 1, status := 0x02#8 }) ∧
    ((∀ q ∈ K.payload, s.get .len ≤ q.region.width) → (∃ rf ∈ K.scalars, 2 ^ (8 * rf.2.width) ≤ s.get rf.1) →
      exec (encCommand k) s = .next { s with cp := s.cp + 1, status := 0x04#8 })

/-! ## Decode -/

/-- R121, R122: under any layout, DEC of a record of the layout's length whose discriminator is kind `k`'s and whose payload
length fits writes KIND and the cells of kind `k`, and nothing else but STATUS. -/
def Obligations.DecodeCopiesTheFieldsOfTheKind : Prop :=
  ∀ s k L K, s.layoutInForce = some L → layoutKind L k = some K → s.get .rlen = L.cap →
    valOf L.endian (s.memRead .record L.disc.off L.disc.width) = K.disc →
    (∀ q ∈ K.payload, s.recField L q.len ≤ q.region.width) →
    ∃ t, exec .dec s = .next t ∧ t.status = 0x00#8 ∧ t.get .kind = kindCode k ∧
      (∀ rf ∈ K.scalars, t.get rf.1 = valOf L.endian (s.memRead .record rf.2.off rf.2.width)) ∧
      (∀ q ∈ K.payload, t.memRead .pay 0 255 =
        s.memRead .record q.region.off (s.recField L q.len) ++ List.replicate (255 - s.recField L q.len) 0#8) ∧
      (∀ bf ∈ K.blocks, t.memRead bf.1 0 64 =
        s.memRead .record bf.2.off bf.2.width ++ List.replicate (64 - bf.2.width) 0#8) ∧
      regsKeptBut (.kind :: .status :: K.scalars.map Prod.fst) s t ∧
      (∀ a, ¬ (K.payload ≠ none ∧ 0x200 ≤ a ∧ a ≤ 0x2FE) → ¬ (K.blocks ≠ [] ∧ 0x300 ≤ a ∧ a ≤ 0x37F) →
        t.mem.read a = s.mem.read a) ∧
      countsOneCommand s t

/-- R121, R174: the four failures of DEC in the order of its tests; each clears KIND and writes nothing else but STATUS. -/
def Obligations.DecodeFailuresInTheOrderOfItsTests : Prop :=
  ∀ s, (layoutUndefined s → exec .dec s = .next { s with cp := s.cp + 1, status := 0x06#8, kind := 0#3 }) ∧
    ∀ L, s.layoutInForce = some L →
      (s.get .rlen ≠ L.cap → exec .dec s = .next { s with cp := s.cp + 1, status := 0x03#8, kind := 0#3 }) ∧
      (s.get .rlen = L.cap → (∀ k K, layoutKind L k = some K → K.disc ≠ s.recField L L.disc) →
        exec .dec s = .next { s with cp := s.cp + 1, status := 0x01#8, kind := 0#3 }) ∧
      (s.get .rlen = L.cap → (∃ k K, layoutKind L k = some K ∧ K.disc = s.recField L L.disc ∧
          ∃ q ∈ K.payload, q.region.width < s.recField L q.len) →
        exec .dec s = .next { s with cp := s.cp + 1, status := 0x02#8, kind := 0#3 })

/-- R122 under LAYOUT_REF (R79): what DEC reads from a data record, byte by byte. -/
def Obligations.DecodeReadsTheReferenceDataRecord : Prop :=
  ∀ s, s.layout = 0#4 → s.rlen = 64#16 → (s.bufByte .record 0 = 0x14#8 ∨ s.bufByte .record 0 = 0x15#8) →
    (s.bufByte .record 8).toNat ≤ 55 →
    ∃ t, exec .dec s = .next t ∧ t.status = 0x00#8 ∧
      t.kind = (if s.bufByte .record 0 = 0x14#8 then 4#3 else 5#3) ∧
      t.sapi = s.bufByte .record 1 ∧ t.tn = s.bufByte .record 2 ∧ t.bn = s.bufByte .record 3 ∧
      t.fn = s.bufByte .record 7 ++ s.bufByte .record 6 ++ s.bufByte .record 5 ++ s.bufByte .record 4 ∧
      t.len = (s.bufByte .record 8).setWidth 16 ∧
      (∀ i, i < 255 → t.bufByte .pay i = if i < (s.bufByte .record 8).toNat then s.bufByte .record (9 + i) else 0#8) ∧
      regsKeptBut [.kind, .status, .sapi, .tn, .bn, .fn, .len] s t ∧ cellsKeptOutside 0x200 255 s t ∧
      countsOneCommand s t

/-- R122 under LAYOUT_REF (R79): what DEC reads from a record of the info, random-access, ready-to-send or time kind. -/
def Obligations.DecodeReadsTheOtherReferenceRecords : Prop :=
  ∀ s, s.layout = 0#4 → s.rlen = 64#16 →
    (s.bufByte .record 0 = 0x11#8 → ∃ t, exec .dec s = .next t ∧ t.status = 0x00#8 ∧ t.kind = 1#3 ∧
      (∀ i, i < 64 → t.bufByte .cellcfg i = if i < 8 then s.bufByte .record (1 + i) else 0#8) ∧
      (∀ i, i < 64 → t.bufByte .tmrcfg i = if i < 16 then s.bufByte .record (9 + i) else 0#8) ∧
      regsKeptBut [.kind, .status] s t ∧ cellsKeptOutside 0x300 128 s t ∧ countsOneCommand s t) ∧
    (s.bufByte .record 0 = 0x12#8 → ∃ t, exec .dec s = .next t ∧ t.status = 0x00#8 ∧ t.kind = 2#3 ∧
      t.ta = s.bufByte .record 1 ∧ t.ra = s.bufByte .record 3 ++ s.bufByte .record 2 ∧
      t.fn = s.bufByte .record 7 ++ s.bufByte .record 6 ++ s.bufByte .record 5 ++ s.bufByte .record 4 ∧
      regsKeptBut [.kind, .status, .ta, .ra, .fn] s t ∧ cellsKept s t ∧ countsOneCommand s t) ∧
    (s.bufByte .record 0 = 0x13#8 → ∃ t, exec .dec s = .next t ∧ t.status = 0x00#8 ∧ t.kind = 3#3 ∧
      t.sapi = s.bufByte .record 1 ∧ t.tn = s.bufByte .record 2 ∧ t.bn = s.bufByte .record 3 ∧
      t.fn = s.bufByte .record 7 ++ s.bufByte .record 6 ++ s.bufByte .record 5 ++ s.bufByte .record 4 ∧
      regsKeptBut [.kind, .status, .sapi, .tn, .bn, .fn] s t ∧ cellsKept s t ∧ countsOneCommand s t) ∧
    (s.bufByte .record 0 = 0x16#8 → ∃ t, exec .dec s = .next t ∧ t.status = 0x00#8 ∧ t.kind = 6#3 ∧
      t.fn = s.bufByte .record 7 ++ s.bufByte .record 6 ++ s.bufByte .record 5 ++ s.bufByte .record 4 ∧
      regsKeptBut [.kind, .status, .fn] s t ∧ cellsKept s t ∧ countsOneCommand s t)

/-- R83: DEC ignores the unused bytes of a recognised record and the payload-region bytes beyond the decoded length. -/
def Obligations.DecodeIgnoresUnusedBytes : Prop :=
  ∀ s t k L K i v, s.layoutInForce = some L → layoutKind L k = some K → s.get .rlen = L.cap →
    K.disc = s.recField L L.disc → i < L.cap → ¬ inSlot L.disc i → (∀ rf ∈ K.scalars, ¬ inSlot rf.2 i) →
    (∀ bf ∈ K.blocks, ¬ inSlot bf.2 i) → (∀ q ∈ K.payload, ¬ inSlot ⟨q.region.off, s.recField L q.len⟩ i) →
    exec .dec s = .next t →
    ∃ u, exec .dec (s.memWrite .record i [v]) = .next u ∧ (∀ r, u.get r = t.get r) ∧
      ∀ a, a ≠ 0x100 + i → u.mem.read a = t.mem.read a

/-! ## Frames -/

/-- R126: PACK of a frame of whole bytes, each byte the sum of its bits, first bit most significant; any other length is
refused. -/
def Obligations.PackMakesBytesOfTheFrameBits : Prop :=
  encode .pack = 0x00001200#32 ∧
  ∀ s, (s.get .fbits % 8 = 0 → s.get .fbits ≤ 2040 →
      ∃ t, exec .pack s = .next t ∧ t.status = 0x00#8 ∧ t.get .len = s.get .fbits / 8 ∧
        (∀ i, i < s.get .fbits / 8 → (t.bufByte .pay i).toNat =
          ((List.range 8).map fun j => (s.bufByte .frm (8 * i + j)).toNat % 2 * 2 ^ (7 - j)).sum) ∧
        (∀ i, s.get .fbits / 8 ≤ i → i < 255 → t.bufByte .pay i = 0#8) ∧
        regsKeptBut [.len, .status] s t ∧ cellsKeptOutside 0x200 255 s t ∧ countsOneCommand s t) ∧
    (s.get .fbits % 8 ≠ 0 ∨ 2040 < s.get .fbits →
      exec .pack s = .next { s with cp := s.cp + 1, status := 0x05#8 })

/-- R127: UNPACK of a payload of at most 255 bytes, each byte's most significant bit first; a longer one is refused. -/
def Obligations.UnpackMakesFrameBitsOfTheBytes : Prop :=
  encode .unpack = 0x00001300#32 ∧
  ∀ s, (s.get .len ≤ 255 →
      ∃ t, exec .unpack s = .next t ∧ t.status = 0x00#8 ∧ t.get .fbits = 8 * s.get .len ∧
        (∀ i j, i < s.get .len → j < 8 →
          t.bufByte .frm (8 * i + j) = if (s.bufByte .pay i).getLsbD (7 - j) then 1#8 else 0#8) ∧
        (∀ n, 8 * s.get .len ≤ n → n < 2040 → t.bufByte .frm n = 0#8) ∧
        regsKeptBut [.fbits, .status] s t ∧ cellsKeptOutside 0x800 2040 s t ∧ countsOneCommand s t) ∧
    (255 < s.get .len → exec .unpack s = .next { s with cp := s.cp + 1, status := 0x05#8 })

/-- R128: PACK and UNPACK undo each other, with anything between them that keeps what the second reads. -/
def Obligations.PackAndUnpackUndoEachOther : Prop :=
  (∀ s t t', exec .pack s = .next t → t.status = 0x00#8 → t'.get .len = t.get .len →
    (∀ i, i < 255 → t'.bufByte .pay i = t.bufByte .pay i) →
    ∃ u, exec .unpack t' = .next u ∧ u.status = 0x00#8 ∧ u.get .fbits = s.get .fbits ∧
      u.frameBits (s.get .fbits) = s.frameBits (s.get .fbits) ∧
      ∀ n, s.get .fbits ≤ n → n < 2040 → u.bufByte .frm n = 0#8) ∧
  (∀ s t t', exec .unpack s = .next t → t.status = 0x00#8 → t'.get .fbits = t.get .fbits →
    (∀ i, i < 2040 → t'.bufByte .frm i = t.bufByte .frm i) →
    ∃ u, exec .pack t' = .next u ∧ u.status = 0x00#8 ∧ u.get .len = s.get .len ∧
      (∀ i, i < s.get .len → u.bufByte .pay i = s.bufByte .pay i) ∧
      ∀ i, s.get .len ≤ i → i < 255 → u.bufByte .pay i = 0#8)

/-! ## Round trips -/

/-- R123, first half: under any layout, DEC after a successful ENC.k, with nothing between them that writes CFG, REC or RLEN,
gives back kind `k` and every operand. -/
def Obligations.DecodeGivesBackWhatEncodeTook : Prop :=
  ∀ s t t' k L K, s.layoutInForce = some L → layoutKind L k = some K →
    exec (encCommand k) s = .next t → t.status = 0x00#8 →
    t'.layout = t.layout → t'.params = t.params → t'.rlen = t.rlen →
    (∀ i, i < 256 → t'.bufByte .record i = t.bufByte .record i) →
    ∃ u, exec .dec t' = .next u ∧ u.status = 0x00#8 ∧ u.get .kind = kindCode k ∧
      (∀ rf ∈ K.scalars, u.get rf.1 = s.get rf.1) ∧
      (K.payload ≠ none → u.get .len = s.get .len ∧
        (∀ i, i < s.get .len → u.bufByte .pay i = s.bufByte .pay i) ∧
        ∀ i, s.get .len ≤ i → i < 255 → u.bufByte .pay i = 0#8) ∧
      ∀ bf ∈ K.blocks, ∀ i, i < bf.2.width → u.bufByte bf.1 i = s.bufByte bf.1 i

/-- R123, converse: ENC.k after a successful DEC of kind `k` succeeds, and the new record equals the old in the discriminator,
every field, the first LEN payload bytes and the blocks, and is zero elsewhere. -/
def Obligations.EncodeGivesBackWhatDecodeRead : Prop :=
  ∀ s t k L K, s.layoutInForce = some L → layoutKind L k = some K →
    exec .dec s = .next t → t.status = 0x00#8 → t.get .kind = kindCode k →
    ∃ u, exec (encCommand k) t = .next u ∧ u.status = 0x00#8 ∧
      u.memRead .record L.disc.off L.disc.width = s.memRead .record L.disc.off L.disc.width ∧
      (∀ rf ∈ K.scalars, u.memRead .record rf.2.off rf.2.width = s.memRead .record rf.2.off rf.2.width) ∧
      (∀ q ∈ K.payload,
        u.memRead .record q.region.off (t.get .len) = s.memRead .record q.region.off (t.get .len) ∧
        ∀ i, t.get .len ≤ i → i < q.region.width → u.bufByte .record (q.region.off + i) = 0#8) ∧
      (∀ bf ∈ K.blocks, u.memRead .record bf.2.off bf.2.width = s.memRead .record bf.2.off bf.2.width) ∧
      ∀ i, i < L.cap → (∀ f ∈ L.disc :: kindSlots K, ¬ inSlot f i) → u.bufByte .record i = 0#8

/-- R129: a frame of whole bytes that fits the payload region comes back bit-identical from PACK, ENC of a data kind, DEC and
UNPACK, under any layout whose other fields hold the operands; a longer frame stops at ENC with E_BOUNDS, REC untouched. -/
def Obligations.FrameSurvivesTheWholePath : Prop :=
  ∀ s k L K q, (k = .dataInd ∨ k = .dataReq) → s.layoutInForce = some L → layoutKind L k = some K → q ∈ K.payload →
    s.get .fbits % 8 = 0 → s.get .fbits ≤ 2040 →
    (∀ rf ∈ K.scalars, rf.1 ≠ .len → s.get rf.1 < 2 ^ (8 * rf.2.width)) →
    ∃ a, exec .pack s = .next a ∧ a.status = 0x00#8 ∧
      (s.get .fbits / 8 ≤ q.region.width →
        ∃ b c d, exec (encCommand k) a = .next b ∧ b.status = 0x00#8 ∧ exec .dec b = .next c ∧ c.status = 0x00#8 ∧
          exec .unpack c = .next d ∧ d.status = 0x00#8 ∧ d.get .fbits = s.get .fbits ∧
          d.frameBits (s.get .fbits) = s.frameBits (s.get .fbits)) ∧
      (q.region.width < s.get .fbits / 8 →
        ∃ b, exec (encCommand k) a = .next b ∧ b.status = 0x02#8 ∧ b.rlen = s.rlen ∧
          ∀ i, i < 256 → b.bufByte .record i = s.bufByte .record i)
end

