-- ==== Sys2Proof/Laws/Memory.lean ====
section
/-! SUPPORT. The laws of the buffer memory: a read after a write, the canonical form, blocks. -/

namespace Sys2Proof.Machine

theorem Memory.read_of_forall_ne {m : Memory} {x : Nat} (h : ∀ c ∈ m, c.1 ≠ x) : m.read x = unlisted := by
  induction m with
  | nil => rfl
  | cons c m ih =>
    simp only [Memory.read, h c (by simp), if_false]
    exact ih fun d hd => h d (by simp [hd])

theorem Memory.read_append_right {m n : Memory} {x : Nat} (h : ∀ c ∈ m, c.1 ≠ x) :
    Memory.read (m ++ n) x = n.read x := by
  induction m with
  | nil => rfl
  | cons c m ih =>
    simp only [List.cons_append, Memory.read, h c (by simp), if_false]
    exact ih fun d hd => h d (by simp [hd])

theorem Memory.read_append_left {m n : Memory} {x : Nat} (h : ∀ c ∈ n, c.1 ≠ x) :
    Memory.read (m ++ n) x = m.read x := by
  induction m with
  | nil => simpa [Memory.read] using Memory.read_of_forall_ne h
  | cons c m ih => simp only [List.cons_append, Memory.read, ih]

theorem Memory.read_filter {m : Memory} {x : Nat} {p : Host.Cell → Bool} (h : ∀ v, p (x, v) = true) :
    Memory.read (m.filter p) x = m.read x := by
  induction m with
  | nil => rfl
  | cons c m ih =>
    obtain ⟨k, v⟩ := c
    by_cases hk : k = x
    · subst hk; simp [h v, Memory.read]
    · by_cases hp : p (k, v) = true
      · simp only [List.filter_cons_of_pos hp, Memory.read, hk, if_false, ih]
      · simp only [List.filter_cons_of_neg hp, Memory.read, hk, if_false, ih]

/-- The addresses `cellsFrom` lists. -/
theorem cellsFrom_bounds {a : Nat} {vs : List Byte} {c : Host.Cell} (h : c ∈ cellsFrom a vs) :
    a ≤ c.1 ∧ c.1 < a + vs.length ∧ c.2 ≠ unlisted ∧ c.2 ∈ vs := by
  induction vs generalizing a with
  | nil => simp [cellsFrom] at h
  | cons v vs ih =>
    simp only [cellsFrom] at h
    split at h
    · have := ih h; simp only [List.length_cons, List.mem_cons]; exact ⟨by omega, by omega, this.2.2.1, .inr this.2.2.2⟩
    · rename_i hv
      rcases List.mem_cons.mp h with rfl | h
      · exact ⟨by simp, by simp, hv, by simp⟩
      · have := ih h; simp only [List.length_cons, List.mem_cons]; exact ⟨by omega, by omega, this.2.2.1, .inr this.2.2.2⟩

theorem read_cellsFrom (a : Nat) (vs : List Byte) (x : Nat) :
    (cellsFrom a vs).read x = if a ≤ x ∧ x < a + vs.length then vs.getD (x - a) unlisted else unlisted := by
  induction vs generalizing a with
  | nil => simp [cellsFrom, Memory.read]
  | cons v vs ih =>
    have hne : ∀ b, ∀ c ∈ cellsFrom (b + 1) vs, c.1 ≠ b := fun b c hc => by have := cellsFrom_bounds hc; omega
    by_cases hx : x = a
    · subst hx
      simp only [cellsFrom]
      split
      · rename_i hv; simp [Memory.read_of_forall_ne (hne x), hv]
      · simp [Memory.read]
    · have hread : (cellsFrom a (v :: vs)).read x = (cellsFrom (a + 1) vs).read x := by
        simp only [cellsFrom]
        split
        · rfl
        · simp [Memory.read, Ne.symm hx]
      rw [hread, ih]
      by_cases hin : a + 1 ≤ x ∧ x < a + 1 + vs.length
      · have h2 : a ≤ x ∧ x < a + (v :: vs).length := by simp only [List.length_cons]; omega
        obtain ⟨d, hd⟩ : ∃ d, x - a = d + 1 := ⟨x - a - 1, by omega⟩
        have hd' : x - (a + 1) = d := by omega
        rw [if_pos hin, if_pos h2, hd, hd']; simp
      · have h2 : ¬ (a ≤ x ∧ x < a + (v :: vs).length) := by simp only [List.length_cons]; omega
        rw [if_neg hin, if_neg h2]

/-- A read after a block write: the byte written inside the block, the byte there before outside it. -/
theorem Memory.read_writeBlock (m : Memory) (a : Nat) (vs : List Byte) (x : Nat) :
    (m.writeBlock a vs).read x = if a ≤ x ∧ x < a + vs.length then vs.getD (x - a) unlisted else m.read x := by
  unfold Memory.writeBlock
  have hlow : ∀ c ∈ m.filter (fun c => decide (c.1 < a)), c.1 < a := fun c hc => by simpa using (List.mem_filter.mp hc).2
  have hhigh : ∀ c ∈ m.filter (fun c => decide (a + vs.length ≤ c.1)), a + vs.length ≤ c.1 := fun c hc => by
    simpa using (List.mem_filter.mp hc).2
  by_cases h1 : x < a
  · have : ¬ (a ≤ x ∧ x < a + vs.length) := by omega
    rw [if_neg this, Memory.read_append_left fun c hc => by have := hhigh c hc; omega,
      Memory.read_append_left fun c hc => by have := (cellsFrom_bounds hc).1; omega,
      Memory.read_filter fun v => by simpa using h1]
  · rw [List.append_assoc, Memory.read_append_right fun c hc => by have := hlow c hc; omega]
    by_cases h2 : x < a + vs.length
    · rw [Memory.read_append_left fun c hc => by have := hhigh c hc; omega, read_cellsFrom, if_pos (by omega),
        if_pos (by omega)]
    · have : ¬ (a ≤ x ∧ x < a + vs.length) := by omega
      rw [if_neg this, Memory.read_append_right fun c hc => by have := (cellsFrom_bounds hc).2.1; omega,
        Memory.read_filter fun v => by simpa using h2]

theorem Memory.read_writeBlock_of_mem (m : Memory) (a : Nat) (vs : List Byte) {i : Nat} (h : i < vs.length) :
    (m.writeBlock a vs).read (a + i) = vs[i] := by
  rw [Memory.read_writeBlock, if_pos (by omega), Nat.add_sub_cancel_left, List.getD_eq_getElem vs _ h]

theorem Memory.read_writeBlock_of_not (m : Memory) (a : Nat) (vs : List Byte) {x : Nat}
    (h : x < a ∨ a + vs.length ≤ x) : (m.writeBlock a vs).read x = m.read x := by
  rw [Memory.read_writeBlock, if_neg (by omega)]

@[simp] theorem Memory.length_readBlock (m : Memory) (a n : Nat) : (m.readBlock a n).length = n := by
  induction n generalizing a with
  | zero => rfl
  | succ n ih => simp [Memory.readBlock, ih]

@[simp] theorem Memory.getElem_readBlock (m : Memory) (a n i : Nat) (h : i < (m.readBlock a n).length) :
    (m.readBlock a n)[i] = m.read (a + i) := by
  induction n generalizing a i with
  | zero => simp at h
  | succ n ih =>
    cases i with
    | zero => simp [Memory.readBlock]
    | succ i =>
      have hi : i < (m.readBlock (a + 1) n).length := by simp at h ⊢; omega
      have := ih (a + 1) i hi
      simp only [Memory.readBlock, List.getElem_cons_succ, this]
      congr 1; omega

/-- Blocks of two memories that agree on the block's addresses are equal. -/
theorem Memory.readBlock_congr {m n : Memory} {a k : Nat} (h : ∀ i, i < k → m.read (a + i) = n.read (a + i)) :
    m.readBlock a k = n.readBlock a k := by
  apply List.ext_getElem (by simp)
  intro i h1 h2
  simp only [Memory.length_readBlock] at h1
  simp [h i h1]

/-- The block just written reads back. -/
theorem Memory.readBlock_writeBlock_same (m : Memory) (a : Nat) (vs : List Byte) :
    (m.writeBlock a vs).readBlock a vs.length = vs := by
  apply List.ext_getElem (by simp)
  intro i h1 h2
  rw [Memory.getElem_readBlock, Memory.read_writeBlock_of_mem m a vs h2]

/-- A block that does not meet the one written reads as before. -/
theorem Memory.readBlock_writeBlock_of_disjoint (m : Memory) {a b k : Nat} (vs : List Byte)
    (h : b + k ≤ a ∨ a + vs.length ≤ b) : (m.writeBlock a vs).readBlock b k = m.readBlock b k :=
  Memory.readBlock_congr fun i hi => Memory.read_writeBlock_of_not m a vs (by omega)

theorem cellsFrom_pairwise (a : Nat) (vs : List Byte) : (cellsFrom a vs).Pairwise fun c d => c.1 < d.1 := by
  induction vs generalizing a with
  | nil => simp [cellsFrom]
  | cons v vs ih =>
    simp only [cellsFrom]
    split
    · exact ih _
    · exact List.pairwise_cons.mpr ⟨fun d hd => by have := (cellsFrom_bounds hd).1; simp only; omega, ih _⟩

theorem Memory.wf_iff {m : Memory} :
    m.wf = true ↔ (m.Pairwise fun c d => c.1 < d.1) ∧ ∀ c ∈ m, c.2 ≠ unlisted := by
  simp [Memory.wf]

theorem Memory.wf_nil : Memory.wf [] = true := by decide

/-- A block write keeps the canonical form. -/
theorem Memory.wf_writeBlock {m : Memory} (h : m.wf = true) (a : Nat) (vs : List Byte) :
    (m.writeBlock a vs).wf = true := by
  rw [Memory.wf_iff] at h ⊢
  obtain ⟨hs, hz⟩ := h
  unfold Memory.writeBlock
  refine ⟨?_, fun c hc => ?_⟩
  · rw [List.pairwise_append, List.pairwise_append]
    refine ⟨⟨hs.filter _, cellsFrom_pairwise a vs, fun c hc d hd => ?_⟩, hs.filter _, fun c hc d hd => ?_⟩
    · have h1 := (List.mem_filter.mp hc).2
      have h2 := (cellsFrom_bounds hd).1
      simp at h1; omega
    · have h2 := (List.mem_filter.mp hd).2
      simp at h2
      rcases List.mem_append.mp hc with hc | hc
      · have h1 := (List.mem_filter.mp hc).2
        simp at h1; omega
      · have h1 := (cellsFrom_bounds hc).2.1
        omega
  · rcases List.mem_append.mp hc with hc | hc
    · rcases List.mem_append.mp hc with hc | hc
      · exact hz c (List.mem_filter.mp hc).1
      · exact (cellsFrom_bounds hc).2.2.1
    · exact hz c (List.mem_filter.mp hc).1

theorem Memory.wf_write {m : Memory} (h : m.wf = true) (a : Nat) (v : Byte) : (m.write a v).wf = true :=
  Memory.wf_writeBlock h a [v]

/-- Two canonical memories that read alike everywhere are equal. -/
theorem Memory.ext_of_wf {m n : Memory} (hm : m.wf = true) (hn : n.wf = true) (h : ∀ x, m.read x = n.read x) :
    m = n := by
  rw [Memory.wf_iff] at hm hn
  induction m generalizing n with
  | nil =>
    cases n with
    | nil => rfl
    | cons d n =>
      have := h d.1
      simp only [Memory.read, if_true] at this
      exact absurd this.symm (hn.2 d (by simp))
  | cons c m ih =>
    cases n with
    | nil =>
      have := h c.1
      simp only [Memory.read, if_true] at this
      exact absurd this (hm.2 c (by simp))
    | cons d n =>
      obtain ⟨hcm, hm'⟩ := List.pairwise_cons.mp hm.1
      obtain ⟨hdn, hn'⟩ := List.pairwise_cons.mp hn.1
      have hc0 := hm.2 c (by simp)
      have hd0 := hn.2 d (by simp)
      have hkey : c.1 = d.1 := by
        rcases Nat.lt_trichotomy c.1 d.1 with hlt | heq | hgt
        · have := h c.1
          rw [Memory.read_of_forall_ne (m := d :: n)] at this
          · simp only [Memory.read, if_true] at this; exact absurd this hc0
          · intro e he
            rcases List.mem_cons.mp he with rfl | he
            · omega
            · have := hdn e he; omega
        · exact heq
        · have := h d.1
          rw [Memory.read_of_forall_ne (m := c :: m)] at this
          · simp only [Memory.read, if_true] at this; exact absurd this.symm hd0
          · intro e he
            rcases List.mem_cons.mp he with rfl | he
            · omega
            · have := hcm e he; omega
      have hval : c.2 = d.2 := by
        have := h c.1
        simpa [Memory.read, hkey] using this
      have hrest : m = n := by
        refine ih ⟨hm', fun e he => hm.2 e (by simp [he])⟩ ⟨hn', fun e he => hn.2 e (by simp [he])⟩ fun x => ?_
        by_cases hx : x = c.1
        · rw [Memory.read_of_forall_ne fun e he => by have := hcm e he; omega,
            Memory.read_of_forall_ne fun e he => by have := hdn e he; omega]
        · have := h x
          simpa only [Memory.read, Ne.symm hx, if_false, ← hkey] using this
      rw [hrest, Prod.ext hkey hval]

/-- A block write done twice is the block write done once, canonical or not. -/
theorem Memory.writeBlock_writeBlock (m : Memory) (a : Nat) (vs ws : List Byte) (h : vs.length = ws.length) :
    (m.writeBlock a vs).writeBlock a ws = m.writeBlock a ws := by
  have hlow : (cellsFrom a vs).filter (fun c => decide (c.1 < a)) = [] := by
    rw [List.filter_eq_nil_iff]; intro c hc; have := (cellsFrom_bounds hc).1; simp; omega
  have hhigh : (cellsFrom a vs).filter (fun c => decide (a + ws.length ≤ c.1)) = [] := by
    rw [List.filter_eq_nil_iff]; intro c hc; have := (cellsFrom_bounds hc).2.1; simp; omega
  unfold Memory.writeBlock
  simp only [List.filter_append, hlow, hhigh, List.filter_filter, h]
  have e1 : (m.filter fun c : Host.Cell => decide (c.1 < a) && decide (a + ws.length ≤ c.1)) = [] := by
    rw [List.filter_eq_nil_iff]; intro c _; simp; omega
  have e2 : (m.filter fun c : Host.Cell => decide (a + ws.length ≤ c.1) && decide (c.1 < a)) = [] := by
    rw [List.filter_eq_nil_iff]; intro c _; simp; omega
  simp [e1, e2]

theorem filter_cellsFrom_of_all {p : Host.Cell → Bool} {a : Nat} {vs : List Byte}
    (h : ∀ c : Host.Cell, a ≤ c.1 → c.1 < a + vs.length → p c = true) : (cellsFrom a vs).filter p = cellsFrom a vs :=
  List.filter_eq_self.mpr fun c hc => h c (cellsFrom_bounds hc).1 (cellsFrom_bounds hc).2.1

theorem filter_cellsFrom_of_none {p : Host.Cell → Bool} {a : Nat} {vs : List Byte}
    (h : ∀ c : Host.Cell, a ≤ c.1 → c.1 < a + vs.length → p c = false) : (cellsFrom a vs).filter p = [] :=
  List.filter_eq_nil_iff.mpr fun c hc => by simp [h c (cellsFrom_bounds hc).1 (cellsFrom_bounds hc).2.1]

/-- Two blocks written one above the other, then the lower one again: the second write of it changes nothing. -/
theorem Memory.writeBlock_again_below (m : Memory) {a b : Nat} {vs ws : List Byte} (h : a + vs.length ≤ b) :
    ((m.writeBlock a vs).writeBlock b ws).writeBlock a vs = (m.writeBlock a vs).writeBlock b ws := by
  unfold Memory.writeBlock
  simp only [List.filter_append, List.filter_filter]
  rw [filter_cellsFrom_of_all (p := fun c => decide (c.1 < b)) (a := a) (by intro c _ _; simp; omega),
    filter_cellsFrom_of_none (p := fun c => decide (b + ws.length ≤ c.1)) (a := a) (by intro c _ _; simp; omega),
    filter_cellsFrom_of_none (p := fun c => decide (c.1 < a)) (a := b) (by intro c _ _; simp; omega),
    filter_cellsFrom_of_all (p := fun c => decide (a + vs.length ≤ c.1)) (a := b) (by intro c _ _; simp; omega),
    filter_cellsFrom_of_none (p := fun c => decide (c.1 < a) && decide (c.1 < b)) (a := a) (by intro c _ _; simp; omega),
    filter_cellsFrom_of_none (p := fun c => decide (c.1 < a) && decide (b + ws.length ≤ c.1)) (a := a) (by intro c _ _; simp; omega),
    filter_cellsFrom_of_none (p := fun c => decide (a + vs.length ≤ c.1) && decide (c.1 < b)) (a := a) (by intro c _ _; simp; omega),
    filter_cellsFrom_of_none (p := fun c => decide (a + vs.length ≤ c.1) && decide (b + ws.length ≤ c.1)) (a := a) (by intro c _ _; simp; omega)]
  have z (p : Host.Cell → Bool) (hp : ∀ c, p c = false) : m.filter p = [] :=
    List.filter_eq_nil_iff.mpr fun c _ => by simp [hp c]
  have e (p q : Host.Cell → Bool) (hpq : ∀ c, p c = q c) : m.filter p = m.filter q :=
    List.filter_congr fun c _ => hpq c
  rw [z (fun c => decide (c.1 < a) && (decide (c.1 < b) && decide (a + vs.length ≤ c.1))) (by intro c; simp; omega),
    z (fun c => decide (c.1 < a) && (decide (b + ws.length ≤ c.1) && decide (c.1 < a))) (by intro c; simp; omega),
    z (fun c => decide (c.1 < a) && (decide (b + ws.length ≤ c.1) && decide (a + vs.length ≤ c.1))) (by intro c; simp; omega),
    z (fun c => decide (a + vs.length ≤ c.1) && (decide (c.1 < b) && decide (c.1 < a))) (by intro c; simp; omega),
    z (fun c => decide (a + vs.length ≤ c.1) && (decide (b + ws.length ≤ c.1) && decide (c.1 < a))) (by intro c; simp; omega),
    z (fun c => decide (b + ws.length ≤ c.1) && decide (c.1 < a)) (by intro c; simp; omega),
    e (fun c => decide (c.1 < a) && (decide (c.1 < b) && decide (c.1 < a))) (fun c => decide (c.1 < b) && decide (c.1 < a))
      (by intro c; by_cases c.1 < a <;> simp [*]),
    e (fun c => decide (a + vs.length ≤ c.1) && (decide (c.1 < b) && decide (a + vs.length ≤ c.1)))
      (fun c => decide (c.1 < b) && decide (a + vs.length ≤ c.1)) (by intro c; by_cases a + vs.length ≤ c.1 <;> simp [*]),
    e (fun c => decide (a + vs.length ≤ c.1) && (decide (b + ws.length ≤ c.1) && decide (a + vs.length ≤ c.1)))
      (fun c => decide (b + ws.length ≤ c.1) && decide (a + vs.length ≤ c.1))
      (by intro c; by_cases a + vs.length ≤ c.1 <;> simp [*])]
  simp

end Sys2Proof.Machine
end

