-- ==== Sys2Proof/Laws/State.lean ====
section
/-! SUPPORT. What each named update of State does to each field: one lemma per field, so that no proof unfolds a record
update. -/

namespace Sys2Proof.Machine

variable (s : State)

@[simp] theorem State.start_layout : s.start.layout = s.layout := rfl
@[simp] theorem State.start_status : s.start.status = s.status := rfl
@[simp] theorem State.start_rlen : s.start.rlen = s.rlen := rfl
@[simp] theorem State.start_kind : s.start.kind = s.kind := rfl
@[simp] theorem State.start_sapi : s.start.sapi = s.sapi := rfl
@[simp] theorem State.start_tn : s.start.tn = s.tn := rfl
@[simp] theorem State.start_bn : s.start.bn = s.bn := rfl
@[simp] theorem State.start_fn : s.start.fn = s.fn := rfl
@[simp] theorem State.start_ta : s.start.ta = s.ta := rfl
@[simp] theorem State.start_ra : s.start.ra = s.ra := rfl
@[simp] theorem State.start_len : s.start.len = s.len := rfl
@[simp] theorem State.start_fbits : s.start.fbits = s.fbits := rfl
@[simp] theorem State.start_mfpos : s.start.mfpos = s.mfpos := rfl
@[simp] theorem State.start_pd : s.start.pd = s.pd := rfl
@[simp] theorem State.start_mt : s.start.mt = s.mt := rfl
@[simp] theorem State.start_chv : s.start.chv = s.chv := rfl
@[simp] theorem State.start_hid : s.start.hid = s.hid := rfl
@[simp] theorem State.start_fclass : s.start.fclass = s.fclass := rfl
@[simp] theorem State.start_cause : s.start.cause = s.cause := rfl
@[simp] theorem State.start_mem : s.start.mem = s.mem := rfl
@[simp] theorem State.start_cp : s.start.cp = s.cp + 1 := rfl
@[simp] theorem State.start_ev : s.start.ev = s.ev := rfl
@[simp] theorem State.start_params : s.start.params = s.params := rfl
@[simp] theorem State.start_pending : s.start.pending = s.pending := rfl
@[simp] theorem State.start_replies : s.start.replies = s.replies := rfl

@[simp] theorem State.raise_layout (c : StatusCode) : (s.raise c).layout = s.layout := rfl
@[simp] theorem State.raise_status (c : StatusCode) : (s.raise c).status = statusNumber c := rfl
@[simp] theorem State.raise_rlen (c : StatusCode) : (s.raise c).rlen = s.rlen := rfl
@[simp] theorem State.raise_kind (c : StatusCode) : (s.raise c).kind = s.kind := rfl
@[simp] theorem State.raise_sapi (c : StatusCode) : (s.raise c).sapi = s.sapi := rfl
@[simp] theorem State.raise_tn (c : StatusCode) : (s.raise c).tn = s.tn := rfl
@[simp] theorem State.raise_bn (c : StatusCode) : (s.raise c).bn = s.bn := rfl
@[simp] theorem State.raise_fn (c : StatusCode) : (s.raise c).fn = s.fn := rfl
@[simp] theorem State.raise_ta (c : StatusCode) : (s.raise c).ta = s.ta := rfl
@[simp] theorem State.raise_ra (c : StatusCode) : (s.raise c).ra = s.ra := rfl
@[simp] theorem State.raise_len (c : StatusCode) : (s.raise c).len = s.len := rfl
@[simp] theorem State.raise_fbits (c : StatusCode) : (s.raise c).fbits = s.fbits := rfl
@[simp] theorem State.raise_mfpos (c : StatusCode) : (s.raise c).mfpos = s.mfpos := rfl
@[simp] theorem State.raise_pd (c : StatusCode) : (s.raise c).pd = s.pd := rfl
@[simp] theorem State.raise_mt (c : StatusCode) : (s.raise c).mt = s.mt := rfl
@[simp] theorem State.raise_chv (c : StatusCode) : (s.raise c).chv = s.chv := rfl
@[simp] theorem State.raise_hid (c : StatusCode) : (s.raise c).hid = s.hid := rfl
@[simp] theorem State.raise_fclass (c : StatusCode) : (s.raise c).fclass = s.fclass := rfl
@[simp] theorem State.raise_cause (c : StatusCode) : (s.raise c).cause = s.cause := rfl
@[simp] theorem State.raise_mem (c : StatusCode) : (s.raise c).mem = s.mem := rfl
@[simp] theorem State.raise_cp (c : StatusCode) : (s.raise c).cp = s.cp := rfl
@[simp] theorem State.raise_ev (c : StatusCode) : (s.raise c).ev = s.ev := rfl
@[simp] theorem State.raise_params (c : StatusCode) : (s.raise c).params = s.params := rfl
@[simp] theorem State.raise_pending (c : StatusCode) : (s.raise c).pending = s.pending := rfl
@[simp] theorem State.raise_replies (c : StatusCode) : (s.raise c).replies = s.replies := rfl

@[simp] theorem State.done_layout : s.done.layout = s.layout := rfl
@[simp] theorem State.done_status : s.done.status = 0x00#8 := rfl
@[simp] theorem State.done_rlen : s.done.rlen = s.rlen := rfl
@[simp] theorem State.done_kind : s.done.kind = s.kind := rfl
@[simp] theorem State.done_sapi : s.done.sapi = s.sapi := rfl
@[simp] theorem State.done_tn : s.done.tn = s.tn := rfl
@[simp] theorem State.done_bn : s.done.bn = s.bn := rfl
@[simp] theorem State.done_fn : s.done.fn = s.fn := rfl
@[simp] theorem State.done_ta : s.done.ta = s.ta := rfl
@[simp] theorem State.done_ra : s.done.ra = s.ra := rfl
@[simp] theorem State.done_len : s.done.len = s.len := rfl
@[simp] theorem State.done_fbits : s.done.fbits = s.fbits := rfl
@[simp] theorem State.done_mfpos : s.done.mfpos = s.mfpos := rfl
@[simp] theorem State.done_pd : s.done.pd = s.pd := rfl
@[simp] theorem State.done_mt : s.done.mt = s.mt := rfl
@[simp] theorem State.done_chv : s.done.chv = s.chv := rfl
@[simp] theorem State.done_hid : s.done.hid = s.hid := rfl
@[simp] theorem State.done_fclass : s.done.fclass = s.fclass := rfl
@[simp] theorem State.done_cause : s.done.cause = s.cause := rfl
@[simp] theorem State.done_mem : s.done.mem = s.mem := rfl
@[simp] theorem State.done_cp : s.done.cp = s.cp := rfl
@[simp] theorem State.done_ev : s.done.ev = s.ev := rfl
@[simp] theorem State.done_params : s.done.params = s.params := rfl
@[simp] theorem State.done_pending : s.done.pending = s.pending := rfl
@[simp] theorem State.done_replies : s.done.replies = s.replies := rfl

@[simp] theorem State.emit_layout (h : Handler) : (s.emit h).layout = s.layout := rfl
@[simp] theorem State.emit_status (h : Handler) : (s.emit h).status = s.status := rfl
@[simp] theorem State.emit_rlen (h : Handler) : (s.emit h).rlen = s.rlen := rfl
@[simp] theorem State.emit_kind (h : Handler) : (s.emit h).kind = s.kind := rfl
@[simp] theorem State.emit_sapi (h : Handler) : (s.emit h).sapi = s.sapi := rfl
@[simp] theorem State.emit_tn (h : Handler) : (s.emit h).tn = s.tn := rfl
@[simp] theorem State.emit_bn (h : Handler) : (s.emit h).bn = s.bn := rfl
@[simp] theorem State.emit_fn (h : Handler) : (s.emit h).fn = s.fn := rfl
@[simp] theorem State.emit_ta (h : Handler) : (s.emit h).ta = s.ta := rfl
@[simp] theorem State.emit_ra (h : Handler) : (s.emit h).ra = s.ra := rfl
@[simp] theorem State.emit_len (h : Handler) : (s.emit h).len = s.len := rfl
@[simp] theorem State.emit_fbits (h : Handler) : (s.emit h).fbits = s.fbits := rfl
@[simp] theorem State.emit_mfpos (h : Handler) : (s.emit h).mfpos = s.mfpos := rfl
@[simp] theorem State.emit_pd (h : Handler) : (s.emit h).pd = s.pd := rfl
@[simp] theorem State.emit_mt (h : Handler) : (s.emit h).mt = s.mt := rfl
@[simp] theorem State.emit_chv (h : Handler) : (s.emit h).chv = s.chv := rfl
@[simp] theorem State.emit_hid (h : Handler) : (s.emit h).hid = s.hid := rfl
@[simp] theorem State.emit_fclass (h : Handler) : (s.emit h).fclass = s.fclass := rfl
@[simp] theorem State.emit_cause (h : Handler) : (s.emit h).cause = s.cause := rfl
@[simp] theorem State.emit_mem (h : Handler) : (s.emit h).mem = s.mem := rfl
@[simp] theorem State.emit_cp (h : Handler) : (s.emit h).cp = s.cp := rfl
@[simp] theorem State.emit_ev (h : Handler) : (s.emit h).ev = s.ev ++ [.invoke h] := rfl
@[simp] theorem State.emit_params (h : Handler) : (s.emit h).params = s.params := rfl
@[simp] theorem State.emit_pending (h : Handler) : (s.emit h).pending = s.pending := rfl
@[simp] theorem State.emit_replies (h : Handler) : (s.emit h).replies = s.replies := rfl

@[simp] theorem State.answer_layout (r : Reply) : (s.answer r).layout = s.layout := rfl
@[simp] theorem State.answer_status (r : Reply) : (s.answer r).status = s.status := rfl
@[simp] theorem State.answer_rlen (r : Reply) : (s.answer r).rlen = s.rlen := rfl
@[simp] theorem State.answer_kind (r : Reply) : (s.answer r).kind = s.kind := rfl
@[simp] theorem State.answer_sapi (r : Reply) : (s.answer r).sapi = s.sapi := rfl
@[simp] theorem State.answer_tn (r : Reply) : (s.answer r).tn = s.tn := rfl
@[simp] theorem State.answer_bn (r : Reply) : (s.answer r).bn = s.bn := rfl
@[simp] theorem State.answer_fn (r : Reply) : (s.answer r).fn = s.fn := rfl
@[simp] theorem State.answer_ta (r : Reply) : (s.answer r).ta = s.ta := rfl
@[simp] theorem State.answer_ra (r : Reply) : (s.answer r).ra = s.ra := rfl
@[simp] theorem State.answer_len (r : Reply) : (s.answer r).len = s.len := rfl
@[simp] theorem State.answer_fbits (r : Reply) : (s.answer r).fbits = s.fbits := rfl
@[simp] theorem State.answer_mfpos (r : Reply) : (s.answer r).mfpos = s.mfpos := rfl
@[simp] theorem State.answer_pd (r : Reply) : (s.answer r).pd = s.pd := rfl
@[simp] theorem State.answer_mt (r : Reply) : (s.answer r).mt = s.mt := rfl
@[simp] theorem State.answer_chv (r : Reply) : (s.answer r).chv = s.chv := rfl
@[simp] theorem State.answer_hid (r : Reply) : (s.answer r).hid = s.hid := rfl
@[simp] theorem State.answer_fclass (r : Reply) : (s.answer r).fclass = s.fclass := rfl
@[simp] theorem State.answer_cause (r : Reply) : (s.answer r).cause = s.cause := rfl
@[simp] theorem State.answer_mem (r : Reply) : (s.answer r).mem = s.mem := rfl
@[simp] theorem State.answer_cp (r : Reply) : (s.answer r).cp = s.cp := rfl
@[simp] theorem State.answer_ev (r : Reply) : (s.answer r).ev = s.ev := rfl
@[simp] theorem State.answer_params (r : Reply) : (s.answer r).params = s.params := rfl
@[simp] theorem State.answer_pending (r : Reply) : (s.answer r).pending = s.pending := rfl
@[simp] theorem State.answer_replies (r : Reply) : (s.answer r).replies = s.replies ++ [r] := rfl

@[simp] theorem State.withPending_layout (p : List PortEvent) : (s.withPending p).layout = s.layout := rfl
@[simp] theorem State.withPending_status (p : List PortEvent) : (s.withPending p).status = s.status := rfl
@[simp] theorem State.withPending_rlen (p : List PortEvent) : (s.withPending p).rlen = s.rlen := rfl
@[simp] theorem State.withPending_kind (p : List PortEvent) : (s.withPending p).kind = s.kind := rfl
@[simp] theorem State.withPending_sapi (p : List PortEvent) : (s.withPending p).sapi = s.sapi := rfl
@[simp] theorem State.withPending_tn (p : List PortEvent) : (s.withPending p).tn = s.tn := rfl
@[simp] theorem State.withPending_bn (p : List PortEvent) : (s.withPending p).bn = s.bn := rfl
@[simp] theorem State.withPending_fn (p : List PortEvent) : (s.withPending p).fn = s.fn := rfl
@[simp] theorem State.withPending_ta (p : List PortEvent) : (s.withPending p).ta = s.ta := rfl
@[simp] theorem State.withPending_ra (p : List PortEvent) : (s.withPending p).ra = s.ra := rfl
@[simp] theorem State.withPending_len (p : List PortEvent) : (s.withPending p).len = s.len := rfl
@[simp] theorem State.withPending_fbits (p : List PortEvent) : (s.withPending p).fbits = s.fbits := rfl
@[simp] theorem State.withPending_mfpos (p : List PortEvent) : (s.withPending p).mfpos = s.mfpos := rfl
@[simp] theorem State.withPending_pd (p : List PortEvent) : (s.withPending p).pd = s.pd := rfl
@[simp] theorem State.withPending_mt (p : List PortEvent) : (s.withPending p).mt = s.mt := rfl
@[simp] theorem State.withPending_chv (p : List PortEvent) : (s.withPending p).chv = s.chv := rfl
@[simp] theorem State.withPending_hid (p : List PortEvent) : (s.withPending p).hid = s.hid := rfl
@[simp] theorem State.withPending_fclass (p : List PortEvent) : (s.withPending p).fclass = s.fclass := rfl
@[simp] theorem State.withPending_cause (p : List PortEvent) : (s.withPending p).cause = s.cause := rfl
@[simp] theorem State.withPending_mem (p : List PortEvent) : (s.withPending p).mem = s.mem := rfl
@[simp] theorem State.withPending_cp (p : List PortEvent) : (s.withPending p).cp = s.cp := rfl
@[simp] theorem State.withPending_ev (p : List PortEvent) : (s.withPending p).ev = s.ev := rfl
@[simp] theorem State.withPending_params (p : List PortEvent) : (s.withPending p).params = s.params := rfl
@[simp] theorem State.withPending_pending (p : List PortEvent) : (s.withPending p).pending = p := rfl
@[simp] theorem State.withPending_replies (p : List PortEvent) : (s.withPending p).replies = s.replies := rfl

@[simp] theorem State.memWrite_layout (b : Buffer) (off : Nat) (vs : List Byte) : (s.memWrite b off vs).layout = s.layout := rfl
@[simp] theorem State.memWrite_status (b : Buffer) (off : Nat) (vs : List Byte) : (s.memWrite b off vs).status = s.status := rfl
@[simp] theorem State.memWrite_rlen (b : Buffer) (off : Nat) (vs : List Byte) : (s.memWrite b off vs).rlen = s.rlen := rfl
@[simp] theorem State.memWrite_kind (b : Buffer) (off : Nat) (vs : List Byte) : (s.memWrite b off vs).kind = s.kind := rfl
@[simp] theorem State.memWrite_sapi (b : Buffer) (off : Nat) (vs : List Byte) : (s.memWrite b off vs).sapi = s.sapi := rfl
@[simp] theorem State.memWrite_tn (b : Buffer) (off : Nat) (vs : List Byte) : (s.memWrite b off vs).tn = s.tn := rfl
@[simp] theorem State.memWrite_bn (b : Buffer) (off : Nat) (vs : List Byte) : (s.memWrite b off vs).bn = s.bn := rfl
@[simp] theorem State.memWrite_fn (b : Buffer) (off : Nat) (vs : List Byte) : (s.memWrite b off vs).fn = s.fn := rfl
@[simp] theorem State.memWrite_ta (b : Buffer) (off : Nat) (vs : List Byte) : (s.memWrite b off vs).ta = s.ta := rfl
@[simp] theorem State.memWrite_ra (b : Buffer) (off : Nat) (vs : List Byte) : (s.memWrite b off vs).ra = s.ra := rfl
@[simp] theorem State.memWrite_len (b : Buffer) (off : Nat) (vs : List Byte) : (s.memWrite b off vs).len = s.len := rfl
@[simp] theorem State.memWrite_fbits (b : Buffer) (off : Nat) (vs : List Byte) : (s.memWrite b off vs).fbits = s.fbits := rfl
@[simp] theorem State.memWrite_mfpos (b : Buffer) (off : Nat) (vs : List Byte) : (s.memWrite b off vs).mfpos = s.mfpos := rfl
@[simp] theorem State.memWrite_pd (b : Buffer) (off : Nat) (vs : List Byte) : (s.memWrite b off vs).pd = s.pd := rfl
@[simp] theorem State.memWrite_mt (b : Buffer) (off : Nat) (vs : List Byte) : (s.memWrite b off vs).mt = s.mt := rfl
@[simp] theorem State.memWrite_chv (b : Buffer) (off : Nat) (vs : List Byte) : (s.memWrite b off vs).chv = s.chv := rfl
@[simp] theorem State.memWrite_hid (b : Buffer) (off : Nat) (vs : List Byte) : (s.memWrite b off vs).hid = s.hid := rfl
@[simp] theorem State.memWrite_fclass (b : Buffer) (off : Nat) (vs : List Byte) : (s.memWrite b off vs).fclass = s.fclass := rfl
@[simp] theorem State.memWrite_cause (b : Buffer) (off : Nat) (vs : List Byte) : (s.memWrite b off vs).cause = s.cause := rfl
@[simp] theorem State.memWrite_mem (b : Buffer) (off : Nat) (vs : List Byte) : (s.memWrite b off vs).mem = s.mem.writeBlock (b.base + off) vs := rfl
@[simp] theorem State.memWrite_cp (b : Buffer) (off : Nat) (vs : List Byte) : (s.memWrite b off vs).cp = s.cp := rfl
@[simp] theorem State.memWrite_ev (b : Buffer) (off : Nat) (vs : List Byte) : (s.memWrite b off vs).ev = s.ev := rfl
@[simp] theorem State.memWrite_params (b : Buffer) (off : Nat) (vs : List Byte) : (s.memWrite b off vs).params = s.params := rfl
@[simp] theorem State.memWrite_pending (b : Buffer) (off : Nat) (vs : List Byte) : (s.memWrite b off vs).pending = s.pending := rfl
@[simp] theorem State.memWrite_replies (b : Buffer) (off : Nat) (vs : List Byte) : (s.memWrite b off vs).replies = s.replies := rfl

@[simp] theorem State.clearCells_layout : s.clearCells.layout = s.layout := rfl
@[simp] theorem State.clearCells_status : s.clearCells.status = s.status := rfl
@[simp] theorem State.clearCells_rlen : s.clearCells.rlen = 0 := rfl
@[simp] theorem State.clearCells_kind : s.clearCells.kind = 0 := rfl
@[simp] theorem State.clearCells_sapi : s.clearCells.sapi = 0 := rfl
@[simp] theorem State.clearCells_tn : s.clearCells.tn = 0 := rfl
@[simp] theorem State.clearCells_bn : s.clearCells.bn = 0 := rfl
@[simp] theorem State.clearCells_fn : s.clearCells.fn = 0 := rfl
@[simp] theorem State.clearCells_ta : s.clearCells.ta = 0 := rfl
@[simp] theorem State.clearCells_ra : s.clearCells.ra = 0 := rfl
@[simp] theorem State.clearCells_len : s.clearCells.len = 0 := rfl
@[simp] theorem State.clearCells_fbits : s.clearCells.fbits = 0 := rfl
@[simp] theorem State.clearCells_mfpos : s.clearCells.mfpos = 0 := rfl
@[simp] theorem State.clearCells_pd : s.clearCells.pd = 0 := rfl
@[simp] theorem State.clearCells_mt : s.clearCells.mt = 0 := rfl
@[simp] theorem State.clearCells_chv : s.clearCells.chv = 0 := rfl
@[simp] theorem State.clearCells_hid : s.clearCells.hid = 0 := rfl
@[simp] theorem State.clearCells_fclass : s.clearCells.fclass = 0 := rfl
@[simp] theorem State.clearCells_cause : s.clearCells.cause = 0 := rfl
@[simp] theorem State.clearCells_mem : s.clearCells.mem = [] := rfl
@[simp] theorem State.clearCells_cp : s.clearCells.cp = s.cp := rfl
@[simp] theorem State.clearCells_ev : s.clearCells.ev = s.ev := rfl
@[simp] theorem State.clearCells_params : s.clearCells.params = s.params := rfl
@[simp] theorem State.clearCells_pending : s.clearCells.pending = s.pending := rfl
@[simp] theorem State.clearCells_replies : s.clearCells.replies = s.replies := rfl

/-! A write of a register cell leaves everything that is no register cell. -/

@[simp] theorem State.set_mem (r : Reg) (v : Nat) : (s.set r v).mem = s.mem := by cases r <;> rfl
@[simp] theorem State.set_cp (r : Reg) (v : Nat) : (s.set r v).cp = s.cp := by cases r <;> rfl
@[simp] theorem State.set_ev (r : Reg) (v : Nat) : (s.set r v).ev = s.ev := by cases r <;> rfl
@[simp] theorem State.set_params (r : Reg) (v : Nat) : (s.set r v).params = s.params := by cases r <;> rfl
@[simp] theorem State.set_pending (r : Reg) (v : Nat) : (s.set r v).pending = s.pending := by cases r <;> rfl
@[simp] theorem State.set_replies (r : Reg) (v : Nat) : (s.set r v).replies = s.replies := by cases r <;> rfl

/-- What a register cell holds after a write of one: the written cell its low bits, every other cell what it held. -/
theorem State.get_set (r q : Reg) (v : Nat) :
    (s.set r v).get q = if q = r then v % 2 ^ r.width else s.get q := by
  cases r <;> cases q <;> simp [State.set, State.get, Reg.width]

@[simp] theorem State.get_set_same (r : Reg) (v : Nat) : (s.set r v).get r = v % 2 ^ r.width := by
  simp [State.get_set]

@[simp] theorem State.get_set_of_ne {r q : Reg} (h : q ≠ r) (v : Nat) : (s.set r v).get q = s.get q := by
  simp [State.get_set, h]

/-- A register cell holds a number of its width. -/
theorem State.get_lt (r : Reg) : s.get r < 2 ^ r.width := by
  cases r <;> exact BitVec.isLt _

@[simp] theorem State.get_start (r : Reg) : s.start.get r = s.get r := by cases r <;> rfl

@[simp] theorem State.get_emit (h : Handler) (r : Reg) : (s.emit h).get r = s.get r := by cases r <;> rfl

@[simp] theorem State.get_answer (q : Reply) (r : Reg) : (s.answer q).get r = s.get r := by cases r <;> rfl

@[simp] theorem State.get_withPending (p : List PortEvent) (r : Reg) : (s.withPending p).get r = s.get r := by
  cases r <;> rfl

@[simp] theorem State.get_memWrite (b : Buffer) (off : Nat) (vs : List Byte) (r : Reg) :
    (s.memWrite b off vs).get r = s.get r := by cases r <;> rfl

/-- After `raise`, STATUS holds the code and every other register what it held. -/
theorem State.get_raise (c : StatusCode) (r : Reg) :
    (s.raise c).get r = if r = .status then (statusNumber c).toNat else s.get r := by cases r <;> rfl

@[simp] theorem State.get_raise_of_ne (c : StatusCode) {r : Reg} (h : r ≠ .status) : (s.raise c).get r = s.get r := by
  simp [State.get_raise, h]

@[simp] theorem State.get_done_of_ne {r : Reg} (h : r ≠ .status) : s.done.get r = s.get r := by
  simp [State.done, h]

/-- The layout in force depends on the parameters and on CFG alone. -/
theorem State.layoutInForce_congr {s t : State} (hp : t.params = s.params) (hl : t.layout = s.layout) :
    t.layoutInForce = s.layoutInForce := by simp [State.layoutInForce, hp, hl]

@[simp] theorem State.layoutInForce_start : s.start.layoutInForce = s.layoutInForce := rfl

/-- Two states that agree in every register cell and in every field that is none are equal. -/
theorem State.ext_get {s t : State} (hr : ∀ r, s.get r = t.get r) (hm : s.mem = t.mem) (hc : s.cp = t.cp)
    (he : s.ev = t.ev) (hp : s.params = t.params) (hq : s.pending = t.pending) (ha : s.replies = t.replies) :
    s = t := by
  cases s
  cases t
  simp only [State.mk.injEq]
  refine ⟨?_, ?_, ?_, ?_, ?_, ?_, ?_, ?_, ?_, ?_, ?_, ?_, ?_, ?_, ?_, ?_, ?_, ?_, ?_, hm, hc, he, hp, hq, ha⟩
  · exact BitVec.eq_of_toNat_eq (hr .cfg)
  · exact BitVec.eq_of_toNat_eq (hr .status)
  · exact BitVec.eq_of_toNat_eq (hr .rlen)
  · exact BitVec.eq_of_toNat_eq (hr .kind)
  · exact BitVec.eq_of_toNat_eq (hr .sapi)
  · exact BitVec.eq_of_toNat_eq (hr .tn)
  · exact BitVec.eq_of_toNat_eq (hr .bn)
  · exact BitVec.eq_of_toNat_eq (hr .fn)
  · exact BitVec.eq_of_toNat_eq (hr .ta)
  · exact BitVec.eq_of_toNat_eq (hr .ra)
  · exact BitVec.eq_of_toNat_eq (hr .len)
  · exact BitVec.eq_of_toNat_eq (hr .fbits)
  · exact BitVec.eq_of_toNat_eq (hr .mfpos)
  · exact BitVec.eq_of_toNat_eq (hr .pd)
  · exact BitVec.eq_of_toNat_eq (hr .mt)
  · exact BitVec.eq_of_toNat_eq (hr .chv)
  · exact BitVec.eq_of_toNat_eq (hr .hid)
  · exact BitVec.eq_of_toNat_eq (hr .fclass)
  · exact BitVec.eq_of_toNat_eq (hr .cause)

end Sys2Proof.Machine
end

