-- ==== Sys2Proof/Laws/Codec.lean ====
section
/-! SUPPORT. The laws of the codec's data operations: placing bytes in a buffer, byte order, packing of bits. -/

namespace Sys2Proof.Machine

/-! Placing bytes. -/

@[simp] theorem length_place (buf : List Byte) (off : Nat) (vs : List Byte) : (place buf off vs).length = buf.length := by
  induction buf generalizing off vs with
  | nil => rfl
  | cons b buf ih =>
    cases off with
    | zero => cases vs with
      | nil => rfl
      | cons v vs => simp [place, ih]
    | succ off => simp [place, ih]

/-- Inside the bytes placed the buffer holds them, outside it holds what it held. -/
theorem getD_place (buf : List Byte) (off : Nat) (vs : List Byte) (i : Nat) :
    (place buf off vs).getD i 0#8 =
      if i < buf.length ∧ off ≤ i ∧ i < off + vs.length then vs.getD (i - off) 0#8 else buf.getD i 0#8 := by
  induction buf generalizing off vs i with
  | nil => simp [place]
  | cons b buf ih =>
    cases off with
    | zero =>
      cases vs with
      | nil => simp [place]
      | cons v vs =>
        cases i with
        | zero => simp [place]
        | succ i =>
          have := ih 0 vs i
          simp only [place, List.getD_cons_succ, this, List.length_cons, Nat.zero_le, true_and, Nat.sub_zero, Nat.zero_add,
            Nat.succ_lt_succ_iff]
    | succ off =>
      cases i with
      | zero => simp [place]
      | succ i =>
        have := ih off vs i
        simp only [place, List.getD_cons_succ, this, List.length_cons]
        by_cases h : i < buf.length ∧ off ≤ i ∧ i < off + vs.length
        · rw [if_pos h, if_pos (by omega)]; congr 1; omega
        · rw [if_neg h, if_neg (by omega)]

/-- The placements of a list laid over a buffer, one after the other. -/
abbrev placeAll (buf : List Byte) (ps : List (Nat × List Byte)) : List Byte :=
  ps.foldl (fun buf p => place buf p.1 p.2) buf

/-- Two placements share no position. -/
abbrev placedApart (p q : Nat × List Byte) : Prop :=
  ∀ i, ¬ ((p.1 ≤ i ∧ i < p.1 + p.2.length) ∧ q.1 ≤ i ∧ i < q.1 + q.2.length)

@[simp] theorem length_placeAll (buf : List Byte) (ps : List (Nat × List Byte)) :
    (placeAll buf ps).length = buf.length := by
  induction ps generalizing buf with
  | nil => rfl
  | cons p ps ih => exact (ih _).trans (length_place _ _ _)

/-- Outside every placement the buffer keeps what it held. -/
theorem getD_placeAll_of_not {buf : List Byte} {ps : List (Nat × List Byte)} {i : Nat}
    (h : ∀ p ∈ ps, ¬ (p.1 ≤ i ∧ i < p.1 + p.2.length)) : (placeAll buf ps).getD i 0#8 = buf.getD i 0#8 := by
  induction ps generalizing buf with
  | nil => rfl
  | cons p ps ih =>
    have h1 := ih (buf := place buf p.1 p.2) fun q hq => h q (List.mem_cons_of_mem _ hq)
    have h2 := h p List.mem_cons_self
    refine h1.trans ?_
    rw [getD_place, if_neg fun hh => h2 hh.2]

/-- Inside a placement the buffer holds its bytes, when no two placements share a position: their order does not matter
(41_codec_encode.md R107). -/
theorem getD_placeAll_of_mem {buf : List Byte} {ps : List (Nat × List Byte)} (hps : ps.Pairwise placedApart)
    {p : Nat × List Byte} (hp : p ∈ ps) {i : Nat} (hi : i < p.2.length) (hb : p.1 + i < buf.length) :
    (placeAll buf ps).getD (p.1 + i) 0#8 = p.2.getD i 0#8 := by
  induction ps generalizing buf with
  | nil => simp at hp
  | cons q ps ih =>
    obtain ⟨hq, hps⟩ := List.pairwise_cons.mp hps
    rcases List.mem_cons.mp hp with rfl | hp
    · have : (placeAll buf (p :: ps)).getD (p.1 + i) 0#8 = (place buf p.1 p.2).getD (p.1 + i) 0#8 :=
        getD_placeAll_of_not (buf := place buf p.1 p.2) fun r hr hh =>
          hq r hr (p.1 + i) ⟨⟨by omega, by omega⟩, hh⟩
      rw [this, getD_place, if_pos ⟨hb, by omega, by omega⟩]
      congr 1; omega
    · exact ih (buf := place buf q.1 q.2) hps hp (by simpa using hb)

/-! Byte order. -/

@[simp] theorem length_bytesLE (w v : Nat) : (bytesLE w v).length = w := by
  induction w generalizing v with
  | zero => rfl
  | succ w ih => simp [bytesLE, ih]

@[simp] theorem length_bytesOf (e : Endian) (w v : Nat) : (bytesOf e w v).length = w := by
  cases e <;> simp [bytesOf]

/-- Element `i` of the little-endian bytes is `v[8i+7:8i]` (00_scope.md R14). -/
theorem getElem_bytesLE (w v i : Nat) (h : i < (bytesLE w v).length) :
    (bytesLE w v)[i] = BitVec.ofNat 8 (v / 256 ^ i) := by
  induction w generalizing v i with
  | zero => simp at h
  | succ w ih =>
    cases i with
    | zero => simp [bytesLE]
    | succ i =>
      have hi : i < (bytesLE w (v / 256)).length := by simp at h ⊢; omega
      simp only [bytesLE, List.getElem_cons_succ, ih _ _ hi, Nat.div_div_eq_div_mul, Nat.pow_succ']

theorem valLE_bytesLE (w v : Nat) : valLE (bytesLE w v) = v % 256 ^ w := by
  induction w generalizing v with
  | zero => simp [bytesLE, valLE, Nat.mod_one]
  | succ w ih =>
    simp only [bytesLE, valLE, ih, BitVec.toNat_ofNat]
    rw [Nat.pow_succ' (n := w) (m := 256), Nat.mod_mul (a := 256)]

theorem valLE_lt (l : List Byte) : valLE l < 256 ^ l.length := by
  induction l with
  | nil => simp [valLE]
  | cons b l ih =>
    have := b.isLt
    simp only [valLE, List.length_cons, Nat.pow_succ']
    omega

theorem bytesLE_valLE (l : List Byte) : bytesLE l.length (valLE l) = l := by
  induction l with
  | nil => rfl
  | cons b l ih =>
    have hb := b.isLt
    have h1 : (b.toNat + 256 * valLE l) / 256 = valLE l := by omega
    have h2 : BitVec.ofNat 8 (b.toNat + 256 * valLE l) = b := by
      apply BitVec.eq_of_toNat_eq; simp only [BitVec.toNat_ofNat]; omega
    simp only [List.length_cons, bytesLE, valLE, h1, h2, ih]

/-- `val_E` undoes `bytes_E` on a number that fits (R14, R82). -/
theorem valOf_bytesOf (e : Endian) {w v : Nat} (h : v < 2 ^ (8 * w)) : valOf e (bytesOf e w v) = v := by
  have hv : v % 256 ^ w = v := Nat.mod_eq_of_lt (by rwa [Nat.pow_mul] at h)
  cases e <;> simp [valOf, bytesOf, valLE_bytesLE, hv]

/-- `bytes_E` undoes `val_E`. -/
theorem bytesOf_valOf (e : Endian) (l : List Byte) : bytesOf e l.length (valOf e l) = l := by
  cases e
  · exact bytesLE_valLE l
  · have := bytesLE_valLE l.reverse
    rw [List.length_reverse] at this
    simp [bytesOf, valOf, this]

theorem valOf_lt (e : Endian) (l : List Byte) : valOf e l < 2 ^ (8 * l.length) := by
  rw [Nat.pow_mul]
  cases e
  · exact valLE_lt l
  · simpa [valOf] using valLE_lt l.reverse

/-! Filling up. -/

@[simp] theorem length_padTo (n : Nat) (l : List Byte) : (padTo n l).length = n := by
  simp only [padTo, List.length_append, List.length_take, List.length_replicate]; omega

theorem getElem_padTo (n : Nat) (l : List Byte) (i : Nat) (h : i < (padTo n l).length) :
    (padTo n l)[i] = l.getD i 0#8 := by
  have hn : i < n := by simpa using h
  simp only [padTo]
  by_cases hl : i < l.length
  · rw [List.getElem_append_left (by simp; omega)]
    rw [List.getElem_take, List.getD_eq_getElem _ _ hl]
  · rw [List.getElem_append_right (by simp; omega)]
    rw [List.getElem_replicate, List.getD_eq_default _ _ (by omega)]

theorem getD_padTo (n : Nat) (l : List Byte) {i : Nat} (h : i < n) : (padTo n l).getD i 0#8 = l.getD i 0#8 := by
  rw [List.getD_eq_getElem _ _ (by simpa using h), getElem_padTo]

/-! Bits. -/

@[simp] theorem cellBit_bitCell (b : Bool) : cellBit (bitCell b) = b := by cases b <;> rfl

theorem bitCell_lt (b : Bool) : (bitCell b).toNat < 2 := by cases b <;> decide

@[simp] theorem byteBits_bitsByte (a b c d e f g h : Bool) :
    byteBits (bitsByte a b c d e f g h) = [a, b, c, d, e, f, g, h] := by
  cases a <;> cases b <;> cases c <;> cases d <;> cases e <;> cases f <;> cases g <;> cases h <;> rfl

theorem bitsByte_byteBits (b : Byte) :
    bitsByte (b.getLsbD 7) (b.getLsbD 6) (b.getLsbD 5) (b.getLsbD 4) (b.getLsbD 3) (b.getLsbD 2) (b.getLsbD 1)
      (b.getLsbD 0) = b := by
  revert b; decide +kernel

@[simp] theorem length_unpackBits (l : List Byte) : (unpackBits l).length = 8 * l.length := by
  induction l with
  | nil => rfl
  | cons b l ih => simp only [unpackBits, byteBits, List.length_append, ih, List.length_cons, List.length_nil]; omega

theorem packBits_unpackBits (l : List Byte) : packBits (unpackBits l) = l := by
  induction l with
  | nil => rfl
  | cons b l ih => simp only [unpackBits, byteBits, List.cons_append, List.nil_append, packBits, bitsByte_byteBits, ih]

theorem length_packBits (n : Nat) (l : List Bool) (h : l.length = 8 * n) : (packBits l).length = n := by
  induction n generalizing l with
  | zero => simp_all [packBits]
  | succ n ih =>
    match l, h with
    | a :: b :: c :: d :: e :: f :: g :: k :: rest, h =>
      have := ih rest (by simp at h; omega)
      simp [packBits, this]

theorem unpackBits_packBits (n : Nat) (l : List Bool) (h : l.length = 8 * n) : unpackBits (packBits l) = l := by
  induction n generalizing l with
  | zero => simp_all [packBits, unpackBits]
  | succ n ih =>
    match l, h with
    | a :: b :: c :: d :: e :: f :: g :: k :: rest, h =>
      have := ih rest (by simp at h; omega)
      simp [packBits, unpackBits, this]

/-- Bit `8i + j` of the unpacked bytes is bit `7 - j` of byte `i` (20_memory.md R60). -/
theorem getElem_unpackBits (l : List Byte) (i j : Nat) (hi : i < l.length) (hj : j < 8) :
    (unpackBits l)[8 * i + j]'(by simp; omega) = l[i].getLsbD (7 - j) := by
  induction l generalizing i with
  | nil => simp at hi
  | cons b l ih =>
    cases i with
    | zero =>
      simp only [unpackBits, Nat.mul_zero, Nat.zero_add, List.getElem_cons_zero]
      rw [List.getElem_append_left (by simp [byteBits]; omega)]
      interval_cases j <;> rfl
    | succ i =>
      simp only [unpackBits, List.getElem_cons_succ]
      rw [List.getElem_append_right (by simp [byteBits]; omega)]
      rw [← ih i (by simpa using hi)]
      congr 1
      simp [byteBits]; omega

end Sys2Proof.Machine
end

