-- ==== Sys2Proof/Laws/Layouts.lean ====
section
/-! SUPPORT. What the well-formedness W1 to W7 of a layout gives (30_encoding.md R77), and the shape of a kind. -/

namespace Sys2Proof.Machine

theorem layoutOk_ref : layoutOk layoutRef = true := by decide +kernel

theorem layoutOk_T1 : layoutOk layoutT1 = true := by decide +kernel

/-- The layout in force is well-formed: an entry that is not counts as undefined (R77). -/
theorem layoutOk_of_layoutOf {p : Params} {id : BitVec 4} {L : Layout} (h : layoutOf p id = some L) :
    layoutOk L = true := by
  unfold layoutOf at h
  split at h
  · cases h; exact layoutOk_ref
  · split at h
    · split at h
      · cases h; assumption
      · cases h
    · cases h

theorem mem_presentKinds {L : Layout} {k : Kind} {K : KindForm} :
    (k, K) ∈ presentKinds L ↔ layoutKind L k = some K := by
  simp only [presentKinds, List.mem_filterMap, Option.map_eq_some_iff, Prod.mk.injEq]
  constructor
  · rintro ⟨k', -, K', hK, rfl, rfl⟩; exact hK
  · intro h
    exact ⟨k, by cases k <;> simp [kindsInOrder], K, h, rfl, rfl⟩

/-- What R77 says of a layout as a whole. -/
structure LayoutFacts (L : Layout) : Prop where
  one_le_cap : 1 ≤ L.cap
  cap_le : L.cap ≤ 256
  disc_fits : L.disc.off + L.disc.width ≤ L.cap
  discs_distinct : ((presentKinds L).map fun p => p.2.disc).Pairwise (· ≠ ·)

/-- What R77 says of a present kind of a layout. -/
structure KindFacts (L : Layout) (K : KindForm) : Prop where
  disc_lt : K.disc < 2 ^ (8 * L.disc.width)
  scalar_fits : ∀ rf ∈ K.scalars, rf.2.off + rf.2.width ≤ L.cap
  scalar_width : ∀ rf ∈ K.scalars, 8 * rf.2.width ≤ rf.1.width
  region_le : ∀ q ∈ K.payload, q.region.width ≤ 255
  region_fits : ∀ q ∈ K.payload, q.region.off + q.region.width ≤ L.cap
  region_lt : ∀ q ∈ K.payload, q.region.width < 2 ^ (8 * q.len.width)
  block_le : ∀ bf ∈ K.blocks, bf.2.width ≤ bf.1.size
  block_fits : ∀ bf ∈ K.blocks, bf.2.off + bf.2.width ≤ L.cap
  apart : (L.disc :: kindSlots K).Pairwise fun a b => slotsDisjoint a b = true

theorem layoutFacts {L : Layout} (h : layoutOk L = true) : LayoutFacts L := by
  simp only [layoutOk, layoutW1, layoutW2, layoutW7, slotFits, Bool.and_eq_true, decide_eq_true_eq] at h
  exact ⟨h.1.1.1.1.1.1.1, h.1.1.1.1.1.1.2, h.1.1.1.1.1.2.2, h.2.2⟩

theorem kindFacts {L : Layout} (h : layoutOk L = true) {k : Kind} {K : KindForm} (hK : layoutKind L k = some K) :
    KindFacts L K := by
  have hm := mem_presentKinds.mpr hK
  simp only [layoutOk, Bool.and_eq_true] at h
  obtain ⟨⟨⟨⟨⟨⟨-, -⟩, h3⟩, h4⟩, h5⟩, h6⟩, h7⟩ := h
  simp only [layoutW3, layoutW4, layoutW5, layoutW6, layoutW7, slotFits, List.all_eq_true, Bool.and_eq_true,
    decide_eq_true_eq, Option.mem_toList] at h3 h4 h5 h6 h7
  have h3 := h3 _ hm
  have h4 := h4 _ hm
  have h5 := h5 _ hm
  exact ⟨h7.1 _ hm, fun rf hrf => (h3 rf hrf).1.2, fun rf hrf => (h3 rf hrf).2, fun q hq => (h4 q hq).1.1,
    fun q hq => (h4 q hq).1.2, fun q hq => (h4 q hq).2, fun bf hbf => (h5 bf hbf).1, fun bf hbf => (h5 bf hbf).2,
    h6 _ hm⟩

/-- The kind a discriminator stands for: at most one by W7 (R81). -/
theorem recognise_eq_some {L : Layout} (h : layoutOk L = true) {d : Nat} {k : Kind} {K : KindForm} :
    recognise L d = some (k, K) ↔ layoutKind L k = some K ∧ K.disc = d := by
  rw [← mem_presentKinds]
  have hd := (layoutFacts h).discs_distinct
  unfold recognise
  constructor
  · intro hf
    exact ⟨List.mem_of_find?_eq_some hf, by simpa using List.find?_some hf⟩
  · rintro ⟨hm, rfl⟩
    generalize presentKinds L = ps at hm hd
    induction ps with
    | nil => simp at hm
    | cons p ps ih =>
      obtain ⟨hp, hps⟩ := List.pairwise_cons.mp hd
      rcases List.mem_cons.mp hm with rfl | hm
      · simp
      · have : p.2.disc ≠ K.disc := hp _ (List.mem_map.mpr ⟨_, hm, rfl⟩)
        rw [List.find?_cons_of_neg (by simpa using this)]
        exact ih hm hps

theorem recognise_eq_none {L : Layout} {d : Nat} :
    recognise L d = none ↔ ∀ k K, layoutKind L k = some K → K.disc ≠ d := by
  unfold recognise
  rw [List.find?_eq_none]
  constructor
  · intro h k K hK
    simpa using h (k, K) (mem_presentKinds.mpr hK)
  · rintro h ⟨k, K⟩ hm
    simpa using h k K (mem_presentKinds.mp hm)

/-- The shape every kind has: which registers its scalars are, which buffers its blocks, whether it has a payload (R74). -/
theorem kindShape {L : Layout} {k : Kind} {K : KindForm} (h : layoutKind L k = some K) :
    (K.scalars.map Prod.fst).Nodup ∧ (K.blocks.map Prod.fst).Nodup ∧
      (∀ r ∈ K.scalars.map Prod.fst, r ≠ .cfg ∧ r ≠ .status ∧ r ≠ .rlen ∧ r ≠ .kind ∧ r ≠ .mfpos ∧ r ≠ .hid ∧ r ≠ .cause) ∧
      (∀ b ∈ K.blocks.map Prod.fst, b = .cellcfg ∨ b = .tmrcfg) ∧
      (∀ q ∈ K.payload, (Reg.len, q.len) ∈ K.scalars) ∧ (K.payload = none → .len ∉ K.scalars.map Prod.fst) ∧
      (K.payload ≠ none → K.blocks = []) := by
  cases k <;> simp only [layoutKind, Option.map_eq_some_iff] at h <;> obtain ⟨f, -, rfl⟩ := h <;>
    simp [infoKindForm, raKindForm, rtsKindForm, dataKindForm, timeKindForm]

end Sys2Proof.Machine
end

