-- ==== Sys2Proof/Laws/Encode.lean ====
section
/-! SUPPORT. What ENC.k can do, said once, and what the record of a successful one holds (41_codec_encode.md R106, R107, R115). -/

namespace Sys2Proof.Machine

variable {s : State} {L : Layout} {K : KindForm}

/-- Everything ENC.k can do after its first act (R106, R107, 60_exceptions.md R174). -/
theorem State.encodeKind_cases (s : State) (k : Kind) :
    ((s.layoutInForce = none ∨ ∃ L, s.layoutInForce = some L ∧ layoutKind L k = none) ∧
      s.encodeKind k = s.raise .eLayout) ∨
    ∃ L K, s.layoutInForce = some L ∧ layoutOk L = true ∧ layoutKind L k = some K ∧
      ((s.boundsFail K = true ∧ s.encodeKind k = s.raise .eBounds) ∨
       (s.boundsFail K = false ∧ s.rangeFails K = true ∧ s.encodeKind k = s.raise .eRange) ∨
       (s.boundsFail K = false ∧ s.rangeFails K = false ∧ s.encodeKind k = s.commitRecord L K)) := by
  cases hL : s.layoutInForce with
  | none => exact .inl ⟨.inl rfl, by simp [State.encodeKind, hL]⟩
  | some L =>
    cases hK : layoutKind L k with
    | none => exact .inl ⟨.inr ⟨L, rfl, hK⟩, by simp [State.encodeKind, hL, hK]⟩
    | some K =>
      refine .inr ⟨L, K, rfl, layoutOk_of_layoutOf hL, hK, ?_⟩
      cases hb : s.boundsFail K
      · cases hr : s.rangeFails K <;> simp [State.encodeKind, State.encodeForm, hL, hK, hb, hr]
      · simp [State.encodeKind, State.encodeForm, hL, hK, hb]

/-- ENC.k under a layout in force that has the kind. -/
theorem State.encodeKind_eq (hL : s.layoutInForce = some L) {k : Kind} (hK : layoutKind L k = some K) :
    s.encodeKind k = s.encodeForm L K := by simp [State.encodeKind, hL, hK]

theorem State.boundsFail_eq_false : s.boundsFail K = false ↔ ∀ q ∈ K.payload, s.get .len ≤ q.region.width := by
  cases h : K.payload <;> simp [State.boundsFail, h]

theorem State.rangeFails_eq_false :
    s.rangeFails K = false ↔ ∀ rf ∈ K.scalars, s.get rf.1 < 2 ^ (8 * rf.2.width) := by
  simp [State.rangeFails]

@[simp] theorem State.length_memRead (b : Buffer) (off n : Nat) : (s.memRead b off n).length = n :=
  Memory.length_readBlock _ _ _

theorem State.getElem_memRead (b : Buffer) (off n i : Nat) (h : i < (s.memRead b off n).length) :
    (s.memRead b off n)[i] = s.bufByte b (off + i) := by
  simp only [State.memRead, Memory.getElem_readBlock, State.bufByte, Nat.add_assoc]

theorem State.getD_memRead (b : Buffer) (off n : Nat) {i : Nat} (h : i < n) :
    (s.memRead b off n).getD i 0#8 = s.bufByte b (off + i) := by
  rw [List.getD_eq_getElem _ _ (by simpa using h), State.getElem_memRead]

/-- The placements lie in the kind's byte ranges, one range each. -/
theorem State.placements_forall₂ (hb : s.boundsFail K = false) :
    List.Forall₂ (fun (p : Nat × List Byte) (f : Slot) => p.1 = f.off ∧ p.2.length ≤ f.width) (s.placements L K)
      (L.disc :: kindSlots K) := by
  refine List.Forall₂.cons ⟨rfl, by simp⟩ ?_
  refine List.rel_append (List.rel_append ?_ ?_) ?_
  · rw [List.forall₂_map_left_iff, List.forall₂_map_right_iff, List.forall₂_same]
    exact fun rf _ => ⟨rfl, by simp⟩
  · cases h : K.payload with
    | none => simp
    | some q =>
      have := State.boundsFail_eq_false.mp hb q (by simp [h])
      simpa using this
  · rw [List.forall₂_map_left_iff, List.forall₂_map_right_iff, List.forall₂_same]
    exact fun bf _ => ⟨rfl, by simp⟩

theorem exists_of_forall₂ {α β : Type} {Q : α → β → Prop} {l : List α} {m : List β} (h : List.Forall₂ Q l m)
    {a : α} (ha : a ∈ l) : ∃ y ∈ m, Q a y := by
  induction h with
  | nil => simp at ha
  | cons hcd h ih =>
    rcases List.mem_cons.mp ha with rfl | ha
    · exact ⟨_, List.mem_cons_self, hcd⟩
    · obtain ⟨y, hy, hq⟩ := ih ha
      exact ⟨y, List.mem_cons_of_mem _ hy, hq⟩

/-- A relation that holds of any two elements of one list passes to a list related to it element by element. -/
theorem pairwise_of_forall₂ {α β : Type} {Q : α → β → Prop} {R : α → α → Prop} {S : β → β → Prop} {l : List α}
    {m : List β} (h : List.Forall₂ Q l m) (hm : m.Pairwise S)
    (hi : ∀ a b x y, Q a x → Q b y → S x y → R a b) : l.Pairwise R := by
  induction h with
  | nil => exact .nil
  | cons hab h ih =>
    obtain ⟨h1, h2⟩ := List.pairwise_cons.mp hm
    refine List.pairwise_cons.mpr ⟨fun b hb => ?_, ih h2⟩
    obtain ⟨y, hy, hq⟩ := exists_of_forall₂ h hb
    exact hi _ _ _ _ hab hq (h1 y hy)

/-- No two placements share a byte, by W6 (R107). -/
theorem State.placements_apart (hK : KindFacts L K) (hb : s.boundsFail K = false) :
    (s.placements L K).Pairwise placedApart := by
  refine pairwise_of_forall₂ (State.placements_forall₂ hb) hK.apart ?_
  rintro p q x y ⟨h1, h2⟩ ⟨h3, h4⟩ hd i ⟨hp, hq⟩
  simp only [slotsDisjoint, decide_eq_true_eq] at hd
  omega

@[simp] theorem State.length_buildRecord : (s.buildRecord L K).length = L.cap := by
  unfold State.buildRecord
  rw [show (s.placements L K).foldl (fun buf p => place buf p.1 p.2) (List.replicate L.cap 0#8)
    = placeAll (List.replicate L.cap 0#8) (s.placements L K) from rfl, length_placeAll, List.length_replicate]

/-- A byte of the record inside a placement is the placed byte. -/
theorem State.getD_buildRecord (hK : KindFacts L K) (hb : s.boundsFail K = false) {p : Nat × List Byte}
    (hp : p ∈ s.placements L K) {i : Nat} (hi : i < p.2.length) (hc : p.1 + i < L.cap) :
    (s.buildRecord L K).getD (p.1 + i) 0#8 = p.2.getD i 0#8 :=
  getD_placeAll_of_mem (State.placements_apart hK hb) hp hi (by simpa using hc)

/-- A byte of the record outside every placement is 0 (30_encoding.md R83). -/
theorem State.getD_buildRecord_unused {i : Nat}
    (h : ∀ p ∈ s.placements L K, ¬ (p.1 ≤ i ∧ i < p.1 + p.2.length)) : (s.buildRecord L K).getD i 0#8 = 0#8 := by
  refine (getD_placeAll_of_not h).trans ?_
  by_cases hi : i < L.cap
  · simp [List.getD, hi]
  · simp [List.getD, hi]

/-! The committed state. -/

theorem State.mem_commitRecord :
    (s.commitRecord L K).mem = s.mem.writeBlock Buffer.record.base (s.buildRecord L K) := by
  simp [State.commitRecord]

/-- A byte of REC inside the record is the record's byte. -/
theorem State.bufByte_commitRecord {i : Nat} (h : i < L.cap) :
    (s.commitRecord L K).bufByte .record i = (s.buildRecord L K).getD i 0#8 := by
  have hl : i < (s.buildRecord L K).length := by simpa using h
  rw [State.bufByte, State.mem_commitRecord, Memory.read_writeBlock_of_mem _ _ _ hl, List.getD_eq_getElem _ _ hl]

/-- Every cell outside `REC[0..CAP-1]` keeps what it held (R115). -/
theorem State.read_commitRecord_of_not {a : Nat} (h : a < 0x100 ∨ 0x100 + L.cap ≤ a) :
    (s.commitRecord L K).mem.read a = s.mem.read a := by
  rw [State.mem_commitRecord, Memory.read_writeBlock_of_not]
  simpa [Buffer.base] using h

/-- The registers after a successful ENC.k: RLEN is CAP, STATUS is OK, the others keep what they held. -/
theorem State.get_commitRecord (hL : layoutOk L = true) (r : Reg) :
    (s.commitRecord L K).get r = if r = .status then 0 else if r = .rlen then L.cap else s.get r := by
  have hc := (layoutFacts hL).cap_le
  simp only [State.commitRecord, State.done, State.get_raise, State.get_set, State.get_memWrite]
  split
  · rfl
  · split
    · simp only [Reg.width]; omega
    · rfl

/-- The whole record of a successful ENC.k as it stands in REC. -/
theorem State.memRead_commitRecord_all : (s.commitRecord L K).memRead .record 0 L.cap = s.buildRecord L K := by
  have := Memory.readBlock_writeBlock_same s.mem Buffer.record.base (s.buildRecord L K)
  simpa [State.memRead, State.mem_commitRecord] using this

/-- What a placement holds reads back from REC. -/
theorem State.memRead_commitRecord (hK : KindFacts L K) (hb : s.boundsFail K = false) {p : Nat × List Byte}
    (hp : p ∈ s.placements L K) (hc : p.1 + p.2.length ≤ L.cap) :
    (s.commitRecord L K).memRead .record p.1 p.2.length = p.2 := by
  apply List.ext_getElem (by simp)
  intro i h1 h2
  rw [State.getElem_memRead, State.bufByte_commitRecord (by omega), State.getD_buildRecord hK hb hp h2 (by omega),
    List.getD_eq_getElem _ _ h2]

/-- The discriminator of the record reads back (R115 (b)). -/
theorem State.recField_disc_commitRecord (hL : layoutOk L = true) (hK : KindFacts L K) (hb : s.boundsFail K = false) :
    (s.commitRecord L K).recField L L.disc = K.disc := by
  have hf := (layoutFacts hL).disc_fits
  have := State.memRead_commitRecord (s := s) hK hb (p := (L.disc.off, bytesOf L.endian L.disc.width K.disc))
    (by simp [State.placements]) (by simpa using hf)
  rw [length_bytesOf] at this
  rw [State.recField, this, valOf_bytesOf _ hK.disc_lt]

/-- A scalar field of the record reads back as the register it was written from. -/
theorem State.recField_commitRecord (hK : KindFacts L K) (hb : s.boundsFail K = false)
    (hr : s.rangeFails K = false) {rf : Reg × Slot} (h : rf ∈ K.scalars) :
    (s.commitRecord L K).recField L rf.2 = s.get rf.1 := by
  have hf := hK.scalar_fits rf h
  have := State.memRead_commitRecord (s := s) hK hb (p := (rf.2.off, bytesOf L.endian rf.2.width (s.get rf.1)))
    (by simp only [State.placements, List.mem_cons, List.mem_append, List.mem_map]; exact .inr (.inl (.inl ⟨rf, h, rfl⟩)))
    (by simpa using hf)
  rw [length_bytesOf] at this
  rw [State.recField, this, valOf_bytesOf _ (State.rangeFails_eq_false.mp hr rf h)]

/-- The payload region's first LEN bytes read back as PAY's. -/
theorem State.memRead_payload_commitRecord (hK : KindFacts L K) (hb : s.boundsFail K = false) {q : Payload}
    (h : q ∈ K.payload) :
    (s.commitRecord L K).memRead .record q.region.off (s.get .len) = s.memRead .pay 0 (s.get .len) := by
  have hf := hK.region_fits q h
  have hn := State.boundsFail_eq_false.mp hb q h
  have := State.memRead_commitRecord (s := s) hK hb (p := (q.region.off, s.memRead .pay 0 (s.get .len)))
    (by simp only [State.placements, List.mem_cons, List.mem_append, List.mem_map]
        exact .inr (.inl (.inr ⟨q, by simpa using h, rfl⟩)))
    (by simp; omega)
  simpa using this

/-- A byte block of the record reads back as its buffer's first bytes. -/
theorem State.memRead_block_commitRecord (hK : KindFacts L K) (hb : s.boundsFail K = false) {bf : Buffer × Slot}
    (h : bf ∈ K.blocks) :
    (s.commitRecord L K).memRead .record bf.2.off bf.2.width = s.memRead bf.1 0 bf.2.width := by
  have hf := hK.block_fits bf h
  have := State.memRead_commitRecord (s := s) hK hb (p := (bf.2.off, s.memRead bf.1 0 bf.2.width))
    (by simp only [State.placements, List.mem_cons, List.mem_append, List.mem_map]; exact .inr (.inr ⟨bf, h, rfl⟩))
    (by simpa using hf)
  simpa using this

end Sys2Proof.Machine
end

