-- ==== Sys2Proof/Laws/Decode.lean ====
section
/-! SUPPORT. What DEC, PACK and UNPACK can do, each said once (42_codec_decode_frame.md R121, R122, R126, R127). -/

namespace Sys2Proof.Machine

variable {s : State} {L : Layout} {K : KindForm}

/-- Everything DEC can do after its first act, in the order of its tests (R121). -/
theorem State.decodeRecord_cases (s : State) :
    (s.layoutInForce = none ∧ s.decodeRecord = s.decFail .eLayout) ∨
    ∃ L, s.layoutInForce = some L ∧ layoutOk L = true ∧
      ((s.get .rlen ≠ L.cap ∧ s.decodeRecord = s.decFail .eLength) ∨
       (s.get .rlen = L.cap ∧ (∀ k K, layoutKind L k = some K → K.disc ≠ s.recField L L.disc) ∧
         s.decodeRecord = s.decFail .noValue) ∨
       ∃ k K, s.get .rlen = L.cap ∧ layoutKind L k = some K ∧ K.disc = s.recField L L.disc ∧
         ((s.wireLenTooLong L K = true ∧ s.decodeRecord = s.decFail .eBounds) ∨
          (s.wireLenTooLong L K = false ∧ s.decodeRecord = s.decAccept L k K))) := by
  cases hL : s.layoutInForce with
  | none => exact .inl ⟨rfl, by simp [State.decodeRecord, hL]⟩
  | some L =>
    have hok := layoutOk_of_layoutOf hL
    refine .inr ⟨L, rfl, hok, ?_⟩
    by_cases hlen : s.get .rlen = L.cap
    · cases hr : recognise L (s.recField L L.disc) with
      | none =>
        refine .inr (.inl ⟨hlen, recognise_eq_none.mp hr, ?_⟩)
        simp [State.decodeRecord, State.decodeWith, hL, hlen, hr]
      | some kK =>
        obtain ⟨k, K⟩ := kK
        obtain ⟨hK, hd⟩ := (recognise_eq_some hok).mp hr
        refine .inr (.inr ⟨k, K, hlen, hK, hd, ?_⟩)
        cases hw : s.wireLenTooLong L K <;> simp [State.decodeRecord, State.decodeWith, hL, hlen, hr, hw]
    · exact .inl ⟨hlen, by simp [State.decodeRecord, State.decodeWith, hL, hlen]⟩

/-- A DEC of a record of kind `k` whose tests pass. -/
theorem State.decodeRecord_accept (hL : s.layoutInForce = some L) (hlen : s.get .rlen = L.cap) {k : Kind}
    (hK : layoutKind L k = some K) (hd : s.recField L L.disc = K.disc) (hw : s.wireLenTooLong L K = false) :
    s.decodeRecord = s.decAccept L k K := by
  have hr := (recognise_eq_some (layoutOk_of_layoutOf hL)).mpr ⟨hK, hd.symm⟩
  simp [State.decodeRecord, State.decodeWith, hL, hlen, hr, hw]

theorem State.wireLenTooLong_eq_false :
    s.wireLenTooLong L K = false ↔ ∀ q ∈ K.payload, s.recField L q.len ≤ q.region.width := by
  cases h : K.payload <;> simp [State.wireLenTooLong, h]

/-- A decoded field is a number of its width (30_encoding.md R82). -/
theorem State.recField_lt (s : State) (L : Layout) (f : Slot) : s.recField L f < 2 ^ (8 * f.width) := by
  have := valOf_lt L.endian (s.memRead .record f.off f.width)
  rwa [State.length_memRead] at this

/-! Writing the scalars. -/

theorem State.get_writeScalars_of_not {vals : List (Reg × Nat)} {r : Reg} (h : r ∉ vals.map Prod.fst) :
    (s.writeScalars vals).get r = s.get r := by
  unfold State.writeScalars
  induction vals generalizing s with
  | nil => rfl
  | cons p vals ih =>
    simp only [List.map_cons, List.mem_cons, not_or] at h
    exact (ih (s := s.set p.1 p.2) h.2).trans (State.get_set_of_ne s h.1 p.2)

theorem State.get_writeScalars_of_mem {vals : List (Reg × Nat)} (hn : (vals.map Prod.fst).Nodup) {r : Reg} {v : Nat}
    (h : (r, v) ∈ vals) : (s.writeScalars vals).get r = v % 2 ^ r.width := by
  unfold State.writeScalars
  induction vals generalizing s with
  | nil => simp at h
  | cons p vals ih =>
    obtain ⟨hp, hn⟩ := List.nodup_cons.mp hn
    rcases List.mem_cons.mp h with rfl | h
    · exact (State.get_writeScalars_of_not (s := s.set r v) hp).trans (State.get_set_same s r v)
    · exact ih (s := s.set p.1 p.2) hn h

/-- The fields that are no register cell stay when scalars are written. -/
theorem State.writeScalars_frame (s : State) (vals : List (Reg × Nat)) :
    (s.writeScalars vals).mem = s.mem ∧ (s.writeScalars vals).cp = s.cp ∧ (s.writeScalars vals).ev = s.ev ∧
      (s.writeScalars vals).params = s.params ∧ (s.writeScalars vals).pending = s.pending ∧
      (s.writeScalars vals).replies = s.replies := by
  unfold State.writeScalars
  induction vals generalizing s with
  | nil => exact ⟨rfl, rfl, rfl, rfl, rfl, rfl⟩
  | cons p vals ih => simpa using ih (s.set p.1 p.2)

/-! Writing whole buffers. -/

/-- After a whole buffer is written, its cells hold the given bytes and then 0; every other cell what it held. -/
theorem State.read_writeWhole (b : Buffer) (l : List Byte) (a : Nat) :
    (s.writeWhole b l).mem.read a =
      if b.base ≤ a ∧ a < b.base + b.size then l.getD (a - b.base) 0#8 else s.mem.read a := by
  rw [State.writeWhole, State.memWrite_mem, Memory.read_writeBlock, Nat.add_zero, length_padTo]
  split
  · exact getD_padTo _ _ (by omega)
  · rfl

/-- The buffers' address ranges do not meet (20_memory.md R51). -/
theorem buffers_apart {b c : Buffer} {a : Nat} (h : b ≠ c) (hb : b.base ≤ a ∧ a < b.base + b.size) :
    ¬ (c.base ≤ a ∧ a < c.base + c.size) := by
  cases b <;> cases c <;> simp_all [Buffer.base, Buffer.size] <;> omega

theorem State.read_writeBlocks_of_not {blocks : List (Buffer × List Byte)} {a : Nat}
    (h : ∀ bv ∈ blocks, ¬ (bv.1.base ≤ a ∧ a < bv.1.base + bv.1.size)) :
    (s.writeBlocks blocks).mem.read a = s.mem.read a := by
  unfold State.writeBlocks
  induction blocks generalizing s with
  | nil => rfl
  | cons p blocks ih =>
    refine (ih (s := s.writeWhole p.1 p.2) fun q hq => h q (List.mem_cons_of_mem _ hq)).trans ?_
    rw [State.read_writeWhole, if_neg (h p List.mem_cons_self)]

theorem State.bufByte_writeBlocks {blocks : List (Buffer × List Byte)} (hn : (blocks.map Prod.fst).Nodup)
    {b : Buffer} {l : List Byte} (h : (b, l) ∈ blocks) {i : Nat} (hi : i < b.size) :
    (s.writeBlocks blocks).bufByte b i = l.getD i 0#8 := by
  unfold State.writeBlocks State.bufByte
  induction blocks generalizing s with
  | nil => simp at h
  | cons p blocks ih =>
    obtain ⟨hp, hn⟩ := List.nodup_cons.mp hn
    rcases List.mem_cons.mp h with rfl | h
    · refine (State.read_writeBlocks_of_not (s := s.writeWhole b l) (blocks := blocks) fun bv hbv => ?_).trans ?_
      · exact buffers_apart (b := b) (fun he => hp (List.mem_map.mpr ⟨bv, hbv, he.symm⟩)) ⟨by omega, by omega⟩
      · rw [State.read_writeWhole, if_pos ⟨by omega, by omega⟩, Nat.add_sub_cancel_left]
    · exact ih (s := s.writeWhole p.1 p.2) hn h

@[simp] theorem State.get_writeBlocks (blocks : List (Buffer × List Byte)) (r : Reg) :
    (s.writeBlocks blocks).get r = s.get r := by
  unfold State.writeBlocks
  induction blocks generalizing s with
  | nil => rfl
  | cons p blocks ih => exact (ih (s := s.writeWhole p.1 p.2)).trans (State.get_memWrite _ _ _ _ _)

/-- Every field but the memory stays when buffers are written. -/
theorem State.writeBlocks_frame (s : State) (blocks : List (Buffer × List Byte)) :
    (s.writeBlocks blocks).cp = s.cp ∧ (s.writeBlocks blocks).ev = s.ev ∧ (s.writeBlocks blocks).params = s.params ∧
      (s.writeBlocks blocks).pending = s.pending ∧ (s.writeBlocks blocks).replies = s.replies := by
  unfold State.writeBlocks
  induction blocks generalizing s with
  | nil => exact ⟨rfl, rfl, rfl, rfl, rfl⟩
  | cons p blocks ih => exact ih (s.writeWhole p.1 p.2)

/-! A successful DEC. -/

theorem recScalars_keys (s : State) (L : Layout) (K : KindForm) :
    (s.recScalars L K).map Prod.fst = K.scalars.map Prod.fst := by
  simp [State.recScalars]

theorem recBlocks_keys (s : State) (L : Layout) (K : KindForm) :
    (s.recBlocks L K).map Prod.fst = K.payload.toList.map (fun _ => Buffer.pay) ++ K.blocks.map Prod.fst := by
  simp only [State.recBlocks, List.map_append, List.map_map]
  rfl

theorem recBlocks_nodup {k : Kind} (h : layoutKind L k = some K) : ((s.recBlocks L K).map Prod.fst).Nodup := by
  obtain ⟨-, hb, -, hc, -, -, -⟩ := kindShape h
  rw [recBlocks_keys]
  cases hp : K.payload with
  | none => simpa using hb
  | some q =>
    refine List.nodup_cons.mpr ⟨fun hm => ?_, hb⟩
    rcases hc _ hm with h | h <;> exact absurd h (by simp)

/-- The record's fields do not depend on the register KIND. -/
@[simp] theorem State.recField_set (r : Reg) (v : Nat) (f : Slot) : (s.set r v).recField L f = s.recField L f := by
  simp [State.recField, State.memRead]

/-- A register a successful DEC of kind `k` decodes holds the field's number (R122). -/
theorem State.get_decAccept_of_mem (hF : KindFacts L K) {k : Kind} (hK : layoutKind L k = some K) {rf : Reg × Slot}
    (h : rf ∈ K.scalars) : (s.decAccept L k K).get rf.1 = s.recField L rf.2 := by
  obtain ⟨hn, -, hne, -, -, -, -⟩ := kindShape hK
  have hst : rf.1 ≠ .status := (hne rf.1 (List.mem_map.mpr ⟨rf, h, rfl⟩)).2.1
  rw [State.decAccept, State.get_done_of_ne _ hst, State.copyFields, State.get_writeBlocks,
    State.get_writeScalars_of_mem (v := s.recField L rf.2) (by rwa [recScalars_keys])
      (by simp only [State.recScalars, State.recField_set, List.mem_map]; exact ⟨rf, h, rfl⟩)]
  refine Nat.mod_eq_of_lt (lt_of_lt_of_le (State.recField_lt s L rf.2) ?_)
  exact Nat.pow_le_pow_right (by omega) (hF.scalar_width rf h)

/-- Every register but KIND, STATUS and the kind's fields keeps its value (R122). -/
theorem State.get_decAccept_of_not {k : Kind} {r : Reg} (h : r ∉ K.scalars.map Prod.fst)
    (hk : r ≠ .kind) (hs : r ≠ .status) : (s.decAccept L k K).get r = s.get r := by
  rw [State.decAccept, State.get_done_of_ne _ hs, State.copyFields, State.get_writeBlocks,
    State.get_writeScalars_of_not (by rwa [recScalars_keys]), State.get_set_of_ne _ hk]

theorem State.get_decAccept_kind {k : Kind} (hK : layoutKind L k = some K) :
    (s.decAccept L k K).get .kind = kindCode k := by
  obtain ⟨-, -, hne, -, -, -, -⟩ := kindShape hK
  rw [State.decAccept, State.get_done_of_ne _ (by decide), State.copyFields, State.get_writeBlocks,
    State.get_writeScalars_of_not (by rw [recScalars_keys]; exact fun h => (hne _ h).2.2.2.1 rfl), State.get_set_same]
  cases k <;> rfl

@[simp] theorem State.get_decAccept_status (s : State) (L : Layout) (k : Kind) (K : KindForm) :
    (s.decAccept L k K).get .status = 0 := rfl

/-- The buffers a successful DEC writes: the payload of a data kind, the blocks of the info kind, 0 beyond (R122). -/
theorem State.bufByte_decAccept {k : Kind} (hK : layoutKind L k = some K) {b : Buffer} {l : List Byte}
    (h : (b, l) ∈ s.recBlocks L K) {i : Nat} (hi : i < b.size) : (s.decAccept L k K).bufByte b i = l.getD i 0#8 := by
  have h' : (b, l) ∈ (s.set .kind (kindCode k)).recBlocks L K := by
    simpa [State.recBlocks, State.memRead] using h
  exact State.bufByte_writeBlocks (recBlocks_nodup hK) h' hi

/-- Every cell outside the buffers a successful DEC writes keeps what it held. -/
theorem State.read_decAccept_of_not {k : Kind} {a : Nat}
    (h : ∀ b ∈ (s.recBlocks L K).map Prod.fst, ¬ (b.base ≤ a ∧ a < b.base + b.size)) :
    (s.decAccept L k K).mem.read a = s.mem.read a := by
  have := State.read_writeBlocks_of_not (s := (s.set .kind (kindCode k)).writeScalars
    ((s.set .kind (kindCode k)).recScalars L K)) (blocks := (s.set .kind (kindCode k)).recBlocks L K) (a := a)
    fun bv hbv => h bv.1 (by
      rw [recBlocks_keys, ← recBlocks_keys (s.set .kind (kindCode k))]
      exact List.mem_map.mpr ⟨bv, hbv, rfl⟩)
  simpa [State.decAccept, State.copyFields, (State.writeScalars_frame _ _).1] using this

theorem State.decAccept_frame (s : State) (L : Layout) (k : Kind) (K : KindForm) :
    (s.decAccept L k K).cp = s.cp ∧ (s.decAccept L k K).ev = s.ev ∧ (s.decAccept L k K).params = s.params ∧
      (s.decAccept L k K).pending = s.pending ∧ (s.decAccept L k K).replies = s.replies := by
  have h1 := State.writeBlocks_frame ((s.set .kind (kindCode k)).writeScalars
    ((s.set .kind (kindCode k)).recScalars L K)) ((s.set .kind (kindCode k)).recBlocks L K)
  have h2 := State.writeScalars_frame (s.set .kind (kindCode k)) ((s.set .kind (kindCode k)).recScalars L K)
  simp only [State.decAccept, State.copyFields, State.done_cp, State.done_ev, State.done_params, State.done_pending,
    State.done_replies, h1, h2, State.set_cp, State.set_ev, State.set_params, State.set_pending, State.set_replies,
    and_self]

/-! PACK and UNPACK. -/

/-- Everything PACK can do after its first act (R126). -/
theorem State.packFrame_cases (s : State) :
    ((s.get .fbits % 8 ≠ 0 ∨ 2040 < s.get .fbits) ∧ s.packFrame = s.raise .eFrame) ∨
    (s.get .fbits % 8 = 0 ∧ s.get .fbits ≤ 2040 ∧
      s.packFrame = ((s.writeWhole .pay (packBits (s.frameBits (s.get .fbits)))).set .len (s.get .fbits / 8)).done) := by
  by_cases h : s.get .fbits % 8 ≠ 0 ∨ 2040 < s.get .fbits
  · exact .inl ⟨h, by simp [State.packFrame, h]⟩
  · exact .inr ⟨by omega, by omega, by simp [State.packFrame, h]⟩

/-- Everything UNPACK can do after its first act (R127). -/
theorem State.unpackFrame_cases (s : State) :
    (255 < s.get .len ∧ s.unpackFrame = s.raise .eFrame) ∨
    (s.get .len ≤ 255 ∧
      s.unpackFrame = ((s.writeFrame (unpackBits (s.memRead .pay 0 (s.get .len)))).set .fbits (8 * s.get .len)).done) := by
  by_cases h : 255 < s.get .len
  · exact .inl ⟨h, by simp [State.unpackFrame, h]⟩
  · exact .inr ⟨by omega, by simp [State.unpackFrame, h]⟩

@[simp] theorem State.length_frameBits (n : Nat) : (s.frameBits n).length = n := by simp [State.frameBits]

theorem State.getElem_frameBits (n i : Nat) (h : i < (s.frameBits n).length) :
    (s.frameBits n)[i] = cellBit (s.bufByte .frm i) := by
  simp [State.frameBits, State.getElem_memRead]

/-- The frame just written reads back, for a frame no longer than FRM. -/
theorem State.frameBits_writeFrame (bits : List Bool) (h : bits.length ≤ 2040) :
    (s.writeFrame bits).frameBits bits.length = bits := by
  apply List.ext_getElem (by simp)
  intro i h1 h2
  have hm : i < (bits.map bitCell).length := by simpa using h2
  rw [State.getElem_frameBits, State.writeFrame, State.bufByte, State.memWrite_mem, Nat.add_zero,
    Memory.read_writeBlock_of_mem _ _ _ (by simp [Buffer.size]; omega), getElem_padTo, List.getD_eq_getElem _ _ hm,
    List.getElem_map, cellBit_bitCell]

theorem State.writeFrame_eq (bits : List Bool) : s.writeFrame bits = s.writeWhole .frm (bits.map bitCell) := rfl

/-- After a frame is written, each cell of FRM holds its bit, or 0 beyond the frame; every other cell what it held. -/
theorem State.read_writeFrame (bits : List Bool) (a : Nat) :
    (s.writeFrame bits).mem.read a =
      if Buffer.frm.base ≤ a ∧ a < Buffer.frm.base + Buffer.frm.size then
        bitCell (bits.getD (a - Buffer.frm.base) false) else s.mem.read a := by
  rw [State.writeFrame_eq, State.read_writeWhole, show (0#8 : Byte) = bitCell false from rfl, List.getD_map]

end Sys2Proof.Machine
end

