-- ==== Sys2Proof/Laws/Exec.lean ====
section
/-! SUPPORT. The next state of each command in terms of the shared operations, and everything ROUTE and CAUSE can do. -/

namespace Sys2Proof.Machine

variable (s : State)

@[simp] theorem exec_nop : exec .nop s = .next s.start.done := rfl

@[simp] theorem exec_clr : exec .clr s = .next s.start.clearCells.done := rfl

/-- ENC.k for every kind (41_codec_encode.md R106 to R113). -/
@[simp] theorem exec_encCommand (k : Kind) : exec (encCommand k) s = .next (s.start.encodeKind k) := by cases k <;> rfl

@[simp] theorem exec_encInfo : exec .encInfo s = .next (s.start.encodeKind .infoInd) := rfl

@[simp] theorem exec_encRa : exec .encRa s = .next (s.start.encodeKind .raInd) := rfl

@[simp] theorem exec_encRts : exec .encRts s = .next (s.start.encodeKind .rtsInd) := rfl

@[simp] theorem exec_encDind : exec .encDind s = .next (s.start.encodeKind .dataInd) := rfl

@[simp] theorem exec_encDreq : exec .encDreq s = .next (s.start.encodeKind .dataReq) := rfl

@[simp] theorem exec_encTime : exec .encTime s = .next (s.start.encodeKind .timeInd) := rfl

@[simp] theorem exec_dec : exec .dec s = .next s.start.decodeRecord := rfl

@[simp] theorem exec_pack : exec .pack s = .next s.start.packFrame := rfl

@[simp] theorem exec_unpack : exec .unpack s = .next s.start.unpackFrame := rfl

@[simp] theorem exec_blknum : exec .blknum s =
    .next ((s.start.set .mfpos (s.get .fn % mf)).set .bn (blockNumber s.params.nblk (s.get .fn))).done := rfl

@[simp] theorem exec_mfpos52 : exec .mfpos52 s = .next (s.start.set .mfpos (s.get .fn % mf)).done := rfl

@[simp] theorem exec_mfpos51 : exec .mfpos51 s = .next (s.start.set .mfpos (s.get .fn % mf51)).done := rfl

/-- Everything ROUTE can do (44_router.md R153). -/
theorem exec_route_cases :
    (routeMessage s.params s.pd s.mt s.chv = .unsupportedProtocol ∧
      exec .route s = .next ((s.start.set .hid 0).raise .unsupportedProtocol)) ∨
    (routeMessage s.params s.pd s.mt s.chv = .unsupportedMessage ∧
      exec .route s = .next ((s.start.set .hid 0).raise .unsupportedMessage)) ∨
    ∃ h, routeMessage s.params s.pd s.mt s.chv = .handler h ∧
      exec .route s = .next (((s.start.set .hid (handlerId h)).emit h).done) := by
  rw [show exec .route s = execRoute s from rfl]
  cases h : routeMessage s.params s.pd s.mt s.chv <;> simp [execRoute, h]

/-- Everything CAUSE can do (44_router.md R157). -/
theorem exec_cause_cases :
    (failureClass (s.get .fclass) = none ∧ exec .cause s = .next (s.start.raise .eArg)) ∨
    ∃ c, failureClass (s.get .fclass) = some c ∧ exec .cause s = .next (s.start.set .cause (causeCode c)).done := by
  rw [show exec .cause s = execCause s from rfl]
  cases h : failureClass (s.get .fclass) <;> simp [execCause, h]

/-- A handler id is one of 1 to 5 (44_router.md R151). -/
theorem handlerId_bounds (h : Handler) : 1 ≤ handlerId h ∧ handlerId h ≤ 5 := by cases h <;> decide

/-! What the shared operations leave alone whatever their outcome. -/

variable {s}

/-- What no operation of a command after its first act changes, but for ROUTE's event. -/
abbrev keepsHostSide (s t : State) : Prop :=
  t.cp = s.cp ∧ t.ev = s.ev ∧ t.layout = s.layout ∧ t.params = s.params ∧ t.pending = s.pending ∧ t.replies = s.replies

theorem State.set_layout_of_ne {r : Reg} (h : r ≠ .cfg) (v : Nat) : (s.set r v).layout = s.layout := by
  cases r <;> first | rfl | exact absurd rfl h

theorem State.set_keepsHostSide {r : Reg} (h : r ≠ .cfg) (v : Nat) : keepsHostSide s (s.set r v) :=
  ⟨by simp, by simp, State.set_layout_of_ne h v, by simp, by simp, by simp⟩

theorem State.encodeKind_keepsHostSide (s : State) (k : Kind) : keepsHostSide s (s.encodeKind k) := by
  obtain ⟨-, h⟩ | ⟨L, K, -, -, -, ⟨-, h⟩ | ⟨-, -, h⟩ | ⟨-, -, h⟩⟩ := s.encodeKind_cases k <;> rw [h]
  · exact ⟨rfl, rfl, rfl, rfl, rfl, rfl⟩
  · exact ⟨rfl, rfl, rfl, rfl, rfl, rfl⟩
  · exact ⟨rfl, rfl, rfl, rfl, rfl, rfl⟩
  · exact ⟨rfl, rfl, rfl, rfl, rfl, rfl⟩

theorem State.decFail_keepsHostSide (s : State) (c : StatusCode) : keepsHostSide s (s.decFail c) := ⟨rfl, rfl, rfl, rfl, rfl, rfl⟩

theorem State.decAccept_keepsHostSide (s : State) {L : Layout} {k : Kind} {K : KindForm} (hK : layoutKind L k = some K) :
    keepsHostSide s (s.decAccept L k K) := by
  obtain ⟨h1, h2, h3, h4, h5⟩ := State.decAccept_frame s L k K
  refine ⟨h1, h2, ?_, h3, h4, h5⟩
  apply BitVec.eq_of_toNat_eq
  exact State.get_decAccept_of_not (r := .cfg) (fun h => ((kindShape hK).2.2.1 _ h).1 rfl) (by decide) (by decide)

theorem State.decodeRecord_keepsHostSide (s : State) : keepsHostSide s s.decodeRecord := by
  obtain ⟨-, h⟩ | ⟨L, -, -, ⟨-, h⟩ | ⟨-, -, h⟩ | ⟨k, K, -, hK, -, ⟨-, h⟩ | ⟨-, h⟩⟩⟩ := s.decodeRecord_cases <;> rw [h]
  · exact s.decFail_keepsHostSide _
  · exact s.decFail_keepsHostSide _
  · exact s.decFail_keepsHostSide _
  · exact s.decFail_keepsHostSide _
  · exact s.decAccept_keepsHostSide hK

theorem State.packFrame_keepsHostSide (s : State) : keepsHostSide s s.packFrame := by
  obtain ⟨-, h⟩ | ⟨-, -, h⟩ := s.packFrame_cases <;> rw [h] <;> exact ⟨rfl, rfl, rfl, rfl, rfl, rfl⟩

theorem State.unpackFrame_keepsHostSide (s : State) : keepsHostSide s s.unpackFrame := by
  obtain ⟨-, h⟩ | ⟨-, h⟩ := s.unpackFrame_cases <;> rw [h] <;> exact ⟨rfl, rfl, rfl, rfl, rfl, rfl⟩

end Sys2Proof.Machine
end

