-- ==== Sys2Proof/Laws/PerInstr.lean ====
section
/-! SUPPORT. A property of every command as syntax: the fields its word carries are well-formed (30_encoding.md R70 to R73),
one lemma per command. -/

namespace Sys2Proof.Laws.EncodedFields

/-- The encoded word of a command has the fields of a command: none of the four reasons of R73 applies to it. -/
def Statement (i : Instr) : Prop := (fieldsOf (encode i)).wf = true

theorem nop : Statement .nop := by unfold Statement; decide

theorem clr : Statement .clr := by unfold Statement; decide

theorem encInfo : Statement .encInfo := by unfold Statement; decide

theorem encRa : Statement .encRa := by unfold Statement; decide

theorem encRts : Statement .encRts := by unfold Statement; decide

theorem encDind : Statement .encDind := by unfold Statement; decide

theorem encDreq : Statement .encDreq := by unfold Statement; decide

theorem encTime : Statement .encTime := by unfold Statement; decide

theorem dec : Statement .dec := by unfold Statement; decide

theorem pack : Statement .pack := by unfold Statement; decide

theorem unpack : Statement .unpack := by unfold Statement; decide

theorem blknum : Statement .blknum := by unfold Statement; decide

theorem mfpos52 : Statement .mfpos52 := by unfold Statement; decide

theorem mfpos51 : Statement .mfpos51 := by unfold Statement; decide

theorem route : Statement .route := by unfold Statement; decide

theorem cause : Statement .cause := by unfold Statement; decide

end Sys2Proof.Laws.EncodedFields
end

