-- ==== Sys2Proof/Laws/Port.lean ====
section
/-! SUPPORT. The host port: the address map read cell by cell, and everything a step and a host write can do. -/

namespace Sys2Proof.Machine

variable {s : State}

theorem cellAt_cmd : cellAt 0x001#12 = some .cmd := rfl

/-- The address of a register is mapped to that register (20_memory.md R51). -/
@[simp] theorem cellAt_reg (r : Reg) : cellAt (BitVec.ofNat 12 r.addr) = some (.reg r) := by cases r <;> decide

/-- Which buffer's range holds a cell number: the ranges do not meet (20_memory.md R51). -/
theorem bufferAt_eq_some {n : Nat} {b : Buffer} : bufferAt n = some b ↔ b.base ≤ n ∧ n < b.base + b.size := by
  constructor
  · intro h
    simpa using List.find?_some h
  · intro h
    cases hc : bufferAt n with
    | none =>
      have := List.find?_eq_none.mp hc b (by cases b <;> simp [Buffer.all])
      exact absurd h (by simpa using this)
    | some c =>
      have hh : c.base ≤ n ∧ n < c.base + c.size := by simpa using List.find?_some hc
      by_cases he : b = c
      · rw [he]
      · exact absurd hh (buffers_apart he h)

theorem Buffer.base_bounds (b : Buffer) : 0x100 ≤ b.base ∧ b.base + b.size ≤ 0xFF8 := by cases b <;> decide

theorem Reg.addr_lt (r : Reg) : r.addr < 0x014 := by cases r <;> decide

/-- A register is the one its address finds. -/
theorem Reg.find_addr {n : Nat} {r : Reg} :
    Reg.all.find? (fun q => decide (q.addr = n)) = some r ↔ r.addr = n := by
  constructor
  · intro h
    simpa using List.find?_some h
  · rintro rfl
    cases r <;> decide

/-- The address of a buffer cell is mapped to that cell (20_memory.md R51). -/
@[simp] theorem cellAt_buf {b : Buffer} {i : Nat} (h : i < b.size) :
    cellAt (BitVec.ofNat 12 (b.base + i)) = some (.buf b i) := by
  obtain ⟨h1, h2⟩ := b.base_bounds
  have hn : (BitVec.ofNat 12 (b.base + i)).toNat = b.base + i := by simp; omega
  have hc : BitVec.ofNat 12 (b.base + i) ≠ cmdAddr := fun hh => by
    have := congrArg BitVec.toNat hh
    rw [hn] at this
    simp [cmdAddr] at this; omega
  have hr : Reg.all.find? (fun r => decide (r.addr = b.base + i)) = none := by
    rw [List.find?_eq_none]
    intro r _
    have := r.addr_lt
    simp; omega
  have hb : bufferAt (b.base + i) = some b := bufferAt_eq_some.mpr ⟨by omega, by omega⟩
  simp [cellAt, hc, hn, hr, hb]

/-- Everything a mapped address can be (20_memory.md R51). -/
theorem cellAt_cases {a : CellAddr} {c : CellId} (h : cellAt a = some c) :
    (a = cmdAddr ∧ c = .cmd) ∨ (∃ r : Reg, r.addr = a.toNat ∧ c = .reg r) ∨
      ∃ (b : Buffer) (i : Nat), i < b.size ∧ a.toNat = b.base + i ∧ c = .buf b i := by
  unfold cellAt at h
  split at h
  · exact .inl ⟨‹_›, (Option.some.inj h).symm⟩
  · split at h
    · rename_i r hr
      exact .inr (.inl ⟨r, Reg.find_addr.mp hr, (Option.some.inj h).symm⟩)
    · obtain ⟨b, hb, rfl⟩ := Option.map_eq_some_iff.mp h
      have := bufferAt_eq_some.mp hb
      exact .inr (.inr ⟨b, a.toNat - b.base, by omega, by omega, rfl⟩)

/-- An event taken from the list is the whole of the step. -/
theorem step_cons {e : PortEvent} {rest : List PortEvent} (h : s.pending = e :: rest) :
    step s = portEvent e (s.withPending rest) := by simp [step, portStep, h]

/-- Everything a host write can do (20_memory.md R53 to R56). -/
theorem hostWrite_cases (a : CellAddr) (v : PortWord) (s : State) :
    (cellAt a = some .cmd ∧ hostWrite a v s = command v (s.answer (.write .okay))) ∨
    (∃ r, cellAt a = some (.reg r) ∧ r.access = .rw ∧
      hostWrite a v s = .next ((s.set r v.toNat).answer (.write .okay))) ∨
    (∃ b i, cellAt a = some (.buf b i) ∧ hostWrite a v s = .next ((s.writeBufCell b i v).answer (.write .okay))) ∨
    ((cellAt a = none ∨ ∃ r, cellAt a = some (.reg r) ∧ r.access = .ro) ∧
      hostWrite a v s = .next (s.answer (.write .slverr))) := by
  unfold hostWrite
  cases h : cellAt a with
  | none => exact .inr (.inr (.inr ⟨.inl rfl, rfl⟩))
  | some c =>
    cases c with
    | cmd => exact .inl ⟨rfl, rfl⟩
    | reg r =>
      cases hr : r.access with
      | rw => exact .inr (.inl ⟨r, rfl, hr, by simp [hr]⟩)
      | ro => exact .inr (.inr (.inr ⟨.inr ⟨r, rfl, hr⟩, by simp [hr]⟩))
    | buf b i => exact .inr (.inr (.inl ⟨b, i, rfl, rfl⟩))

/-- Everything a word written to CMD can do (20_memory.md R55, 30_encoding.md R73). -/
theorem command_cases (v : PortWord) (s : State) :
    (∃ i, decode v = .ok i ∧ command v s = exec i s) ∨
    (∃ e, decode v = .error e) ∧ command v s = .next (s.start.raise .eIllegal) := by
  unfold command
  cases h : decode v with
  | ok i => exact .inl ⟨i, rfl, rfl⟩
  | error e => exact .inr ⟨⟨e, rfl⟩, rfl⟩

/-! Writes keep the buffer memory inside the buffers. -/

/-- Cells written inside one buffer, each of the buffer's width, keep a memory of buffer cells one. -/
theorem memInBuffers_writeBlock {m : Memory} (h : memInBuffers m = true) {b : Buffer} {off : Nat} {vs : List Byte}
    (hf : off + vs.length ≤ b.size) (hv : ∀ v ∈ vs, v.toNat < 2 ^ b.width) :
    memInBuffers (m.writeBlock (b.base + off) vs) = true := by
  simp only [memInBuffers, List.all_eq_true] at h ⊢
  intro c hc
  unfold Memory.writeBlock at hc
  rcases List.mem_append.mp hc with hc | hc
  · rcases List.mem_append.mp hc with hc | hc
    · exact h c (List.mem_filter.mp hc).1
    · obtain ⟨h1, h2, -, h4⟩ := cellsFrom_bounds hc
      rw [(bufferAt_eq_some (b := b)).mpr ⟨by omega, by omega⟩]
      simpa using hv _ h4
  · exact h c (List.mem_filter.mp hc).1

end Sys2Proof.Machine
end

