-- ==== Sys2Proof/Machine/Program.lean ====
section
/-! DEFINITION. The assembler notation of 30_encoding.md R88 to R90 as lists of port events, and a run of such a list
(70_reset_and_hazards.md R224). -/

namespace Sys2Proof.Machine

/-- `wr <cell>, <value>` (R88). -/
def wr (c : CellId) (v : Nat) : PortEvent := .write c.addr (BitVec.ofNat 32 v)

/-- `rd <cell>` (R88). -/
def rd (c : CellId) : PortEvent := .read c.addr

/-- A bare mnemonic: `HW(0x001, <its word>)` (R88). -/
def cmdOf (i : Instr) : PortEvent := .write cmdAddr (encode i)

/-- `cmd <value>` (R89), used to issue illegal words. -/
def cmdWord (v : Nat) : PortEvent := wr .cmd v

/-- `wr BUF[i], x` for the elements of a list, from cell `i` up. -/
def wrList (b : Buffer) (i : Nat) : List Nat → List PortEvent
  | [] => []
  | x :: xs => wr (.buf b i) x :: wrList b (i + 1) xs

/-- `ldrec b0 b1 ...` (R89). -/
def ldrec (xs : List Nat) : List PortEvent := wrList .record 0 xs ++ [wr (.reg .rlen) xs.length]

/-- `ldpay b0 b1 ...` (R89). -/
def ldpay (xs : List Nat) : List PortEvent := wrList .pay 0 xs ++ [wr (.reg .len) xs.length]

/-- `ldcell b0 b1 ...` (R89). -/
def ldcell (xs : List Nat) : List PortEvent := wrList .cellcfg 0 xs

/-- `ldtmr b0 b1 ...` (R89). -/
def ldtmr (xs : List Nat) : List PortEvent := wrList .tmrcfg 0 xs

/-- `ldfrm <string of 0 and 1>` (R89). -/
def ldfrm (bits : List Nat) : List PortEvent := wrList .frm 0 bits ++ [wr (.reg .fbits) bits.length]

/-- `rd BUF[i]` for `n` cells from cell `i` up. -/
def rdList (b : Buffer) (i : Nat) : Nat → List PortEvent
  | 0 => []
  | n + 1 => rd (.buf b i) :: rdList b (i + 1) n

/-- `rdrec` for a layout of capacity `cap` (R89). -/
def rdrec (cap : Nat) : List PortEvent := rd (.reg .rlen) :: rdList .record 0 cap

/-- The state with a program of host transactions to run (R224; log 2). -/
def State.withProgram (s : State) (p : List PortEvent) : State := s.withPending p

end Sys2Proof.Machine
end

