-- ==== Sys2Proof/Tests/Slice0.lean ====
section
/-! SUPPORT. The model's own tests: command words written out from 30_encoding.md R70 and R72, ill-formed terms refused by each
check, one or two examples of the spec for each command, and for each statement with hypotheses a state that meets them. -/

namespace Sys2Proof.Tests

open Sys2Proof Sys2Proof.Machine

/-! Command words: bits 31 to 16 ZERO, 15 to 12 UNIT, 11 to 8 OP, 7 to 0 ARG (R70). -/

theorem test_decode_nop : decode 0b00000000000000000000000000000000#32 = .ok .nop := by decide

theorem test_decode_clr : decode 0b00000000000000000000000100000000#32 = .ok .clr := by decide

theorem test_decode_encInfo : decode 0b00000000000000000001000000000001#32 = .ok .encInfo := by decide

theorem test_decode_encRa : decode 0b00000000000000000001000000000010#32 = .ok .encRa := by decide

theorem test_decode_encRts : decode 0b00000000000000000001000000000011#32 = .ok .encRts := by decide

theorem test_decode_encDind : decode 0b00000000000000000001000000000100#32 = .ok .encDind := by decide

theorem test_decode_encDreq : decode 0b00000000000000000001000000000101#32 = .ok .encDreq := by decide

theorem test_decode_encTime : decode 0b00000000000000000001000000000110#32 = .ok .encTime := by decide

theorem test_decode_dec : decode 0b00000000000000000001000100000000#32 = .ok .dec := by decide

theorem test_decode_pack : decode 0b00000000000000000001001000000000#32 = .ok .pack := by decide

theorem test_decode_unpack : decode 0b00000000000000000001001100000000#32 = .ok .unpack := by decide

theorem test_decode_blknum : decode 0b00000000000000000010000000000000#32 = .ok .blknum := by decide

theorem test_decode_mfpos52 : decode 0b00000000000000000010000100110100#32 = .ok .mfpos52 := by decide

theorem test_decode_mfpos51 : decode 0b00000000000000000010000100110011#32 = .ok .mfpos51 := by decide

theorem test_decode_route : decode 0b00000000000000000011000000000000#32 = .ok .route := by decide

theorem test_decode_cause : decode 0b00000000000000000011000100000000#32 = .ok .cause := by decide

/-- R73's own examples of illegal words, each refused by its reason. -/
theorem test_decode_refuses_by_name :
    decode 0x00010000#32 = .error .zeroNotClear ∧ decode 0x00004000#32 = .error .noSuchUnit ∧
      decode 0x00000200#32 = .error .noSuchOp ∧ decode 0x00001000#32 = .error .badArg ∧
      decode 0x00001007#32 = .error .badArg ∧ decode 0x00002132#32 = .error .badArg ∧
      decode 0x00000001#32 = .error .badArg := by decide

theorem test_table_words :
    decodeTableWord 32 0x2134 = some .mfpos52 ∧ decodeTableWord 32 0x1007 = none ∧
      decodeTableWord 64 0x100000000 = none := by decide

/-! Well-formedness: each check refuses an ill-formed term. -/

theorem test_zeroField : zeroFieldOk { zero := 1, unit := 0, op := 0, arg := 0 } = false := by decide

theorem test_unitField : unitFieldOk { zero := 0, unit := 4, op := 0, arg := 0 } = false := by decide

theorem test_opField :
    opFieldOk { zero := 0, unit := 3, op := 2, arg := 0 } = false ∧
      opFieldOk { zero := 0, unit := 1, op := 4, arg := 0 } = false := by decide

theorem test_argField :
    argFieldOk { zero := 0, unit := 1, op := 0, arg := 0 } = false ∧
      argFieldOk { zero := 0, unit := 1, op := 0, arg := 7 } = false ∧
      argFieldOk { zero := 0, unit := 2, op := 1, arg := 50 } = false ∧
      argFieldOk { zero := 0, unit := 3, op := 1, arg := 1 } = false := by decide

theorem test_fields_wf : CmdFields.wf { zero := 0, unit := 1, op := 0, arg := 7 } = false := by decide

theorem test_discriminators :
    discriminatorsOk { defaultParams with pdRr := 0x05#8 } = false ∧
      discriminatorsOk { defaultParams with pdMm := 0xFF#8 } = false := by decide

theorem test_mmTypes : mmTypesOk { defaultParams with mtIdi := 0x24#8 } = false := by decide

theorem test_rrTypes : rrTypesOk { defaultParams with mtAsc := 0x27#8 } = false := by decide

theorem test_nblk : nblkOk { defaultParams with nblk := 0 } = false := by decide

/-- A layout whose FN field is five bytes beyond the record's end. -/
def longTime : Layout := { layoutRef with time := some { disc := 0x16, fn := ⟨61, 4⟩ } }

theorem test_suppliedLayouts : suppliedLayoutsOk { defaultParams with layouts := [(1, longTime)] } = false := by
  decide +kernel

theorem test_params_wf :
    Params.wf defaultParams = true ∧ Params.wf { defaultParams with nblk := 0 } = false := by decide +kernel

theorem test_layoutW1 : layoutW1 { layoutRef with cap := 257 } = false ∧ layoutW1 { layoutRef with cap := 0 } = false := by
  decide

theorem test_layoutW2 : layoutW2 { layoutRef with disc := ⟨0, 3⟩ } = false := by decide

/-- The data kind of LAYOUT_REF with its LEN field and payload region elsewhere. -/
def dataForm (len pay : Slot) : DataForm :=
  { disc := 0x14, sapi := ⟨1, 1⟩, tn := ⟨2, 1⟩, bn := ⟨3, 1⟩, fn := ⟨4, 4⟩, len := len, pay := pay }

/-- A LEN field of four bytes is wider than LEN. -/
theorem test_layoutW3 : layoutW3 longTime = false ∧
    layoutW3 { layoutRef with dataInd := some (dataForm ⟨8, 4⟩ ⟨12, 52⟩) } = false := by decide

theorem test_layoutW4 : layoutW4 { layoutRef with dataInd := some (dataForm ⟨8, 1⟩ ⟨9, 56⟩) } = false ∧
    layoutW4 { layoutRef with cap := 256, dataInd := some (dataForm ⟨8, 1⟩ ⟨0, 256⟩) } = false := by decide

theorem test_layoutW5 :
    layoutW5 { layoutRef with cap := 200, info := some ⟨0x11, ⟨1, 65⟩, ⟨70, 16⟩⟩ } = false := by decide

theorem test_layoutW6 : layoutW6 { layoutRef with time := some { disc := 0x16, fn := ⟨0, 4⟩ } } = false := by decide

theorem test_layoutW7 : layoutW7 { layoutRef with time := some { disc := 0x15, fn := ⟨4, 4⟩ } } = false ∧
    layoutW7 { layoutRef with time := some { disc := 0x100, fn := ⟨4, 4⟩ } } = false := by decide

/-! States. -/

/-- The state after an outcome, the reset state where there is none. -/
def stateOf (o : Host.Outcome State Fault Refusal) : State :=
  match o with
  | .next t => t
  | .fault _ => State.reset
  | .refused _ => State.reset

/-- The reset state with events waiting. -/
def waiting (es : List PortEvent) : State := State.reset.withProgram es

/-- The reset state of the instance of 95_test_vectors.md: LAYOUT_T1 bound to id 1, and selected. -/
def resetT1 : State := { State.reset with layout := 1, params := { defaultParams with layouts := [(1, layoutT1)] } }

/-- The operands of the example of R111: SAPI 5, LEN 4, FN 1000, TN 2, BN 3 and four payload bytes. -/
def dataOperands (s : State) : State :=
  { s with sapi := 5, len := 4, fn := 1000, tn := 2, bn := 3 }.memWrite .pay 0 [0x40, 0x01, 0x02, 0x2B]

/-- A record of given first bytes in REC, of given length. -/
def record (s : State) (n : Nat) (bytes : List Byte) : State := (s.memWrite .record 0 bytes).set .rlen n

/-- The record of R111's example with a given discriminator. -/
def dataRecord (d : Byte) : State :=
  record State.reset 64 [d, 0x05, 0x02, 0x03, 0xE8, 0x03, 0x00, 0x00, 0x04, 0x40, 0x01, 0x02, 0x2B]

/-! The commands: the examples of the command rules R100 to R157. -/

theorem test_nop : stateOf (exec .nop { State.reset with status := 0x11#8, fn := 7 }) =
    { State.reset with fn := 7, cp := 1 } := by decide

theorem test_clr :
    stateOf (exec .clr ({ resetT1 with fn := 0x2D, bn := 10, cp := 4 }.memWrite .record 0 [0x14])) =
      { resetT1 with cp := 5 } := by decide

theorem test_encInfo :
    (stateOf (exec .encInfo ((State.reset.memWrite .cellcfg 0 [0xC1, 0xC2, 0xC3, 0xC4, 0xC5, 0xC6, 0xC7, 0xC8, 0xC9]).memWrite
      .tmrcfg 0 [1, 2, 3, 4, 5, 6, 7, 8, 9, 10, 11, 12, 13, 14, 15, 16, 17]))).memRead .record 0 26 =
      [0x11, 0xC1, 0xC2, 0xC3, 0xC4, 0xC5, 0xC6, 0xC7, 0xC8, 1, 2, 3, 4, 5, 6, 7, 8, 9, 10, 11, 12, 13, 14, 15, 16, 0] := by
  decide +kernel

theorem test_encInfo_absent : (stateOf (exec .encInfo resetT1)).status = 0x06#8 := by decide +kernel

theorem test_encRa :
    (stateOf (exec .encRa { State.reset with ra := 0x007B, ta := 3, fn := 0x0001E240 })).memRead .record 0 9 =
      [0x12, 0x03, 0x7B, 0x00, 0x40, 0xE2, 0x01, 0x00, 0x00] := by decide +kernel

/-- Under LAYOUT_T1: a discriminator of two bytes, most significant byte first (R84). -/
theorem test_encRa_T1 :
    (stateOf (exec .encRa { resetT1 with ra := 0x1234, ta := 3, fn := 0x0001E240 })).memRead .record 0 13 =
      [0x01, 0x02, 0x12, 0x34, 0x03, 0, 0, 0, 0x00, 0x01, 0xE2, 0x40, 0] := by decide +kernel

theorem test_encRts :
    (stateOf (exec .encRts { State.reset with tn := 5, fn := 45, sapi := 5, bn := 10 })).memRead .record 0 9 =
      [0x13, 0x05, 0x05, 0x0A, 0x2D, 0x00, 0x00, 0x00, 0x00] := by decide +kernel

theorem test_encDind :
    (stateOf (exec .encDind (dataOperands State.reset))).memRead .record 0 14 =
      [0x14, 0x05, 0x02, 0x03, 0xE8, 0x03, 0x00, 0x00, 0x04, 0x40, 0x01, 0x02, 0x2B, 0x00] := by decide +kernel

/-- LEN at PAYCAP + 1 and FN too wide for LAYOUT_T1's field: the bounds failure is the one reported (R174). -/
theorem test_encDind_bounds : (stateOf (exec .encDind { resetT1 with len := 25, fn := 0x10000 })).status = 0x02#8 := by
  decide +kernel

theorem test_encDreq :
    (stateOf (exec .encDreq (dataOperands State.reset))).memRead .record 0 14 =
      [0x15, 0x05, 0x02, 0x03, 0xE8, 0x03, 0x00, 0x00, 0x04, 0x40, 0x01, 0x02, 0x2B, 0x00] := by decide +kernel

theorem test_encDreq_range : (stateOf (exec .encDreq { resetT1 with fn := 0x10000 })).status = 0x04#8 := by decide +kernel

theorem test_encTime :
    let t := stateOf (exec .encTime { State.reset with fn := 0x00296FFF })
    t.memRead .record 0 9 = [0x16, 0x00, 0x00, 0x00, 0xFF, 0x6F, 0x29, 0x00, 0x00] ∧ t.rlen = 64 := by decide +kernel

theorem test_dec :
    let t := stateOf (exec .dec (dataRecord 0x15))
    t.kind = 5 ∧ t.sapi = 5 ∧ t.tn = 2 ∧ t.bn = 3 ∧ t.fn = 1000 ∧ t.len = 4 ∧
      t.memRead .pay 0 5 = [0x40, 0x01, 0x02, 0x2B, 0x00] := by decide +kernel

/-- The length test comes before the discriminator test (R121). -/
theorem test_dec_length : (stateOf (exec .dec (record { State.reset with kind := 4 } 63 [0xFF]))) =
    { record { State.reset with kind := 0 } 63 [0xFF] with cp := 1, status := 0x03#8 } := by decide +kernel

theorem test_pack :
    let t := stateOf (exec .pack { State.reset with fbits := 32, mem := [(0x801, 1), (0x80F, 1), (0x816, 1), (0x81A, 1),
      (0x81C, 1), (0x81E, 1), (0x81F, 1)] })
    t.memRead .pay 0 5 = [0x40, 0x01, 0x02, 0x2B, 0x00] ∧ t.len = 4 := by decide +kernel

theorem test_pack_refused : (stateOf (exec .pack { State.reset with fbits := 7 })).status = 0x05#8 := by decide +kernel

theorem test_unpack :
    let t := stateOf (exec .unpack ({ State.reset with len := 2 }.memWrite .pay 0 [0xA5, 0x0F]))
    t.frameBits 16 = [true, false, true, false, false, true, false, true,
      false, false, false, false, true, true, true, true] ∧ t.fbits = 16 := by decide +kernel

theorem test_unpack_refused : (stateOf (exec .unpack { State.reset with len := 256 })).status = 0x05#8 := by decide +kernel

theorem test_blknum : stateOf (exec .blknum { State.reset with fn := 1000 }) =
    { State.reset with fn := 1000, mfpos := 12, bn := 3, cp := 1 } := by decide

theorem test_blknum_cap : stateOf (exec .blknum { State.reset with fn := 0xFFFFFFFF }) =
    { State.reset with fn := 0xFFFFFFFF, mfpos := 47, bn := 10, cp := 1 } := by decide

theorem test_mfpos52 : stateOf (exec .mfpos52 { State.reset with fn := 123456, bn := 9 }) =
    { State.reset with fn := 123456, bn := 9, mfpos := 8, cp := 1 } := by decide

theorem test_mfpos51 : stateOf (exec .mfpos51 { State.reset with fn := 1000, bn := 9 }) =
    { State.reset with fn := 1000, bn := 9, mfpos := 31, cp := 1 } := by decide

theorem test_route : stateOf (exec .route { State.reset with pd := 0x06, mt := 0x29, chv := 1 }) =
    { State.reset with pd := 0x06, mt := 0x29, chv := 1, hid := 5, ev := [.invoke .asscmp], cp := 1 } := by decide

theorem test_route_refused : stateOf (exec .route { State.reset with pd := 0x06, mt := 0x29, chv := 0, hid := 3 }) =
    { State.reset with pd := 0x06, mt := 0x29, chv := 0, hid := 0, status := 0x11, cp := 1 } := by decide

theorem test_cause : stateOf (exec .cause { State.reset with fclass := 7 }) =
    { State.reset with fclass := 7, cause := 0x01, cp := 1 } := by decide

theorem test_cause_refused : stateOf (exec .cause { State.reset with fclass := 9, cause := 0x61 }) =
    { State.reset with fclass := 9, cause := 0x61, status := 0x08, cp := 1 } := by decide

/-! The host port. -/

/-- `wr RLEN` keeps 16 bits (R53), `wr FRM[2039]` one bit (R54), a write to STATUS is refused (R56). -/
theorem test_host_writes :
    stateOf (step (waiting [.write 0x003#12 0x00010041#32])) =
      { State.reset with rlen := 0x0041, replies := [.write .okay] } ∧
    stateOf (step (waiting [.write 0xFF7#12 0x00000003#32])) =
      { State.reset with mem := [(0xFF7, 1)], replies := [.write .okay] } ∧
    stateOf (step (waiting [.write 0x002#12 0x000000FF#32])) = { State.reset with replies := [.write .slverr] } := by
  decide +kernel

/-- A read of CFG answers LAYOUT zero-extended (R57), a read of CMD SLVERR and 0 (R58). -/
theorem test_host_reads :
    stateOf (step { resetT1 with pending := [.read 0x000#12] }) =
      { resetT1 with replies := [.read .okay 0x00000001#32] } ∧
    stateOf (step (waiting [.read 0x001#12])) = { State.reset with replies := [.read .slverr 0#32] } := by decide +kernel

/-- The first instruction after reset, placed as the host places it. -/
theorem test_withFetchWord : stateOf (step (State.reset.withFetchWord 32 0x3000)) =
    { State.reset with cp := 1, status := 0x10, replies := [.write .okay] } := by decide +kernel

/-! Witnesses: for each statement with hypotheses, states and operands that meet them, one for each clause, at the boundary of
its range where it has one. -/

/-- The words next to the commands, and words with one wrong field. -/
theorem witness_IllegalWordsAreThoseWithAWrongField :
    (waiting [.write 0x001#12 0x00001007#32]).pending = .write 0x001#12 0x00001007#32 :: [] ∧
    ∀ i, 0x00001007#32 ≠ encode i ∧ 0x00001000#32 ≠ encode i ∧ 0x00000001#32 ≠ encode i ∧ 0x00010000#32 ≠ encode i ∧
      0x00004000#32 ≠ encode i ∧ 0x00003200#32 ≠ encode i :=
  ⟨rfl, by intro i; cases i <;> decide⟩

theorem witness_StepRunsTheWrittenCommand :
    (waiting [.write 0x001#12 0x00003000#32]).pending = .write 0x001#12 0x00003000#32 :: [] ∧
    decode 0x00003000#32 = .ok .route ∧ ∀ i, decode 0x00003200#32 ≠ .ok i :=
  ⟨rfl, by decide, by intro i; cases i <;> decide⟩

theorem witness_IdleBlockHoldsItsState : State.reset.pending = [] := rfl

/-- A command, another write, a read, the reset input, and no event: every clause has a state. -/
theorem witness_OnlyCommandWritesAndResetChangeCp :
    (∃ t, step (waiting [.write 0x001#12 0#32]) = .next t) ∧
    (∃ t, step (waiting [.write 0x008#12 5#32]) = .next t) ∧ 0x008#12 ≠ 0x001#12 ∧
    (∃ t, step (waiting [.read 0x008#12]) = .next t) ∧ (∃ t, step (waiting [.reset]) = .next t) ∧
    ∃ t, step State.reset = .next t :=
  ⟨⟨_, rfl⟩, ⟨_, rfl⟩, by decide, ⟨_, rfl⟩, ⟨_, rfl⟩, ⟨_, rfl⟩⟩

/-- A successful ROUTE, and a write that is none. -/
theorem witness_OnlyASuccessfulRouteAppendsAnEvent :
    (∃ t, step { State.reset with pd := 5, mt := 8, pending := [.write 0x001#12 (encode .route)] } = .next t ∧
      t.ev = [.invoke .locupd]) ∧
    (∃ t, step (waiting [.write 0x001#12 (encode .nop)]) = .next t ∧ t.ev = []) ∧
    PortEvent.write 0x001#12 (encode .route) ≠ .reset :=
  ⟨⟨_, rfl, rfl⟩, ⟨_, rfl, rfl⟩, by decide⟩

theorem witness_NoStepChangesTheParameters : ∃ t, step (waiting [.reset]) = .next t := ⟨_, rfl⟩

theorem witness_NoCommandWritesCfg : ∃ t, exec .clr resetT1 = .next t := ⟨_, rfl⟩

/-- A state with a command waiting and with MFPOS, KIND and HID at the ends of their ranges. -/
theorem witness_EveryStepKeepsTheBlockInvariant :
    let s := { dataRecord 0x16 with mfpos := 51, kind := 6, hid := 5, pending := [.write 0x001#12 (encode .dec)] }
    blockInvariant s ∧ ∃ t, step s = .next t :=
  ⟨by unfold blockInvariant; decide +kernel, ⟨_, rfl⟩⟩

/-- A command of the five, one of the others, and a state whose STATUS no run reaches with a read waiting. -/
theorem witness_UnlistedCodesAreNeverWritten :
    (∃ t, exec .nop State.reset = .next t) ∧ (∃ t, exec .route State.reset = .next t) ∧
    (∃ t, step { State.reset with status := 0x09#8, pending := [.read 0x000#12] } = .next t ∧ t.status.toNat = 0x09) ∧
    ∃ t, step { State.reset with status := 0x12#8, pending := [.read 0x000#12] } = .next t ∧ t.status.toNat = 0x12 :=
  ⟨⟨_, rfl⟩, ⟨_, rfl⟩, ⟨_, rfl, rfl⟩, ⟨_, rfl, rfl⟩⟩

/-- A failing command with a result register of its own, and one without. -/
theorem witness_FailingCommandLeavesTheRestAlone :
    (∃ t, exec .dec State.reset = .next t ∧ t.status ≠ 0x00#8) ∧ (∃ t, exec .route State.reset = .next t ∧ t.status ≠ 0x00#8) ∧
    ∃ t, exec .cause State.reset = .next t ∧ t.status ≠ 0x00#8 :=
  ⟨⟨_, rfl, by decide +kernel⟩, ⟨_, rfl, by decide +kernel⟩, ⟨_, rfl, by decide +kernel⟩⟩

theorem witness_NoCommandReadsStatusCpOrEv : ∃ t, exec .blknum State.reset = .next t := ⟨_, rfl⟩

theorem witness_RunningACommandAgainMakesTheSameWrites :
    (∃ t, exec .encDind (dataOperands State.reset) = .next t) ∧ Instr.encDind ≠ .route ∧
    ∃ t, exec .route { State.reset with pd := 5, mt := 8 } = .next t :=
  ⟨⟨_, rfl⟩, by decide, ⟨_, rfl⟩⟩

theorem witness_ResetInputPutsTheBlockInTheResetState : (waiting [.reset, .read 0x000#12]).pending = .reset :: [.read 0x000#12] :=
  rfl

theorem witness_ClrAndResetDifferInThreeThings : (waiting [.reset]).pending = .reset :: [] := rfl

/-- The read-write registers at both ends of the map. -/
theorem witness_RegisterWriteKeepsTheLowBits :
    Reg.cfg.access = .rw ∧ (waiting [.write (BitVec.ofNat 12 Reg.cfg.addr) 0xFFFFFFFF#32]).pending =
      .write (BitVec.ofNat 12 Reg.cfg.addr) 0xFFFFFFFF#32 :: [] ∧
    Reg.fclass.access = .rw ∧ (waiting [.write (BitVec.ofNat 12 Reg.fclass.addr) 0x10#32]).pending =
      .write (BitVec.ofNat 12 Reg.fclass.addr) 0x10#32 :: [] :=
  ⟨rfl, rfl, rfl, rfl⟩

/-- The first and the last cell of every buffer. -/
theorem witness_BufferWriteChangesOneCell (b : Buffer) :
    0 < b.size ∧ b.size - 1 < b.size ∧
    (waiting [.write (BitVec.ofNat 12 (b.base + (b.size - 1))) 0x1FF#32]).pending =
      .write (BitVec.ofNat 12 (b.base + (b.size - 1))) 0x1FF#32 :: [] := by
  cases b <;> exact ⟨by decide, by decide, rfl⟩

/-- A read-only register, and the ends of every unmapped range. -/
theorem witness_RefusedWriteChangesNothing :
    (waiting [.write 0x013#12 1#32]).pending = .write 0x013#12 1#32 :: [] ∧
    (0x013#12).toNat ∈ [0x002, 0x004, 0x00D, 0x011, 0x013] ∧
    unmapped 0x014#12 ∧ unmapped 0x0FF#12 ∧ unmapped 0x2FF#12 ∧ unmapped 0x380#12 ∧ unmapped 0x7FF#12 ∧ unmapped 0xFF8#12 ∧
      unmapped 0xFFF#12 := by
  unfold unmapped; decide

theorem witness_ReadAnswersTheCellAndChangesNothing :
    (waiting [.read (BitVec.ofNat 12 Reg.status.addr)]).pending = .read (BitVec.ofNat 12 Reg.status.addr) :: [] ∧
    2039 < Buffer.frm.size ∧ (waiting [.read (BitVec.ofNat 12 (Buffer.frm.base + 2039))]).pending =
      .read (BitVec.ofNat 12 (Buffer.frm.base + 2039)) :: [] :=
  ⟨rfl, by decide, rfl⟩

theorem witness_RefusedReadAnswersZero :
    (waiting [.read 0x001#12]).pending = .read 0x001#12 :: [] ∧
    (waiting [.read 0x2FF#12]).pending = .read 0x2FF#12 :: [] ∧ unmapped 0x2FF#12 := by
  refine ⟨rfl, rfl, ?_⟩; unfold unmapped; decide

theorem witness_AddressMapHasNoAliases : cellAt 0xFF7#12 = some (.buf .frm 2039) := by decide +kernel

/-- Positions 39, 40 and 51 of the multiframe. -/
theorem witness_BlockNumberCountsThresholds :
    State.reset.params.nblk = 11 ∧ 40 ≤ { State.reset with fn := 40 }.get .fn % 52 ∧
    40 ≤ { State.reset with fn := 51 }.get .fn % 52 ∧ ¬ 40 ≤ { State.reset with fn := 39 }.get .fn % 52 := by decide

theorem witness_BlockNumberIsPeriodicMonotoneAndBelowEleven :
    State.reset.params.nblk = 11 ∧ (∃ t, exec .blknum { State.reset with fn := 51 } = .next t) ∧
    { State.reset with fn := 103 }.get .fn = { State.reset with fn := 51 }.get .fn + 52 ∧
    { State.reset with fn := 103 }.get .fn / 52 = { State.reset with fn := 52 }.get .fn / 52 ∧
    { State.reset with fn := 52 }.get .fn ≤ { State.reset with fn := 103 }.get .fn ∧ 0#32 = 0xFFFFFFFF#32 + 1 ∧ 10 ≤ 10 :=
  ⟨rfl, ⟨_, rfl⟩, rfl, rfl, by decide, by decide, by decide⟩

/-- A message of each row of the routing table, in the default instance. -/
theorem witness_RouteInvokesTheHandlerOfTheRow :
    routerParamsOk State.reset.params ∧
    (∃ s : State, s.params = defaultParams ∧ s.pd = s.params.pdMm ∧ s.mt = s.params.mtLur) ∧
    (∃ s : State, s.params = defaultParams ∧ s.pd = s.params.pdMm ∧ s.mt = s.params.mtIdi) ∧
    (∃ s : State, s.params = defaultParams ∧ s.pd = s.params.pdMm ∧ s.mt = s.params.mtCmsr) ∧
    (∃ s : State, s.params = defaultParams ∧ s.pd = s.params.pdRr ∧ s.mt = s.params.mtPgr) ∧
    ∃ s : State, s.params = defaultParams ∧ s.pd = s.params.pdRr ∧ s.mt = s.params.mtAsc ∧ s.chv = 1#1 :=
  ⟨by unfold routerParamsOk; decide, ⟨{ State.reset with pd := 5, mt := 8 }, rfl, rfl, rfl⟩,
    ⟨{ State.reset with pd := 5, mt := 1 }, rfl, rfl, rfl⟩, ⟨{ State.reset with pd := 5, mt := 0x24 }, rfl, rfl, rfl⟩,
    ⟨{ State.reset with pd := 6, mt := 0x27 }, rfl, rfl, rfl⟩,
    ⟨{ State.reset with pd := 6, mt := 0x29, chv := 1 }, rfl, rfl, rfl, rfl⟩⟩

/-- The reset message, a type of the other domain, and an assignment on a channel that is not traffic-capable. -/
theorem witness_RouteFailsOutsideTheTable :
    routerParamsOk defaultParams ∧ (0x00#8 ≠ defaultParams.pdMm ∧ 0x00#8 ≠ defaultParams.pdRr) ∧
    (0x29#8 ≠ defaultParams.mtLur ∧ 0x29#8 ≠ defaultParams.mtIdi ∧ 0x29#8 ≠ defaultParams.mtCmsr) ∧
    (0x08#8 ≠ defaultParams.mtPgr ∧ ¬ (0x08#8 = defaultParams.mtAsc ∧ 0#1 = 1#1)) ∧
    (0x29#8 ≠ defaultParams.mtPgr ∧ ¬ (0x29#8 = defaultParams.mtAsc ∧ 0#1 = 1#1)) := by
  unfold routerParamsOk; decide

theorem witness_AssignmentHandlerNeedsATrafficChannel :
    ∃ t, exec .route { State.reset with pd := 6, mt := 0x29, chv := 1 } = .next t ∧ t.get .hid = 5 ∧
      t.ev = [] ++ [.invoke .asscmp] :=
  ⟨_, rfl, rfl, rfl⟩

/-- Classes 0, 1, 8 and 9. -/
theorem witness_CauseLooksUpTheFailureTable :
    (1 ≤ { State.reset with fclass := 1 }.get .fclass ∧ { State.reset with fclass := 8 }.get .fclass ≤ 8) ∧
    State.reset.get .fclass = 0 ∧ 9 ≤ { State.reset with fclass := 9 }.get .fclass := by decide

theorem witness_RouterFailuresLeadToCauseSixtyOne :
    (∃ t, exec .route { State.reset with pd := 5 } = .next t ∧ t.status = 0x11#8) ∧
    ∃ t, exec .route State.reset = .next t ∧ t.status = 0x10#8 :=
  ⟨⟨_, rfl, rfl⟩, ⟨_, rfl, rfl⟩⟩

/-- LAYOUT_REF is selected after reset: the hypothesis of the statements about ENC.INFO, ENC.RA, ENC.RTS and ENC.TIME. -/
theorem witness_ReferenceLayoutSelected : State.reset.layout = 0#4 := rfl

/-- LEN at 0 and at PAYCAP, for both data kinds. -/
theorem witness_EncDataWritesTheReferenceRecord :
    State.reset.layout = 0#4 ∧ State.reset.get .len ≤ 55 ∧ { State.reset with len := 55 }.get .len ≤ 55 ∧
    ((Instr.encDind = Instr.encDind ∧ 0x14#8 = 0x14#8) ∧ (Instr.encDreq = Instr.encDreq ∧ 0x15#8 = 0x15#8)) := by decide

/-- Under LAYOUT_T1 with LEN at PAYCAP and FN at the largest number its field of two bytes holds; and a kind with blocks. -/
theorem witness_EncodeLaysOutTheRecordOfAnyLayout :
    (∃ L K, { resetT1 with len := 24, fn := 0xFFFF }.layoutInForce = some L ∧ layoutKind L .dataInd = some K ∧
      (∀ q ∈ K.payload, { resetT1 with len := 24, fn := 0xFFFF }.get .len ≤ q.region.width) ∧
      ∀ rf ∈ K.scalars, { resetT1 with len := 24, fn := 0xFFFF }.get rf.1 < 2 ^ (8 * rf.2.width)) ∧
    ∃ L K, State.reset.layoutInForce = some L ∧ layoutKind L .infoInd = some K ∧
      (∀ q ∈ K.payload, State.reset.get .len ≤ q.region.width) ∧
      ∀ rf ∈ K.scalars, State.reset.get rf.1 < 2 ^ (8 * rf.2.width) :=
  ⟨⟨layoutT1, _, by decide +kernel, rfl, by decide +kernel, by decide +kernel⟩,
    ⟨layoutRef, _, by decide +kernel, rfl, by decide +kernel, by decide +kernel⟩⟩

/-- An id with no entry, an id whose entry is not well-formed, and a kind LAYOUT_T1 lacks. -/
theorem witness_EncodeWithoutLayoutOrKindIsRefused :
    layoutUndefined { State.reset with layout := 15 } ∧
    layoutUndefined { resetT1 with params := { defaultParams with layouts := [(1, longTime)] } } ∧
    ∃ L, resetT1.layoutInForce = some L ∧ layoutKind L .infoInd = none := by
  refine ⟨⟨by decide, fun L h => ?_⟩, ⟨by decide, fun L h => ?_⟩, ⟨layoutT1, by decide +kernel, rfl⟩⟩
  · cases h
  · cases h; decide +kernel

/-- LEN one above PAYCAP; and, with LEN at PAYCAP, FN one above its field under LAYOUT_T1. -/
theorem witness_EncodeRefusesWhatDoesNotFit :
    (∃ L K, { State.reset with len := 56 }.layoutInForce = some L ∧ layoutKind L .dataReq = some K ∧
      ∃ q ∈ K.payload, q.region.width < { State.reset with len := 56 }.get .len) ∧
    ∃ L K, { resetT1 with len := 24, fn := 0x10000 }.layoutInForce = some L ∧ layoutKind L .dataReq = some K ∧
      (∀ q ∈ K.payload, { resetT1 with len := 24, fn := 0x10000 }.get .len ≤ q.region.width) ∧
      ∃ rf ∈ K.scalars, 2 ^ (8 * rf.2.width) ≤ { resetT1 with len := 24, fn := 0x10000 }.get rf.1 :=
  ⟨⟨layoutRef, _, by decide +kernel, rfl, by decide +kernel⟩,
    ⟨layoutT1, _, by decide +kernel, rfl, by decide +kernel, by decide +kernel⟩⟩

/-- A data request of LAYOUT_REF, and one whose length is PAYCAP. -/
theorem witness_DecodeCopiesTheFieldsOfTheKind :
    (∃ L K, (dataRecord 0x15).layoutInForce = some L ∧ layoutKind L .dataReq = some K ∧ (dataRecord 0x15).get .rlen = L.cap ∧
      valOf L.endian ((dataRecord 0x15).memRead .record L.disc.off L.disc.width) = K.disc ∧
      ∀ q ∈ K.payload, (dataRecord 0x15).recField L q.len ≤ q.region.width) ∧
    ∃ K, layoutKind layoutRef .dataReq = some K ∧
      ∀ q ∈ K.payload, ((dataRecord 0x15).memWrite .record 8 [55]).recField layoutRef q.len ≤ q.region.width :=
  ⟨⟨layoutRef, _, by decide +kernel, rfl, by decide +kernel, by decide +kernel, by decide +kernel⟩, ⟨_, rfl, by decide +kernel⟩⟩

/-- No layout; lengths 63 and 65; a discriminator of no kind; a wire length one above PAYCAP. -/
theorem witness_DecodeFailuresInTheOrderOfItsTests :
    layoutUndefined { State.reset with layout := 1 } ∧ State.reset.layoutInForce = some layoutRef ∧
    (record State.reset 63 [0x14]).get .rlen ≠ layoutRef.cap ∧ (record State.reset 65 [0x14]).get .rlen ≠ layoutRef.cap ∧
    ((record State.reset 64 [0x17]).get .rlen = layoutRef.cap ∧ ∀ k K, layoutKind layoutRef k = some K →
      K.disc ≠ (record State.reset 64 [0x17]).recField layoutRef layoutRef.disc) ∧
    ∃ k K, layoutKind layoutRef k = some K ∧
      K.disc = ((dataRecord 0x14).memWrite .record 8 [56]).recField layoutRef layoutRef.disc ∧
      ∃ q ∈ K.payload, q.region.width < ((dataRecord 0x14).memWrite .record 8 [56]).recField layoutRef q.len := by
  refine ⟨⟨by decide, fun L h => ?_⟩, by decide +kernel, by decide +kernel, by decide +kernel, ⟨by decide +kernel, ?_⟩,
    ⟨.dataInd, _, rfl, by decide +kernel, by decide +kernel⟩⟩
  · cases h
  · intro k K h
    cases k <;> cases h <;> decide +kernel

/-- Both data discriminators, with lengths 0 and 55. -/
theorem witness_DecodeReadsTheReferenceDataRecord :
    (record State.reset 64 [0x14]).layout = 0#4 ∧ (record State.reset 64 [0x14]).rlen = 64#16 ∧
    (record State.reset 64 [0x14]).bufByte .record 0 = 0x14#8 ∧ ((record State.reset 64 [0x14]).bufByte .record 8).toNat ≤ 55 ∧
    ((dataRecord 0x15).memWrite .record 8 [55]).bufByte .record 0 = 0x15#8 ∧
    (((dataRecord 0x15).memWrite .record 8 [55]).bufByte .record 8).toNat ≤ 55 := by decide +kernel

theorem witness_DecodeReadsTheOtherReferenceRecords :
    (record State.reset 64 [0x11]).layout = 0#4 ∧ (record State.reset 64 [0x11]).rlen = 64#16 ∧
    (record State.reset 64 [0x11]).bufByte .record 0 = 0x11#8 ∧ (record State.reset 64 [0x12]).bufByte .record 0 = 0x12#8 ∧
    (record State.reset 64 [0x13]).bufByte .record 0 = 0x13#8 ∧ (record State.reset 64 [0x16]).bufByte .record 0 = 0x16#8 := by
  decide +kernel

/-- Byte 63 of a data record whose payload is shorter: the last byte of the payload region. -/
theorem witness_DecodeIgnoresUnusedBytes :
    ∃ t K, (dataRecord 0x14).layoutInForce = some layoutRef ∧ layoutKind layoutRef .dataInd = some K ∧
      (dataRecord 0x14).get .rlen = layoutRef.cap ∧ K.disc = (dataRecord 0x14).recField layoutRef layoutRef.disc ∧
      63 < layoutRef.cap ∧ ¬ inSlot layoutRef.disc 63 ∧ (∀ rf ∈ K.scalars, ¬ inSlot rf.2 63) ∧
      (∀ bf ∈ K.blocks, ¬ inSlot bf.2 63) ∧
      (∀ q ∈ K.payload, ¬ inSlot ⟨q.region.off, (dataRecord 0x14).recField layoutRef q.len⟩ 63) ∧
      exec .dec (dataRecord 0x14) = .next t :=
  ⟨_, dataKindForm (layoutRef.dataInd.get rfl), by decide +kernel, rfl, by decide +kernel, by decide +kernel, by decide,
    by unfold inSlot; decide, by unfold inSlot; decide, by unfold inSlot; decide, by unfold inSlot; decide +kernel, rfl⟩

/-- FBITS 0 and 2040; 7, 2041 and 2048. -/
theorem witness_PackMakesBytesOfTheFrameBits :
    (State.reset.get .fbits % 8 = 0 ∧ State.reset.get .fbits ≤ 2040) ∧
    ({ State.reset with fbits := 2040 }.get .fbits % 8 = 0 ∧ { State.reset with fbits := 2040 }.get .fbits ≤ 2040) ∧
    { State.reset with fbits := 7 }.get .fbits % 8 ≠ 0 ∧ 2040 < { State.reset with fbits := 2041 }.get .fbits ∧
    2040 < { State.reset with fbits := 2048 }.get .fbits := by decide

/-- LEN 255 and 256. -/
theorem witness_UnpackMakesFrameBitsOfTheBytes :
    { State.reset with len := 255 }.get .len ≤ 255 ∧ 255 < { State.reset with len := 256 }.get .len := by decide

/-- PACK of an empty frame and UNPACK of one byte succeed; the state right after each keeps what the second reads. -/
theorem witness_PackAndUnpackUndoEachOther :
    (∃ t, exec .pack State.reset = .next t ∧ t.status = 0x00#8 ∧ t.get .len = t.get .len ∧
      ∀ i, i < 255 → t.bufByte .pay i = t.bufByte .pay i) ∧
    ∃ t, exec .unpack { State.reset with len := 1 } = .next t ∧ t.status = 0x00#8 ∧ t.get .fbits = t.get .fbits ∧
      ∀ i, i < 2040 → t.bufByte .frm i = t.bufByte .frm i :=
  ⟨⟨_, rfl, by decide +kernel, rfl, fun _ _ => rfl⟩, ⟨_, rfl, by decide +kernel, rfl, fun _ _ => rfl⟩⟩

theorem witness_DecodeGivesBackWhatEncodeTook :
    ∃ t K, (dataOperands State.reset).layoutInForce = some layoutRef ∧ layoutKind layoutRef .dataInd = some K ∧
      exec (encCommand .dataInd) (dataOperands State.reset) = .next t ∧ t.status = 0x00#8 ∧ t.layout = t.layout ∧
      t.params = t.params ∧ t.rlen = t.rlen ∧ ∀ i, i < 256 → t.bufByte .record i = t.bufByte .record i :=
  ⟨_, _, by decide +kernel, rfl, rfl, by decide +kernel, rfl, rfl, rfl, fun _ _ => rfl⟩

theorem witness_EncodeGivesBackWhatDecodeRead :
    ∃ t K, (dataRecord 0x15).layoutInForce = some layoutRef ∧ layoutKind layoutRef .dataReq = some K ∧
      exec .dec (dataRecord 0x15) = .next t ∧ t.status = 0x00#8 ∧ t.get .kind = kindCode .dataReq :=
  ⟨_, _, by decide +kernel, rfl, rfl, by decide +kernel, by decide +kernel⟩

/-- Frames of PAYCAP bytes and of one byte more, under LAYOUT_REF. -/
theorem witness_FrameSurvivesTheWholePath :
    ∃ K, ∃ q : Payload, { State.reset with fbits := 440 }.layoutInForce = some layoutRef ∧
      layoutKind layoutRef .dataInd = some K ∧ q ∈ K.payload ∧ { State.reset with fbits := 440 }.get .fbits % 8 = 0 ∧
      { State.reset with fbits := 440 }.get .fbits ≤ 2040 ∧
      (∀ rf ∈ K.scalars, rf.1 ≠ .len → { State.reset with fbits := 440 }.get rf.1 < 2 ^ (8 * rf.2.width)) ∧
      { State.reset with fbits := 440 }.get .fbits / 8 ≤ q.region.width ∧
      q.region.width < { State.reset with fbits := 448 }.get .fbits / 8 :=
  ⟨_, ⟨⟨8, 1⟩, ⟨9, 55⟩⟩, by decide +kernel, rfl, rfl, by decide, by decide, by decide +kernel, by decide, by decide⟩

end Sys2Proof.Tests
end

section
/-! SUPPORT. The decoder's words, and what each command does to `cp` and `EV` (10_state.md R43, R44), said once for the
sixteen commands and then for a host write. -/

namespace Sys2Proof.Machine

/-! The command words (30_encoding.md R71). -/

theorem decode_encode (i : Instr) : decode (encode i) = .ok i := by cases i <;> decide

/-- A decoded word stands in the table of R72. -/
theorem mem_commandTable_of_decode {v : PortWord} {i : Instr} (h : decode v = .ok i) : (v, i) ∈ commandTable := by
  unfold decode at h
  split at h
  next j hj =>
    obtain rfl := Except.ok.inj h
    obtain ⟨l₁, l₂, hl, -⟩ := List.lookup_eq_some_iff.mp hj
    simp [hl]
  next => cases h

theorem encode_of_mem_commandTable : ∀ row ∈ commandTable, encode row.2 = row.1 := by decide

theorem eq_encode_of_decode {v : PortWord} {i : Instr} (h : decode v = .ok i) : v = encode i :=
  (encode_of_mem_commandTable _ (mem_commandTable_of_decode h)).symm

/-! The commands. -/

theorem keepsHostSide.trans {s t u : State} (hst : keepsHostSide s t) (htu : keepsHostSide t u) : keepsHostSide s u := by
  obtain ⟨hcp, hev, hlayout, hparams, hpending, hreplies⟩ := hst
  obtain ⟨hcp', hev', hlayout', hparams', hpending', hreplies'⟩ := htu
  exact ⟨hcp'.trans hcp, hev'.trans hev, hlayout'.trans hlayout, hparams'.trans hparams, hpending'.trans hpending,
    hreplies'.trans hreplies⟩

theorem State.raise_keepsHostSide (s : State) (c : StatusCode) : keepsHostSide s (s.raise c) :=
  ⟨rfl, rfl, rfl, rfl, rfl, rfl⟩

theorem State.done_keepsHostSide (s : State) : keepsHostSide s s.done := s.raise_keepsHostSide .ok

theorem State.clearCells_keepsHostSide (s : State) : keepsHostSide s s.clearCells := ⟨rfl, rfl, rfl, rfl, rfl, rfl⟩

/-- A result register written, then the code raised: the shape of BLKNUM, MFPOS, CAUSE and a failing ROUTE. -/
theorem State.set_raise_keepsHostSide (s : State) {r : Reg} (h : r ≠ .cfg) (v : Nat) (c : StatusCode) :
    keepsHostSide s ((s.set r v).raise c) :=
  (State.set_keepsHostSide h v).trans (State.raise_keepsHostSide _ c)

/-- Every command but ROUTE completes; after its first act it changes nothing of `cp`, EV, CFG and the host's side. -/
theorem exec_keepsHostSide_of_ne_route {i : Instr} (hi : i ≠ .route) (s : State) :
    ∃ t, exec i s = .next t ∧ keepsHostSide s.start t := by
  cases i with
  | nop => exact ⟨_, exec_nop s, State.done_keepsHostSide _⟩
  | clr => exact ⟨_, exec_clr s, (State.clearCells_keepsHostSide _).trans (State.done_keepsHostSide _)⟩
  | encInfo => exact ⟨_, exec_encInfo s, State.encodeKind_keepsHostSide _ _⟩
  | encRa => exact ⟨_, exec_encRa s, State.encodeKind_keepsHostSide _ _⟩
  | encRts => exact ⟨_, exec_encRts s, State.encodeKind_keepsHostSide _ _⟩
  | encDind => exact ⟨_, exec_encDind s, State.encodeKind_keepsHostSide _ _⟩
  | encDreq => exact ⟨_, exec_encDreq s, State.encodeKind_keepsHostSide _ _⟩
  | encTime => exact ⟨_, exec_encTime s, State.encodeKind_keepsHostSide _ _⟩
  | dec => exact ⟨_, exec_dec s, State.decodeRecord_keepsHostSide _⟩
  | pack => exact ⟨_, exec_pack s, State.packFrame_keepsHostSide _⟩
  | unpack => exact ⟨_, exec_unpack s, State.unpackFrame_keepsHostSide _⟩
  | blknum =>
    exact ⟨_, exec_blknum s, (State.set_keepsHostSide (by decide) _).trans
      (State.set_raise_keepsHostSide _ (by decide) _ .ok)⟩
  | mfpos52 => exact ⟨_, exec_mfpos52 s, State.set_raise_keepsHostSide _ (by decide) _ .ok⟩
  | mfpos51 => exact ⟨_, exec_mfpos51 s, State.set_raise_keepsHostSide _ (by decide) _ .ok⟩
  | route => exact absurd rfl hi
  | cause =>
    obtain ⟨-, h⟩ | ⟨c, -, h⟩ := exec_cause_cases s
    · exact ⟨_, h, State.raise_keepsHostSide _ _⟩
    · exact ⟨_, h, State.set_raise_keepsHostSide _ (by decide) _ .ok⟩

/-- The state after a ROUTE that selects handler `h` (44_router.md R153). -/
def State.routedTo (s : State) (h : Handler) : State := ((s.start.set .hid (handlerId h)).emit h).done

@[simp] theorem State.routedTo_cp (s : State) (h : Handler) : (s.routedTo h).cp = s.cp + 1 := rfl

@[simp] theorem State.routedTo_ev (s : State) (h : Handler) : (s.routedTo h).ev = s.ev ++ [.invoke h] := rfl

@[simp] theorem State.routedTo_status (s : State) (h : Handler) : (s.routedTo h).status = statusNumber .ok := rfl

/-- HID holds the whole handler id: an id fits its three bits (R151). -/
@[simp] theorem State.routedTo_hid (s : State) (h : Handler) : (s.routedTo h).hid.toNat = handlerId h := by
  cases h <;> rfl

/-- What every command does to the host's side: it completes, and either keeps it after counting itself, being no ROUTE that
ends OK, or it is a ROUTE that selects a handler. -/
theorem exec_keepsHostSide_or_routes (i : Instr) (s : State) :
    (∃ t, exec i s = .next t ∧ keepsHostSide s.start t ∧ ¬ (i = .route ∧ t.status = statusNumber .ok)) ∨
    ∃ h, i = .route ∧ exec i s = .next (s.routedTo h) := by
  by_cases hi : i = .route
  · subst hi
    obtain ⟨-, h⟩ | ⟨-, h⟩ | ⟨k, -, h⟩ := exec_route_cases s
    · exact .inl ⟨_, h, State.set_raise_keepsHostSide _ (by decide) _ _, by simp [statusNumber]⟩
    · exact .inl ⟨_, h, State.set_raise_keepsHostSide _ (by decide) _ _, by simp [statusNumber]⟩
    · exact .inr ⟨k, rfl, h⟩
  · obtain ⟨t, h, hkeeps⟩ := exec_keepsHostSide_of_ne_route hi s
    exact .inl ⟨t, h, hkeeps, fun hroute => hi hroute.1⟩

/-- The same for any word written to CMD, legal or not (R55, R73): the word tells whether it is ROUTE. -/
theorem command_keepsHostSide_or_routes (v : PortWord) (s : State) :
    (∃ t, command v s = .next t ∧ keepsHostSide s.start t ∧ ¬ (v = encode .route ∧ t.status = statusNumber .ok)) ∨
    ∃ h, v = encode .route ∧ command v s = .next (s.routedTo h) := by
  obtain ⟨i, hi, hc⟩ | ⟨⟨e, he⟩, hc⟩ := command_cases v s
  · obtain rfl := eq_encode_of_decode hi
    obtain ⟨t, ht, hkeeps, hno⟩ | ⟨h, rfl, hr⟩ := exec_keepsHostSide_or_routes i s
    · refine .inl ⟨t, hc.trans ht, hkeeps, fun ⟨hword, hok⟩ => hno ⟨?_, hok⟩⟩
      exact Except.ok.inj (hi.symm.trans (hword ▸ decode_encode .route))
    · exact .inr ⟨h, rfl, hc.trans hr⟩
  · refine .inl ⟨_, hc, State.raise_keepsHostSide _ _, fun ⟨_, hok⟩ => ?_⟩
    simp [statusNumber] at hok

/-- Every word written to CMD completes and counts one command (R43). -/
theorem command_cp (v : PortWord) (s : State) : ∃ t, command v s = .next t ∧ t.cp = s.cp + 1 := by
  obtain ⟨t, ht, ⟨hcp, -⟩, -⟩ | ⟨h, -, hr⟩ := command_keepsHostSide_or_routes v s
  · exact ⟨t, ht, hcp⟩
  · exact ⟨_, hr, s.routedTo_cp h⟩

/-! The port events. -/

theorem hostWrite_cmd (v : PortWord) (s : State) :
    hostWrite 0x001#12 v s = command v (s.answer (.write .okay)) := rfl

/-- A write to any address but CMD's completes and touches neither `cp` nor EV. -/
theorem hostWrite_keeps_cp_ev {a : CellAddr} (ha : a ≠ 0x001#12) (v : PortWord) (s : State) :
    ∃ t, hostWrite a v s = .next t ∧ t.cp = s.cp ∧ t.ev = s.ev := by
  obtain ⟨hcmd, -⟩ | ⟨r, -, -, h⟩ | ⟨b, i, -, h⟩ | ⟨-, h⟩ := hostWrite_cases a v s
  · obtain ⟨rfl, -⟩ | ⟨_, -, hc⟩ | ⟨_, _, -, -, hc⟩ := cellAt_cases hcmd
    · exact absurd rfl ha
    · cases hc
    · cases hc
  · exact ⟨_, h, by simp, by simp⟩
  · exact ⟨_, h, rfl, rfl⟩
  · exact ⟨_, h, rfl, rfl⟩

section
variable {s : State} {rest : List PortEvent}

theorem step_of_no_event (h : s.pending = []) : step s = .next s := by simp [step, portStep, h]

theorem step_write_cmd {v : PortWord} (h : s.pending = .write 0x001#12 v :: rest) :
    step s = command v ((s.withPending rest).answer (.write .okay)) := step_cons h

theorem step_write {a : CellAddr} {v : PortWord} (h : s.pending = .write a v :: rest) :
    step s = hostWrite a v (s.withPending rest) := step_cons h

theorem step_read {a : CellAddr} (h : s.pending = .read a :: rest) :
    step s = .next ((s.withPending rest).answer ((s.withPending rest).readReply a)) := step_cons h

theorem step_reset (h : s.pending = .reset :: rest) : step s = .next (s.withPending rest).resetPulse := step_cons h

end

/-- A command run through the port appends to EV only in a ROUTE that ends OK (R44). -/
theorem command_ev_cases {v : PortWord} {s t : State} (h : command v s = .next t) :
    (t.ev = s.ev ∧ ¬ (v = encode .route ∧ t.status = statusNumber .ok)) ∨
    ∃ k, t.ev = s.ev ++ [.invoke k] ∧ v = encode .route ∧ t.status = statusNumber .ok ∧ t.hid.toNat = handlerId k := by
  obtain ⟨u, hu, ⟨-, hev, -⟩, hno⟩ | ⟨k, hroute, hr⟩ := command_keepsHostSide_or_routes v s
  · obtain rfl := Host.Outcome.next.inj (hu.symm.trans h)
    exact .inl ⟨hev, hno⟩
  · obtain rfl := Host.Outcome.next.inj (hr.symm.trans h)
    exact .inr ⟨k, s.routedTo_ev k, hroute, s.routedTo_status k, s.routedTo_hid k⟩

/-- EV after a step on any event but the reset input (R44). -/
theorem step_ev_cases {s t : State} {e : PortEvent} {rest : List PortEvent} (h : s.pending = e :: rest)
    (he : e ≠ .reset) (ht : step s = .next t) :
    (t.ev = s.ev ∧ ¬ (e = .write 0x001#12 (encode .route) ∧ t.status = 0x00#8)) ∨
    ∃ k, t.ev = s.ev ++ [.invoke k] ∧ e = .write 0x001#12 (encode .route) ∧ t.status = 0x00#8 ∧
      t.hid.toNat = handlerId k := by
  cases e with
  | reset => exact absurd rfl he
  | read a =>
    obtain rfl := Host.Outcome.next.inj ((step_read h).symm.trans ht)
    exact .inl ⟨rfl, fun ⟨hroute, _⟩ => by cases hroute⟩
  | write a v =>
    by_cases ha : a = 0x001#12
    · subst ha
      obtain ⟨hev, hno⟩ | ⟨k, hev, rfl, hok, hhid⟩ := command_ev_cases ((step_write_cmd h).symm.trans ht)
      · exact .inl ⟨hev, fun ⟨hroute, hok⟩ => hno ⟨(PortEvent.write.inj hroute).2, hok⟩⟩
      · exact .inr ⟨k, hev, rfl, hok, hhid⟩
    · obtain ⟨u, hu, -, hev⟩ := hostWrite_keeps_cp_ev ha v (s.withPending rest)
      obtain rfl := Host.Outcome.next.inj (hu.symm.trans ((step_write h).symm.trans ht))
      exact .inl ⟨hev, fun ⟨hroute, _⟩ => ha (PortEvent.write.inj hroute).1⟩

/-- Handler `h`'s pulse is bit `h-1` of h_invoke and no other (R44). -/
theorem getLsbD_invokePulse (h : Handler) (b : Nat) :
    (invokePulse (.invoke h)).getLsbD b = decide (b + 1 = handlerId h) := by
  obtain ⟨hlow, hhigh⟩ := handlerId_bounds h
  rw [Bool.eq_iff_iff]
  simp [invokePulse, BitVec.getLsbD_shiftLeft]
  omega

/-- EV is no cell: no register and no buffer cell shows it, so no read does. -/
theorem State.readReply_withEv (s : State) (e : List Event) (a : CellAddr) :
    State.readReply { s with ev := e } a = s.readReply a := by
  have hget (r : Reg) : State.get { s with ev := e } r = s.get r := by cases r <;> rfl
  unfold State.readReply
  cases cellAt a with
  | none => rfl
  | some c =>
    cases c with
    | reg r => simp only [hget]
    | cmd => rfl
    | buf b i => rfl

end Sys2Proof.Machine
end

section
/-! The statements about the state: `cp`, EV and the reset state (10_state.md R43, R44, R46). -/

namespace Sys2Proof.Machine

/-- Settles O8, by the kind of the event that waits. -/
theorem onlyCommandWritesAndResetChangeCp : Obligations.OnlyCommandWritesAndResetChangeCp := by
  refine ⟨rfl, fun s t ht => ⟨fun v rest h => ?_, fun a v rest h ha => ?_,
    fun a rest h => ?_, fun rest h => ?_, fun h => ?_⟩⟩
  · obtain ⟨u, hu, hcp⟩ := command_cp v ((s.withPending rest).answer (.write .okay))
    obtain rfl := Host.Outcome.next.inj (hu.symm.trans ((step_write_cmd h).symm.trans ht))
    exact hcp
  · obtain ⟨u, hu, hcp, -⟩ := hostWrite_keeps_cp_ev ha v (s.withPending rest)
    obtain rfl := Host.Outcome.next.inj (hu.symm.trans ((step_write h).symm.trans ht))
    exact hcp
  · obtain rfl := Host.Outcome.next.inj ((step_read h).symm.trans ht)
    rfl
  · obtain rfl := Host.Outcome.next.inj ((step_reset h).symm.trans ht)
    rfl
  · obtain rfl := Host.Outcome.next.inj ((step_of_no_event h).symm.trans ht)
    rfl

/-- Settles O9: the step by the kind of its event, the pulse and the reads by their own lemmas. -/
theorem onlyASuccessfulRouteAppendsAnEvent : Obligations.OnlyASuccessfulRouteAppendsAnEvent :=
  ⟨rfl, fun _ _ _ _ h he ht => step_ev_cases h he ht, getLsbD_invokePulse,
    fun s a e => s.readReply_withEv e a⟩

/-- Settles O19: the register cells one by one; the memory lists no cell, so each reads as unlisted. -/
theorem resetStateHoldsZeroEverywhere : Obligations.ResetStateHoldsZeroEverywhere :=
  ⟨fun r => by cases r <;> rfl, fun _ => Memory.read_of_forall_ne (m := []) (by simp), rfl, rfl⟩

end Sys2Proof.Machine
end

section
/-! SUPPORT. The host port's transactions, one equation per kind of cell (20_memory.md R51 to R58). -/

namespace Sys2Proof.Machine

/-! The address map. -/

theorem cellAt_reg_of_toNat {a : CellAddr} {r : Reg} (h : a.toNat = r.addr) : cellAt a = some (.reg r) := by
  have ha : a = BitVec.ofNat 12 r.addr := by rw [← h, BitVec.ofNat_toNat, BitVec.setWidth_eq]
  rw [ha, cellAt_reg]

/-- No register, not CMD and no buffer reaches into an unmapped range (R51). -/
theorem cellAt_of_unmapped {a : CellAddr} (h : unmapped a) : cellAt a = none := by
  rw [Option.eq_none_iff_forall_ne_some]
  intro c hc
  unfold unmapped at h
  obtain ⟨rfl, -⟩ | ⟨r, hr, -⟩ | ⟨b, i, hi, ha, -⟩ := cellAt_cases hc
  · simp [cmdAddr] at h
  · have := r.addr_lt
    omega
  · cases b <;> simp only [Buffer.base, Buffer.size] at hi ha <;> omega

/-- The five read-only registers by their addresses (R51). -/
theorem readOnly_of_mem {a : CellAddr} (h : a.toNat ∈ [0x002, 0x004, 0x00D, 0x011, 0x013]) :
    ∃ r : Reg, cellAt a = some (.reg r) ∧ r.access = .ro := by
  simp only [List.mem_cons, List.not_mem_nil, or_false] at h
  obtain h | h | h | h | h := h
  · exact ⟨.status, cellAt_reg_of_toNat h, rfl⟩
  · exact ⟨.kind, cellAt_reg_of_toNat h, rfl⟩
  · exact ⟨.mfpos, cellAt_reg_of_toNat h, rfl⟩
  · exact ⟨.hid, cellAt_reg_of_toNat h, rfl⟩
  · exact ⟨.cause, cellAt_reg_of_toNat h, rfl⟩

/-- How many values a cell of a buffer has: a bit in FRM, a byte elsewhere (R41, R42). -/
theorem Buffer.two_pow_width (b : Buffer) : 2 ^ b.width = if b = .frm then 2 else 256 := by cases b <;> rfl

/-! Host writes. -/

section
variable {a : CellAddr} {s : State}

theorem hostWrite_reg {r : Reg} (h : cellAt a = some (.reg r)) (hr : r.access = .rw) (v : PortWord) :
    hostWrite a v s = .next ((s.set r v.toNat).answer (.write .okay)) := by simp [hostWrite, h, hr]

theorem hostWrite_buf {b : Buffer} {i : Nat} (h : cellAt a = some (.buf b i)) (v : PortWord) :
    hostWrite a v s = .next ((s.writeBufCell b i v).answer (.write .okay)) := by simp [hostWrite, h]

theorem hostWrite_refused (h : cellAt a = none ∨ ∃ r : Reg, cellAt a = some (.reg r) ∧ r.access = .ro) (v : PortWord) :
    hostWrite a v s = .next (s.answer (.write .slverr)) := by
  obtain h | ⟨r, h, hr⟩ := h
  · simp [hostWrite, h]
  · simp [hostWrite, h, hr]

/-! Host reads. -/

/-- Every mapped cell but CMD answers what it holds (R57). -/
theorem State.readReply_of_cell {c : CellId} (h : cellAt a = some c) (hc : c ≠ .cmd) :
    s.readReply a = .read .okay (BitVec.ofNat 32 (s.cellValue c)) := by
  cases c with
  | reg r => simp [State.readReply, h, State.cellValue]
  | cmd => exact absurd rfl hc
  | buf b i => simp [State.readReply, h]

theorem State.readReply_refused (h : cellAt a = some .cmd ∨ cellAt a = none) : s.readReply a = .read .slverr 0#32 := by
  obtain h | h := h <;> simp [State.readReply, h]

end

/-! A buffer cell written. -/

section
variable (s : State) (b : Buffer) (i : Nat) (v : PortWord)

@[simp] theorem State.get_writeBufCell (r : Reg) : (s.writeBufCell b i v).get r = s.get r :=
  s.get_memWrite b i _ r

/-- The cell holds the low bits of its width: they fit the byte the cell is held as. -/
theorem State.toNat_read_writeBufCell_same :
    ((s.writeBufCell b i v).mem.read (b.base + i)).toNat = v.toNat % 2 ^ b.width := by
  have hfit : v.toNat % 2 ^ b.width < 2 ^ 8 := by
    rw [b.two_pow_width]
    split <;> omega
  have hread := s.mem.read_writeBlock_of_mem (b.base + i) [BitVec.ofNat 8 (v.toNat % 2 ^ b.width)] Nat.zero_lt_one
  calc ((s.writeBufCell b i v).mem.read (b.base + i)).toNat
      = (BitVec.ofNat 8 (v.toNat % 2 ^ b.width)).toNat := congrArg BitVec.toNat hread
    _ = v.toNat % 2 ^ b.width := by rw [BitVec.toNat_ofNat, Nat.mod_eq_of_lt hfit]

theorem State.read_writeBufCell_of_ne {x : Nat} (h : x ≠ b.base + i) :
    (s.writeBufCell b i v).mem.read x = s.mem.read x :=
  s.mem.read_writeBlock_of_not (b.base + i) _ (by simp only [List.length_singleton]; omega)

end

/-! A word written to CMD. -/

theorem command_of_decode {v : PortWord} {i : Instr} (h : decode v = .ok i) (s : State) : command v s = exec i s := by
  simp [command, h]

theorem command_of_illegal {v : PortWord} (h : ∀ i, decode v ≠ .ok i) (s : State) :
    command v s = .next (s.start.raise .eIllegal) := by
  obtain ⟨i, hi, -⟩ | ⟨-, hc⟩ := command_cases v s
  · exact absurd hi (h i)
  · exact hc

/-- Every word counts one command and leaves the host's lists as they are (R43, R55). -/
theorem command_counts_and_keeps_lists (v : PortWord) (s : State) :
    ∃ t, command v s = .next t ∧ t.cp = s.cp + 1 ∧ t.replies = s.replies ∧ t.pending = s.pending := by
  obtain ⟨t, ht, ⟨hcp, -, -, -, hpending, hreplies⟩, -⟩ | ⟨h, -, hr⟩ := command_keepsHostSide_or_routes v s
  · exact ⟨t, ht, hcp, hreplies, hpending⟩
  · exact ⟨_, hr, s.routedTo_cp h, rfl, rfl⟩

end Sys2Proof.Machine
end

section
/-! The statements about the host port (20_memory.md R53 to R58). -/

namespace Sys2Proof.Machine

/-- Settles O24: the step is the register's own update, so the laws of `State.set` give each field. -/
theorem registerWriteKeepsTheLowBits : Obligations.RegisterWriteKeepsTheLowBits := by
  intro s r v rest hr h
  refine ⟨_, (step_write h).trans (hostWrite_reg (cellAt_reg r) hr v), by simp, fun q hq => ?_, by simp, by simp, by simp,
    by simp, by simp, by simp⟩
  have hne : q ≠ r := by simpa using hq
  simp [hne]

/-- Settles O25: the step writes the one cell, whose value and whose frame are the laws of a written cell. -/
theorem bufferWriteChangesOneCell : Obligations.BufferWriteChangesOneCell := by
  intro s b i v rest hi h
  refine ⟨_, (step_write h).trans (hostWrite_buf (cellAt_buf hi) v), ?_, fun a ha => ?_, fun r _ => by simp, rfl, rfl, rfl,
    rfl, rfl⟩
  · rw [← b.two_pow_width]
    exact State.toNat_read_writeBufCell_same _ b i v
  · exact State.read_writeBufCell_of_ne _ b i v ha

/-- Settles O26: a read-only register and no cell at all are refused alike. -/
theorem refusedWriteChangesNothing : Obligations.RefusedWriteChangesNothing := by
  intro s a v rest h ha
  have hrefused : cellAt a = none ∨ ∃ r : Reg, cellAt a = some (.reg r) ∧ r.access = .ro :=
    ha.symm.imp cellAt_of_unmapped readOnly_of_mem
  exact (step_write h).trans (hostWrite_refused hrefused v)

/-- Settles O27: the reply shows the cell's value, which the event taken off the list does not touch. -/
theorem readAnswersTheCellAndChangesNothing : Obligations.ReadAnswersTheCellAndChangesNothing := by
  refine ⟨fun s r rest h => ?_, fun s b i rest hi h => ?_⟩
  · rw [step_read h, State.readReply_of_cell (cellAt_reg r) (by simp), State.cellValue, State.get_withPending]
    rfl
  · rw [step_read h, State.readReply_of_cell (cellAt_buf hi) (by simp), State.cellValue, b.two_pow_width]
    rfl

/-- Settles O4: every word completes; which of the two outcomes it has is the decoder's answer. -/
theorem stepRunsTheWrittenCommand : Obligations.StepRunsTheWrittenCommand := by
  intro s v rest h
  refine ⟨?_, fun i hi => (step_write_cmd h).trans (command_of_decode hi _),
    fun hi => (step_write_cmd h).trans (command_of_illegal hi _)⟩
  obtain ⟨t, ht, hcp, hreplies, hpending⟩ := command_counts_and_keeps_lists v ((s.withPending rest).answer (.write .okay))
  exact ⟨t, (step_write_cmd h).trans ht, hcp, hreplies, hpending⟩

/-- Settles O28: CMD and no cell at all are refused alike. -/
theorem refusedReadAnswersZero : Obligations.RefusedReadAnswersZero := by
  intro s a rest h ha
  have hrefused : cellAt a = some .cmd ∨ cellAt a = none :=
    ha.imp (by rintro rfl; exact cellAt_cmd) cellAt_of_unmapped
  rw [step_read h, State.readReply_refused hrefused]
  rfl

end Sys2Proof.Machine
end

section
/-! SUPPORT. The fields of a command word (30_encoding.md R70) and which fields are those of a command (R72, R73). -/

namespace Sys2Proof

/-! Taking a word apart and putting it together are inverse: every bit of a word is in one field (R70). -/

@[simp] theorem fieldsOf_wordOf (c : CmdFields) : fieldsOf (wordOf c) = c := by
  obtain ⟨zero, unit, op, arg⟩ := c
  have hzero : (zero ++ unit ++ op ++ arg).extractLsb' 16 16 = zero := by
    rw [BitVec.extractLsb'_append_eq_of_le (by decide), BitVec.extractLsb'_append_eq_of_le (by decide)]
    exact BitVec.extractLsb'_append_eq_left
  have hunit : (zero ++ unit ++ op ++ arg).extractLsb' 12 4 = unit := by
    rw [BitVec.extractLsb'_append_eq_of_le (by decide), BitVec.extractLsb'_append_eq_of_le (by decide)]
    exact BitVec.extractLsb'_append_eq_right
  have hop : (zero ++ unit ++ op ++ arg).extractLsb' 8 4 = op := by
    rw [BitVec.extractLsb'_append_eq_of_le (by decide)]
    exact BitVec.extractLsb'_append_eq_right
  exact CmdFields.mk.injEq .. ▸ ⟨hzero, hunit, hop, BitVec.extractLsb'_append_eq_right⟩

@[simp] theorem wordOf_fieldsOf (v : PortWord) : wordOf (fieldsOf v) = v := by
  have hhigh : v.extractLsb' 16 16 ++ v.extractLsb' 12 4 = v.extractLsb' 12 20 :=
    BitVec.extractLsb'_append_extractLsb'_eq_extractLsb' rfl
  have hupper : v.extractLsb' 12 20 ++ v.extractLsb' 8 4 = v.extractLsb' 8 24 :=
    BitVec.extractLsb'_append_extractLsb'_eq_extractLsb' rfl
  calc wordOf (fieldsOf v)
      = v.extractLsb' 16 16 ++ v.extractLsb' 12 4 ++ v.extractLsb' 8 4 ++ v.extractLsb' 0 8 := rfl
    _ = v.extractLsb' 8 24 ++ v.extractLsb' 0 8 := by rw [hhigh, hupper]
    _ = v := BitVec.extractLsb'_append_extractLsb'

@[simp] theorem fieldsOf_encode (i : Instr) : fieldsOf (encode i) = commandFields i := fieldsOf_wordOf _

/-- A word is a command's exactly when its fields are the command's. -/
theorem eq_encode_iff {v : PortWord} {i : Instr} : v = encode i ↔ fieldsOf v = commandFields i := by
  constructor
  · rintro rfl
    exact fieldsOf_encode i
  · intro h
    rw [encode, ← h, wordOf_fieldsOf]

/-! The fields that pass the four checks of R73 are those of the sixteen rows of R72. -/

theorem CmdFields.wf_iff {c : CmdFields} :
    c.wf = true ↔ zeroFieldOk c = true ∧ unitFieldOk c = true ∧ opFieldOk c = true ∧ argFieldOk c = true := by
  simp [CmdFields.wf, and_assoc]

theorem zeroFieldOk_iff {c : CmdFields} : zeroFieldOk c = true ↔ c.zero = 0#16 := beq_iff_eq

theorem unitFieldOk_iff {c : CmdFields} : unitFieldOk c = true ↔ c.unit.toNat < 4 := decide_eq_true_iff

theorem opFieldOk_iff {c : CmdFields} : opFieldOk c = true ↔ c.op.toNat < if c.unit = 1#4 then 4 else 2 := by
  unfold opFieldOk
  split <;> exact decide_eq_true_iff

/-- `ARG` of ENC is a kind code, and each of the six kinds has its command (R72, R74). -/
theorem exists_encCommand_of_arg {a : BitVec 8} (h : 1 ≤ a.toNat ∧ a.toNat ≤ 6) :
    ∃ k, commandFields (encCommand k) = { zero := 0, unit := 1, op := 0, arg := a } := by
  have hcodes : a = 1#8 ∨ a = 2#8 ∨ a = 3#8 ∨ a = 4#8 ∨ a = 5#8 ∨ a = 6#8 := by bv_omega
  obtain rfl | rfl | rfl | rfl | rfl | rfl := hcodes
  · exact ⟨.infoInd, rfl⟩
  · exact ⟨.raInd, rfl⟩
  · exact ⟨.rtsInd, rfl⟩
  · exact ⟨.dataInd, rfl⟩
  · exact ⟨.dataReq, rfl⟩
  · exact ⟨.timeInd, rfl⟩

/-- `ARG` of MFPOS is a multiframe length (R72). -/
theorem exists_mfpos_of_arg {a : BitVec 8} (h : a.toNat = mf ∨ a.toNat = mf51) :
    ∃ i, commandFields i = { zero := 0, unit := 2, op := 1, arg := a } := by
  unfold mf mf51 at h
  obtain h | h := h
  · obtain rfl : a = 0x34#8 := by bv_omega
    exact ⟨.mfpos52, rfl⟩
  · obtain rfl : a = 0x33#8 := by bv_omega
    exact ⟨.mfpos51, rfl⟩

/-- Every operation of a unit but ENC and MFPOS has a command whose `ARG` is 0 (R72). -/
theorem exists_row_of_zero_arg : ∀ u o : BitVec 4, u.toNat < 4 → (o.toNat < if u = 1#4 then 4 else 2) →
    ¬ (u = 1#4 ∧ o = 0#4) → ¬ (u = 2#4 ∧ o = 1#4) →
    ∃ row ∈ commandTable, commandFields row.2 = { zero := 0, unit := u, op := o, arg := 0 } := by decide

/-- Fields that pass the four checks are those of a row of R72, by the three rules for `ARG`. -/
theorem exists_commandFields_of_wf {c : CmdFields} (h : c.wf = true) : ∃ i, commandFields i = c := by
  obtain ⟨hzero, hunit, hop, harg⟩ := CmdFields.wf_iff.mp h
  rw [zeroFieldOk_iff] at hzero
  rw [unitFieldOk_iff] at hunit
  rw [opFieldOk_iff] at hop
  obtain ⟨zero, unit, op, arg⟩ := c
  obtain rfl : zero = 0#16 := hzero
  unfold argFieldOk at harg
  split at harg
  next henc =>
    obtain ⟨rfl, rfl⟩ := henc
    obtain ⟨k, hk⟩ := exists_encCommand_of_arg (of_decide_eq_true harg)
    exact ⟨encCommand k, hk⟩
  next henc =>
    split at harg
    next hmfpos =>
      obtain ⟨rfl, rfl⟩ := hmfpos
      exact exists_mfpos_of_arg (of_decide_eq_true harg)
    next hmfpos =>
      obtain rfl : arg = 0#8 := beq_iff_eq.mp harg
      obtain ⟨row, -, hrow⟩ := exists_row_of_zero_arg unit op hunit hop henc hmfpos
      exact ⟨row.2, hrow⟩

/-- None of the four reasons of R73 applies to an encoded command. -/
theorem fieldsOf_encode_wf : ∀ i, (fieldsOf (encode i)).wf = true
  | .nop => Laws.EncodedFields.nop
  | .clr => Laws.EncodedFields.clr
  | .encInfo => Laws.EncodedFields.encInfo
  | .encRa => Laws.EncodedFields.encRa
  | .encRts => Laws.EncodedFields.encRts
  | .encDind => Laws.EncodedFields.encDind
  | .encDreq => Laws.EncodedFields.encDreq
  | .encTime => Laws.EncodedFields.encTime
  | .dec => Laws.EncodedFields.dec
  | .pack => Laws.EncodedFields.pack
  | .unpack => Laws.EncodedFields.unpack
  | .blknum => Laws.EncodedFields.blknum
  | .mfpos52 => Laws.EncodedFields.mfpos52
  | .mfpos51 => Laws.EncodedFields.mfpos51
  | .route => Laws.EncodedFields.route
  | .cause => Laws.EncodedFields.cause

/-- The words whose fields pass the four checks are the encodings (R73). -/
theorem wf_fieldsOf_iff (v : PortWord) : (fieldsOf v).wf = true ↔ ∃ i, v = encode i := by
  constructor
  · intro h
    obtain ⟨i, hi⟩ := exists_commandFields_of_wf h
    exact ⟨i, eq_encode_iff.mpr hi.symm⟩
  · rintro ⟨i, rfl⟩
    exact fieldsOf_encode_wf i

end Sys2Proof
end

section
/-! The statements about the command words (30_encoding.md R71 to R73). -/

namespace Sys2Proof.Machine

/-- Settles O1: a decoded word stands in the table, whose words are the encodings; and decoding undoes encoding. -/
theorem decodeReadsExactlyTheEncodings : Obligations.DecodeReadsExactlyTheEncodings := by
  refine fun v i => ⟨eq_encode_of_decode, ?_⟩
  rintro rfl
  exact decode_encode i

/-- Settles O3: the fields decide which words are illegal; the step on one is the port's rule for a word that decodes to
nothing. -/
theorem illegalWordsAreThoseWithAWrongField : Obligations.IllegalWordsAreThoseWithAWrongField := by
  refine ⟨fun v => ?_, fun s v rest h hv => ?_⟩
  · rw [← not_exists, ← wf_fieldsOf_iff, Bool.not_eq_true]
  · have hillegal : ∀ i, decode v ≠ .ok i := fun i hi => hv i (eq_encode_of_decode hi)
    exact (step_write_cmd h).trans (command_of_illegal hillegal _)

/-- Settles O2: each row's word is put together from its fields, so the inverses give the decoder and the fields. -/
theorem tableWordsDecodeToTheirCommands : Obligations.TableWordsDecodeToTheirCommands := by
  refine ⟨fun row hrow => ?_, fun k => ?_⟩
  · have hword : encode row.2.1 = row.1 ∧ commandFields row.2.1 =
        { zero := 0#16, unit := BitVec.ofNat 4 row.2.2.1, op := BitVec.ofNat 4 row.2.2.2.1,
          arg := BitVec.ofNat 8 row.2.2.2.2 } := by
      revert row
      decide
    obtain ⟨hencode, hfields⟩ := hword
    rw [← hencode]
    exact ⟨decode_encode _, rfl, (fieldsOf_encode _).trans hfields⟩
  · rw [fieldsOf_encode]
    cases k <;> rfl

end Sys2Proof.Machine
end

section
/-! SUPPORT. The words of unit 0 (30_encoding.md R72) and the registers after CLR's clearing of the cells. -/

namespace Sys2Proof.Machine

/-- A word with 0 in its upper 24 bits is put together from fields that are 0 but for `ARG` (R70). -/
theorem fieldsOf_zero_append (a : BitVec 8) :
    fieldsOf (0x000000#24 ++ a) = { zero := 0, unit := 0, op := 0, arg := a } := by
  have hupper : 0x000000#24 = 0#16 ++ 0#4 ++ 0#4 := by decide
  rw [hupper]
  exact fieldsOf_wordOf { zero := 0, unit := 0, op := 0, arg := a }

/-- `ARG` of NOP is 0: with another `ARG` the word is illegal, not NOP (R73, R100). -/
theorem decode_zero_append_ne_ok {a : BitVec 8} (ha : a ≠ 0x00#8) (i : Instr) :
    decode (0x000000#24 ++ a) ≠ .ok i := by
  intro h
  have hwf : (fieldsOf (0x000000#24 ++ a)).wf = true := (wf_fieldsOf_iff _).mpr ⟨i, eq_encode_of_decode h⟩
  rw [fieldsOf_zero_append] at hwf
  obtain ⟨-, -, -, harg⟩ := CmdFields.wf_iff.mp hwf
  exact ha (beq_iff_eq.mp harg)

/-- Of the registers, clearing the cells leaves CFG and STATUS alone; the others it makes 0. -/
theorem State.get_clearCells (s : State) (r : Reg) :
    s.clearCells.get r = if r = .cfg ∨ r = .status then s.get r else 0 := by cases r <;> rfl

/-- After CLR, STATUS is 0 by `done` and every other register but CFG by the clearing (R101). -/
theorem State.get_clearCells_done_of_ne {r : Reg} (h : r ≠ .cfg) (s : State) : s.clearCells.done.get r = 0 := by
  by_cases hstatus : r = .status
  · subst hstatus
    rfl
  · rw [State.get_done_of_ne _ hstatus, State.get_clearCells, if_neg (by simp [h, hstatus])]

end Sys2Proof.Machine
end

section
/-! The statements about unit 0: NOP and CLR (40_system.md R100, R101). -/

namespace Sys2Proof.Machine

/-- Settles O23: the registers by the law of the clearing; the memory lists no cell, so each reads as unlisted. -/
theorem clrZeroesEveryCellButCfg : Obligations.ClrZeroesEveryCellButCfg := by
  refine ⟨by decide, fun s => ⟨s.start.clearCells.done, exec_clr s, fun r hr => ?_, rfl, fun _ => rfl, ?_⟩⟩
  · exact State.get_clearCells_done_of_ne hr s.start
  · exact ⟨rfl, rfl, rfl, rfl, rfl⟩

/-- Settles O22: a word that decodes to NOP is NOP's encoding; another `ARG` fails the field check. -/
theorem nopWritesStatusOnly : Obligations.NopWritesStatusOnly := by
  have hword : encode .nop = 0x00000000#32 := by decide
  refine ⟨hword, fun v hv hdecode => ?_, fun a ha i => decode_zero_append_ne_ok ha i, exec_nop⟩
  exact hv ((eq_encode_of_decode hdecode).trans hword)

end Sys2Proof.Machine
end

section
/-! SUPPORT. When no layout is in force (30_encoding.md R77, R80), and the refusal of ENC.k (41_codec_encode.md R106). -/

namespace Sys2Proof.Machine

/-- No layout is in force exactly when CFG selects no entry, or one that is not well-formed; id 0 always has one (R80). -/
theorem State.layoutInForce_eq_none_iff {s : State} : s.layoutInForce = none ↔ layoutUndefined s := by
  unfold State.layoutInForce layoutOf layoutUndefined
  by_cases hid : s.layout = 0#4
  · simp [hid]
  · cases s.params.layouts.lookup s.layout <;> simp [hid]

/-- Without a layout in force that has the kind, ENC.k stops at its first check: every other case of it has both. -/
theorem State.encodeKind_refused {s : State} {k : Kind}
    (h : s.layoutInForce = none ∨ ∃ L, s.layoutInForce = some L ∧ layoutKind L k = none) :
    s.encodeKind k = s.raise .eLayout := by
  obtain ⟨-, hraise⟩ | ⟨L, K, hL, -, hK, -⟩ := s.encodeKind_cases k
  · exact hraise
  · obtain hnone | ⟨L', hL', hK'⟩ := h
    · simp [hL] at hnone
    · obtain rfl : L = L' := Option.some.inj (hL.symm.trans hL')
      simp [hK] at hK'

end Sys2Proof.Machine
end

section
/-! The statements about the encode commands (41_codec_encode.md R106). -/

namespace Sys2Proof.Machine

/-- Settles O46: the count of the command leaves the layout in force as it was, and the check of R106 then raises. -/
theorem encodeWithoutLayoutOrKindIsRefused : Obligations.EncodeWithoutLayoutOrKindIsRefused := by
  intro s k h
  have hrefused : s.start.layoutInForce = none ∨ ∃ L, s.start.layoutInForce = some L ∧ layoutKind L k = none :=
    h.imp_left State.layoutInForce_eq_none_iff.mpr
  rw [exec_encCommand, State.encodeKind_refused hrefused]
  rfl

end Sys2Proof.Machine
end

section
/-! SUPPORT. What DEC, PACK and UNPACK do when they end OK, each from the state before the command and with the command's own
count (42_codec_decode_frame.md R122, R126, R127). -/

namespace Sys2Proof.Machine

variable {s : State}

/-! The count of the command is no operand: what the codec reads is the same before it and after it. -/

@[simp] theorem State.memRead_start (b : Buffer) (off n : Nat) : s.start.memRead b off n = s.memRead b off n := rfl

@[simp] theorem State.frameBits_start (n : Nat) : s.start.frameBits n = s.frameBits n := rfl

@[simp] theorem State.recField_start (L : Layout) (f : Slot) : s.start.recField L f = s.recField L f := rfl

/-- A block read depends on the block's cells alone. -/
theorem State.memRead_congr {t : State} {b : Buffer} {n : Nat} (h : ∀ i, i < n → t.bufByte b i = s.bufByte b i) :
    t.memRead b 0 n = s.memRead b 0 n :=
  Memory.readBlock_congr h

theorem State.frameBits_congr {t : State} {n : Nat} (h : ∀ i, i < n → t.bufByte .frm i = s.bufByte .frm i) :
    t.frameBits n = s.frameBits n :=
  congrArg (List.map cellBit) (State.memRead_congr h)

theorem padTo_of_length_le {n : Nat} {l : List Byte} (h : l.length ≤ n) :
    padTo n l = l ++ List.replicate (n - l.length) 0#8 := by
  rw [padTo, List.take_of_length_le h]

/-! DEC. -/

section
variable {L : Layout} {K : KindForm} {k : Kind}

/-- A DEC whose tests pass, as a command (R121). -/
theorem exec_dec_accept (hL : s.layoutInForce = some L) (hlen : s.get .rlen = L.cap) (hK : layoutKind L k = some K)
    (hd : s.recField L L.disc = K.disc) (hw : ∀ q ∈ K.payload, s.recField L q.len ≤ q.region.width) :
    exec .dec s = .next (s.start.decAccept L k K) := by
  have hlen' : s.start.get .rlen = L.cap := (s.get_start .rlen).trans hlen
  rw [exec_dec, State.decodeRecord_accept (s := s.start) hL hlen' hK hd (State.wireLenTooLong_eq_false.mpr hw)]

/-- A buffer a successful DEC writes, read whole: the bytes read out of REC, then 0 (R122). -/
theorem State.memRead_decAccept (hK : layoutKind L k = some K) {b : Buffer} {l : List Byte} (h : (b, l) ∈ s.recBlocks L K)
    (hl : l.length ≤ b.size) :
    (s.decAccept L k K).memRead b 0 b.size = l ++ List.replicate (b.size - l.length) 0#8 := by
  rw [← padTo_of_length_le hl]
  apply List.ext_getElem (by simp)
  intro i h1 h2
  rw [State.getElem_memRead, Nat.zero_add, getElem_padTo, State.bufByte_decAccept hK h (by simpa using h2)]

/-- The buffers a DEC of a kind writes: PAY for a data kind, CELLCFG and TMRCFG for the info kind (R122). -/
theorem recBlocks_key_cases (hK : layoutKind L k = some K) {b : Buffer} (h : b ∈ (s.recBlocks L K).map Prod.fst) :
    (b = .pay ∧ K.payload ≠ none) ∨ ((b = .cellcfg ∨ b = .tmrcfg) ∧ K.blocks ≠ []) := by
  obtain ⟨-, -, -, hblock, -, -, -⟩ := kindShape hK
  rw [recBlocks_keys] at h
  obtain h | h := List.mem_append.mp h
  · obtain ⟨q, hq, rfl⟩ := List.mem_map.mp h
    exact .inl ⟨rfl, by simp [Option.mem_toList.mp hq]⟩
  · exact .inr ⟨hblock b h, fun hnil => by simp [hnil] at h⟩

/-- Outside PAY for a data kind, and outside CELLCFG and TMRCFG for the info kind, a successful DEC writes no cell. -/
theorem State.read_decAccept_of_outside (hK : layoutKind L k = some K) {a : Nat}
    (hpay : ¬ (K.payload ≠ none ∧ 0x200 ≤ a ∧ a ≤ 0x2FE)) (hcfg : ¬ (K.blocks ≠ [] ∧ 0x300 ≤ a ∧ a ≤ 0x37F)) :
    (s.decAccept L k K).mem.read a = s.mem.read a := by
  refine State.read_decAccept_of_not fun b hb hin => ?_
  obtain ⟨rfl, hdata⟩ | ⟨rfl | rfl, hinfo⟩ := recBlocks_key_cases hK hb <;> simp only [Buffer.base, Buffer.size] at hin
  · exact hpay ⟨hdata, by omega, by omega⟩
  · exact hcfg ⟨hinfo, by omega, by omega⟩
  · exact hcfg ⟨hinfo, by omega, by omega⟩

end

/-! What PACK and UNPACK share. -/

/-- A whole buffer and one register written, the command counted and done: the shape of PACK and UNPACK. -/
def State.wroteWhole (s : State) (b : Buffer) (bytes : List Byte) (r : Reg) (v : Nat) : State :=
  ((s.start.writeWhole b bytes).set r v).done

section
variable (b : Buffer) (bytes : List Byte) (r : Reg) (v : Nat)

@[simp] theorem State.wroteWhole_status : (s.wroteWhole b bytes r v).status = 0x00#8 := rfl

theorem State.get_wroteWhole_same {r : Reg} (h : r ≠ .status) :
    (s.wroteWhole b bytes r v).get r = v % 2 ^ r.width := by
  rw [State.wroteWhole, State.get_done_of_ne _ h, State.get_set_same]

theorem State.wroteWhole_keeps_regs : regsKeptBut [r, .status] s (s.wroteWhole b bytes r v) := by
  intro q hq
  obtain ⟨hr, hstatus⟩ : q ≠ r ∧ q ≠ .status := by simpa using hq
  rw [State.wroteWhole, State.get_done_of_ne _ hstatus, State.get_set_of_ne _ hr, State.writeWhole, State.get_memWrite,
    State.get_start]

theorem State.read_wroteWhole (a : Nat) :
    (s.wroteWhole b bytes r v).mem.read a =
      if b.base ≤ a ∧ a < b.base + b.size then bytes.getD (a - b.base) 0#8 else s.mem.read a := by
  rw [State.wroteWhole, State.done_mem, State.set_mem, State.read_writeWhole, State.start_mem]

theorem State.bufByte_wroteWhole {i : Nat} (h : i < b.size) :
    (s.wroteWhole b bytes r v).bufByte b i = bytes.getD i 0#8 := by
  rw [State.bufByte, State.read_wroteWhole, if_pos (by omega), Nat.add_sub_cancel_left]

theorem State.wroteWhole_keeps_cells : cellsKeptOutside b.base b.size s (s.wroteWhole b bytes r v) := fun a ha => by
  rw [State.read_wroteWhole, if_neg ha]

theorem State.wroteWhole_counts : countsOneCommand s (s.wroteWhole b bytes r v) := by
  simp [countsOneCommand, State.wroteWhole, State.writeWhole]

end

/-- The bytes just written read back. -/
theorem State.memRead_wroteWhole {b : Buffer} {bytes : List Byte} (h : bytes.length ≤ b.size) (r : Reg) (v : Nat) :
    (s.wroteWhole b bytes r v).memRead b 0 bytes.length = bytes := by
  apply List.ext_getElem (by simp)
  intro i h1 h2
  rw [State.getElem_memRead, Nat.zero_add, State.bufByte_wroteWhole b bytes r v (by omega), List.getD_eq_getElem _ _ h2]

/-! PACK. -/

/-- The bytes PACK makes of the frame in FRM (R126). -/
def State.packedFrame (s : State) : List Byte := packBits (s.frameBits (s.get .fbits))

/-- The state after a PACK that ends OK (R126). -/
def State.packed (s : State) : State := s.wroteWhole .pay s.packedFrame .len (s.get .fbits / 8)

theorem exec_pack_of_whole (h8 : s.get .fbits % 8 = 0) (hmax : s.get .fbits ≤ 2040) :
    exec .pack s = .next s.packed := by
  obtain ⟨hbad, -⟩ | ⟨-, -, h⟩ := s.start.packFrame_cases
  · rw [State.get_start] at hbad
    omega
  · rw [exec_pack, h, State.get_start, State.frameBits_start]
    rfl

theorem exec_pack_refused (hbad : s.get .fbits % 8 ≠ 0 ∨ 2040 < s.get .fbits) :
    exec .pack s = .next (s.start.raise .eFrame) := by
  obtain ⟨-, h⟩ | ⟨h8, hmax, -⟩ := s.start.packFrame_cases
  · rw [exec_pack, h]
  · rw [State.get_start] at h8 hmax
    omega

/-- A PACK that ended OK had a frame of whole bytes that FRM can hold. -/
theorem exec_pack_ok {t : State} (h : exec .pack s = .next t) (hok : t.status = 0x00#8) :
    s.get .fbits % 8 = 0 ∧ s.get .fbits ≤ 2040 ∧ t = s.packed := by
  by_cases hbad : s.get .fbits % 8 ≠ 0 ∨ 2040 < s.get .fbits
  · obtain rfl := Host.Outcome.next.inj ((exec_pack_refused hbad).symm.trans h)
    simp [statusNumber] at hok
  · obtain ⟨h8, hmax⟩ : s.get .fbits % 8 = 0 ∧ s.get .fbits ≤ 2040 := by omega
    exact ⟨h8, hmax, (Host.Outcome.next.inj ((exec_pack_of_whole h8 hmax).symm.trans h)).symm⟩

/-- LEN has room for the number of bytes of any frame. -/
@[simp] theorem State.get_packed_len : s.packed.get .len = s.get .fbits / 8 := by
  have := s.get_lt .fbits
  rw [State.packed, State.get_wroteWhole_same _ _ _ (by decide)]
  simp only [Reg.width] at this ⊢
  omega

theorem State.length_packedFrame (h8 : s.get .fbits % 8 = 0) : s.packedFrame.length = s.get .fbits / 8 :=
  length_packBits _ _ (by rw [State.length_frameBits]; omega)

theorem State.bufByte_packed {i : Nat} (h : i < 255) : s.packed.bufByte .pay i = s.packedFrame.getD i 0#8 :=
  State.bufByte_wroteWhole _ _ _ _ h

/-- Unpacking the bytes PACK made gives the frame again (R128). -/
theorem State.unpackBits_packedFrame (h8 : s.get .fbits % 8 = 0) :
    unpackBits s.packedFrame = s.frameBits (s.get .fbits) :=
  unpackBits_packBits (s.get .fbits / 8) _ (by rw [State.length_frameBits]; omega)

/-- Bit `7 - j` of byte `i` is the frame's bit `8i + j` (20_memory.md R60). -/
theorem State.getLsbD_packedFrame (h8 : s.get .fbits % 8 = 0) {i j : Nat} (hi : i < s.packedFrame.length) (hj : j < 8) :
    s.packedFrame[i].getLsbD (7 - j) = cellBit (s.bufByte .frm (8 * i + j)) := by
  rw [← getElem_unpackBits _ i j hi hj]
  simp only [State.unpackBits_packedFrame h8, State.getElem_frameBits]

/-- A byte is the sum of its bits, the first the most significant (R60). -/
theorem toNat_eq_sum_bits (b : Byte) :
    b.toNat = ((List.range 8).map fun j => (b.getLsbD (7 - j)).toNat * 2 ^ (7 - j)).sum := by
  revert b
  decide +kernel

theorem toNat_cellBit (b : Byte) : (cellBit b).toNat = b.toNat % 2 := by
  revert b
  decide +kernel

/-- Each byte PACK makes is the sum of its eight frame bits (R126). -/
theorem State.toNat_packedFrame (h8 : s.get .fbits % 8 = 0) {i : Nat} (hi : i < s.packedFrame.length) :
    s.packedFrame[i].toNat =
      ((List.range 8).map fun j => (s.bufByte .frm (8 * i + j)).toNat % 2 * 2 ^ (7 - j)).sum := by
  rw [toNat_eq_sum_bits]
  congr 1
  refine List.map_congr_left fun j hj => ?_
  rw [State.getLsbD_packedFrame h8 hi (List.mem_range.mp hj), toNat_cellBit]

/-! UNPACK. -/

/-- The frame bits UNPACK makes of the payload in PAY (R127). -/
def State.unpackedPayload (s : State) : List Bool := unpackBits (s.memRead .pay 0 (s.get .len))

/-- The state after an UNPACK that ends OK (R127). -/
def State.unpacked (s : State) : State :=
  s.wroteWhole .frm (s.unpackedPayload.map bitCell) .fbits (8 * s.get .len)

theorem exec_unpack_of_fits (h : s.get .len ≤ 255) : exec .unpack s = .next s.unpacked := by
  obtain ⟨hlong, -⟩ | ⟨-, hr⟩ := s.start.unpackFrame_cases
  · rw [State.get_start] at hlong
    omega
  · rw [exec_unpack, hr, State.get_start, State.memRead_start]
    rfl

theorem exec_unpack_refused (h : 255 < s.get .len) : exec .unpack s = .next (s.start.raise .eFrame) := by
  obtain ⟨-, hr⟩ | ⟨hfits, -⟩ := s.start.unpackFrame_cases
  · rw [exec_unpack, hr]
  · rw [State.get_start] at hfits
    omega

/-- An UNPACK that ended OK had a payload that PAY can hold. -/
theorem exec_unpack_ok {t : State} (h : exec .unpack s = .next t) (hok : t.status = 0x00#8) :
    s.get .len ≤ 255 ∧ t = s.unpacked := by
  by_cases hlong : 255 < s.get .len
  · obtain rfl := Host.Outcome.next.inj ((exec_unpack_refused hlong).symm.trans h)
    simp [statusNumber] at hok
  · have hfits : s.get .len ≤ 255 := by omega
    exact ⟨hfits, (Host.Outcome.next.inj ((exec_unpack_of_fits hfits).symm.trans h)).symm⟩

theorem State.get_unpacked_fbits (h : s.get .len ≤ 255) : s.unpacked.get .fbits = 8 * s.get .len := by
  rw [State.unpacked, State.get_wroteWhole_same _ _ _ (by decide)]
  simp only [Reg.width]
  omega

@[simp] theorem State.length_unpackedPayload : s.unpackedPayload.length = 8 * s.get .len := by
  simp [State.unpackedPayload]

theorem State.bufByte_unpacked {n : Nat} (h : n < 2040) :
    s.unpacked.bufByte .frm n = bitCell (s.unpackedPayload.getD n false) :=
  (State.bufByte_wroteWhole _ _ _ _ h).trans (List.getD_map (d := false) _ _)

theorem State.bufByte_unpacked_beyond {n : Nat} (hn : 8 * s.get .len ≤ n) (h : n < 2040) :
    s.unpacked.bufByte .frm n = 0#8 := by
  rw [State.bufByte_unpacked h, List.getD_eq_default _ _ (by simpa using hn)]
  rfl

/-- The frame UNPACK wrote reads back. -/
theorem State.frameBits_unpacked (h : s.get .len ≤ 255) :
    s.unpacked.frameBits (8 * s.get .len) = s.unpackedPayload := by
  apply List.ext_getElem (by simp)
  intro n h1 h2
  have hn : n < 8 * s.get .len := by simpa using h2
  rw [State.getElem_frameBits, State.bufByte_unpacked (by omega), cellBit_bitCell, List.getD_eq_getElem _ _ h2]

/-- Bit `8i + j` of the frame UNPACK makes is bit `7 - j` of payload byte `i` (R127, 20_memory.md R60). -/
theorem State.getD_unpackedPayload {i j : Nat} (hi : i < s.get .len) (hj : j < 8) :
    s.unpackedPayload.getD (8 * i + j) false = (s.bufByte .pay i).getLsbD (7 - j) := by
  have hi' : i < (s.memRead .pay 0 (s.get .len)).length := by simpa using hi
  rw [List.getD_eq_getElem _ _ (by rw [State.length_unpackedPayload]; omega)]
  exact (getElem_unpackBits _ i j hi' hj).trans (by rw [State.getElem_memRead, Nat.zero_add])

/-! The one after the other. -/

/-- UNPACK of a payload that is the packed frame gives the frame back (R128, first half). -/
theorem unpack_after_pack {s t : State} (h8 : s.get .fbits % 8 = 0) (hmax : s.get .fbits ≤ 2040)
    (hlen : t.get .len = s.get .fbits / 8) (hpay : ∀ i, i < 255 → t.bufByte .pay i = s.packed.bufByte .pay i) :
    t.unpackedPayload = s.frameBits (s.get .fbits) := by
  have hlength := State.length_packedFrame h8
  have hread : t.memRead .pay 0 (t.get .len) = s.packedFrame := by
    rw [State.memRead_congr fun i hi => hpay i (by omega), hlen, ← hlength]
    exact State.memRead_wroteWhole (by rw [hlength]; simp only [Buffer.size]; omega) _ _
  rw [State.unpackedPayload, hread, State.unpackBits_packedFrame h8]

/-- PACK of a frame that is the unpacked payload gives the payload back (R128, second half). -/
theorem pack_after_unpack {s t : State} (hfits : s.get .len ≤ 255) (hfbits : t.get .fbits = 8 * s.get .len)
    (hfrm : ∀ i, i < 2040 → t.bufByte .frm i = s.unpacked.bufByte .frm i) :
    t.packedFrame = s.memRead .pay 0 (s.get .len) := by
  rw [State.packedFrame, State.frameBits_congr fun i hi => hfrm i (by omega), hfbits, State.frameBits_unpacked hfits,
    State.unpackedPayload, packBits_unpackBits]

end Sys2Proof.Machine
end

section
/-! The statements about DEC, PACK and UNPACK (42_codec_decode_frame.md R122, R126 to R128). -/

namespace Sys2Proof.Machine

/-- Settles O48: the tests of R121 pass, so DEC accepts, and the laws of an accepted record give each register and buffer. -/
theorem decodeCopiesTheFieldsOfTheKind : Obligations.DecodeCopiesTheFieldsOfTheKind := by
  intro s k L K hL hK hlen hdisc hfits
  have hF := kindFacts (layoutOk_of_layoutOf hL) hK
  obtain ⟨-, -, -, hblock, -, -, -⟩ := kindShape hK
  refine ⟨_, exec_dec_accept hL hlen hK hdisc hfits, rfl, State.get_decAccept_kind hK,
    fun rf hrf => State.get_decAccept_of_mem hF hK hrf, fun q hq => ?payload, fun bf hbf => ?block, fun r hr => ?regs,
    fun a hpay hcfg => State.read_decAccept_of_outside hK hpay hcfg, State.decAccept_frame s.start L k K⟩
  case payload =>
    have hmem : (Buffer.pay, s.memRead .record q.region.off (s.recField L q.len)) ∈ s.start.recBlocks L K :=
      List.mem_append_left _ (List.mem_map.mpr ⟨q, Option.mem_toList.mpr hq, rfl⟩)
    have hsize : s.recField L q.len ≤ Buffer.pay.size := (hfits q hq).trans (hF.region_le q hq)
    simpa [Buffer.size] using State.memRead_decAccept hK hmem (by simpa using hsize)
  case block =>
    have hmem : (bf.1, s.memRead .record bf.2.off bf.2.width) ∈ s.start.recBlocks L K :=
      List.mem_append_right _ (List.mem_map.mpr ⟨bf, hbf, rfl⟩)
    have hsize : bf.1.size = 64 := by
      obtain h | h := hblock bf.1 (List.mem_map.mpr ⟨bf, hbf, rfl⟩) <;> rw [h] <;> rfl
    simpa [hsize] using State.memRead_decAccept hK hmem (by simpa using hF.block_le bf hbf)
  case regs =>
    simp only [List.mem_cons, not_or] at hr
    obtain ⟨hkind, hstatus, hscalar⟩ := hr
    exact (State.get_decAccept_of_not hscalar hkind hstatus).trans (s.get_start r)

/-- Settles O53: PAY holds the packed frame, each of whose bytes is the sum of its bits, and 0 beyond its length. -/
theorem packMakesBytesOfTheFrameBits : Obligations.PackMakesBytesOfTheFrameBits := by
  refine ⟨by decide, fun s => ⟨fun h8 hmax => ?_, exec_pack_refused⟩⟩
  have hlength := State.length_packedFrame h8
  refine ⟨_, exec_pack_of_whole h8 hmax, rfl, State.get_packed_len, fun i hi => ?_, fun i hi hi' => ?_,
    State.wroteWhole_keeps_regs _ _ _ _, State.wroteWhole_keeps_cells .pay _ _ _, State.wroteWhole_counts _ _ _ _⟩
  · rw [State.bufByte_packed (by omega), List.getD_eq_getElem _ _ (by omega), State.toNat_packedFrame h8]
  · rw [State.bufByte_packed hi', List.getD_eq_default _ _ (by omega)]

/-- Settles O54: FRM holds the unpacked payload bit by bit, and 0 beyond its length. -/
theorem unpackMakesFrameBitsOfTheBytes : Obligations.UnpackMakesFrameBitsOfTheBytes := by
  refine ⟨by decide, fun s => ⟨fun h => ?_, exec_unpack_refused⟩⟩
  refine ⟨_, exec_unpack_of_fits h, rfl, State.get_unpacked_fbits h, fun i j hi hj => ?_,
    fun n hn hn' => State.bufByte_unpacked_beyond hn hn',
    State.wroteWhole_keeps_regs _ _ _ _, State.wroteWhole_keeps_cells .frm _ _ _, State.wroteWhole_counts _ _ _ _⟩
  rw [State.bufByte_unpacked (by omega), State.getD_unpackedPayload hi hj]
  rfl

/-- Settles O55: what the second command makes is what the first took, by `unpackBits_packBits` and `packBits_unpackBits`. -/
theorem packAndUnpackUndoEachOther : Obligations.PackAndUnpackUndoEachOther := by
  refine ⟨fun s t t' ht hok hlen hpay => ?_, fun s t t' ht hok hfbits hfrm => ?_⟩
  · obtain ⟨h8, hmax, rfl⟩ := exec_pack_ok ht hok
    rw [State.get_packed_len] at hlen
    have hfits : t'.get .len ≤ 255 := by omega
    have hbits : 8 * t'.get .len = s.get .fbits := by omega
    refine ⟨_, exec_unpack_of_fits hfits, rfl, (State.get_unpacked_fbits hfits).trans hbits, ?_,
      fun n hn hn' => State.bufByte_unpacked_beyond (by omega) hn'⟩
    calc t'.unpacked.frameBits (s.get .fbits)
        = t'.unpackedPayload := by rw [← hbits, State.frameBits_unpacked hfits]
      _ = s.frameBits (s.get .fbits) := unpack_after_pack h8 hmax hlen hpay
  · obtain ⟨hfits, rfl⟩ := exec_unpack_ok ht hok
    rw [State.get_unpacked_fbits hfits] at hfbits
    have hframe := pack_after_unpack hfits hfbits hfrm
    refine ⟨_, exec_pack_of_whole (by omega) (by omega), rfl, ?_, fun i hi => ?_, fun i hi hi' => ?_⟩
    · rw [State.get_packed_len]
      omega
    · rw [State.bufByte_packed (by omega), hframe, State.getD_memRead _ _ _ hi, Nat.zero_add]
    · rw [State.bufByte_packed hi', hframe, List.getD_eq_default _ _ (by simpa using hi)]

end Sys2Proof.Machine
end

section
/-! SUPPORT. What a command that writes result registers only leaves as it was, composed from its acts: the count, the
writes, `done` (00_scope.md R15, 10_state.md R43). -/

namespace Sys2Proof

open Machine

section
variable {s t : State} {rs : List Reg}

theorem regsKeptBut.start : regsKeptBut rs s s.start := fun r _ => s.get_start r

/-- A write of a register that is excepted anyway keeps the others. -/
theorem regsKeptBut.set (h : regsKeptBut rs s t) {r : Reg} (hr : r ∈ rs) (v : Nat) : regsKeptBut rs s (t.set r v) :=
  fun q hq => (t.get_set_of_ne (ne_of_mem_of_not_mem hr hq).symm v).trans (h q hq)

theorem regsKeptBut.done (h : regsKeptBut rs s t) (hstatus : .status ∈ rs) : regsKeptBut rs s t.done :=
  fun q hq => (t.get_done_of_ne (ne_of_mem_of_not_mem hstatus hq).symm).trans (h q hq)

end

/-- Every command but ROUTE counts as one command and touches nothing of the host's. -/
theorem countsOneCommand_of_exec {i : Instr} (hi : i ≠ .route) {s t : State} (h : exec i s = .next t) :
    countsOneCommand s t := by
  obtain ⟨u, hu, hcp, hev, -, hparams, hpending, hreplies⟩ := exec_keepsHostSide_of_ne_route hi s
  obtain rfl := Host.Outcome.next.inj (hu.symm.trans h)
  exact ⟨hcp, hev, hparams, hpending, hreplies⟩

end Sys2Proof
end

section
/-! SUPPORT. The frame-timing calculator: the block number as a function of the frame number, and the registers unit 2 writes
(43_timing.md R136 to R140). -/

namespace Sys2Proof.Machine

/-! The thresholds of the block number (R136). -/

/-- Among the first `n` positive multiples of 4, those at most `r` are as many as `r div 4`, but no more than all. -/
theorem length_filter_multiples_of_four (n r : Nat) :
    (((List.range n).map fun i => 4 * (i + 1)).filter (· ≤ r)).length = min n (r / 4) := by
  rw [← List.countP_eq_length_filter]
  induction n with
  | zero => rw [List.range_zero, List.map_nil, List.countP_nil, Nat.zero_min]
  | succ n ih =>
    rw [List.range_succ, List.map_append, List.countP_append, ih, List.map_singleton, List.countP_singleton]
    simp only [decide_eq_true_eq]
    split <;> omega

/-- Scanning the twelve thresholds of R136 counts the whole blocks before position `r` of the multiframe. -/
theorem length_filter_thresholds {r : Nat} (h : r < 52) :
    ([4, 8, 12, 16, 20, 24, 28, 32, 36, 40, 44, 48].filter (· ≤ r)).length = r / 4 :=
  (length_filter_multiples_of_four 12 r).trans (by omega)

/-! The block number (R137, R140). -/

section
variable (nblk fn : Nat)

theorem blockNumber_le : blockNumber nblk fn ≤ nblk - 1 := min_le_right _ _

/-- There are thirteen groups of four in a multiframe, whatever the number of blocks. -/
theorem blockNumber_lt_thirteen : blockNumber nblk fn < 13 := by
  simp only [blockNumber, mf, blk]
  omega

theorem blockNumber_add_mf : blockNumber nblk (fn + mf) = blockNumber nblk fn := by
  rw [blockNumber, Nat.add_mod_right, blockNumber]

/-- Within one period the position grows with the frame number, and the block number with the position. -/
theorem blockNumber_mono {a b : Nat} (hperiod : b / mf = a / mf) (hab : a ≤ b) :
    blockNumber nblk a ≤ blockNumber nblk b := by
  have hpos : a % mf ≤ b % mf := by
    simp only [mf] at hperiod ⊢
    omega
  exact min_le_min_right _ (Nat.div_le_div_right hpos)

/-- The first frame of block `n` has block number `n`. -/
theorem blockNumber_first_frame {n : Nat} (h : n ≤ nblk - 1) (h13 : n < 13) : blockNumber nblk (blk * n) = n := by
  simp only [blockNumber, mf, blk]
  omega

end

/-! The registers after BLKNUM and MFPOS (R137 to R139). -/

section
variable {s t : State}

/-- MFPOS has room for a position in either multiframe. -/
theorem State.get_set_mfpos {m : Nat} (hm : 0 < m) (hm' : m ≤ 52) (fn : Nat) :
    (s.set .mfpos (fn % m)).get .mfpos = fn % m := by
  have := Nat.mod_lt fn hm
  rw [State.get_set_same]
  exact Nat.mod_eq_of_lt (by simp only [Reg.width]; omega)

theorem get_mfpos_of_exec_blknum (h : exec .blknum s = .next t) : t.get .mfpos = s.get .fn % 52 := by
  obtain rfl := Host.Outcome.next.inj ((exec_blknum s).symm.trans h)
  rw [State.get_done_of_ne _ (by decide), State.get_set_of_ne _ (by decide)]
  exact State.get_set_mfpos (by decide) (by decide) _

/-- BN has room for every block number. -/
theorem get_bn_of_exec_blknum (h : exec .blknum s = .next t) :
    t.get .bn = blockNumber s.params.nblk (s.get .fn) := by
  obtain rfl := Host.Outcome.next.inj ((exec_blknum s).symm.trans h)
  have hlt := blockNumber_lt_thirteen s.params.nblk (s.get .fn)
  rw [State.get_done_of_ne _ (by decide), State.get_set_same]
  exact Nat.mod_eq_of_lt (by simp only [Reg.width]; omega)

/-- The position written, in a multiframe of either length, and nothing else: what MFPOS.52 and MFPOS.51 share. -/
theorem mfpos_written {i : Instr} {m : Nat} (hm : 0 < m) (hm' : m ≤ 52) (hi : i ≠ .route)
    (h : exec i s = .next (s.start.set .mfpos (s.get .fn % m)).done) :
    ∃ t, exec i s = .next t ∧ t.get .mfpos = s.get .fn % m ∧ t.status = 0x00#8 ∧
      regsKeptBut [.mfpos, .status] s t ∧ cellsKept s t ∧ countsOneCommand s t := by
  refine ⟨_, h, ?_, rfl, (regsKeptBut.start.set (by decide) _).done (by decide), fun a => ?_,
    countsOneCommand_of_exec hi h⟩
  · rw [State.get_done_of_ne _ (by decide), State.get_set_mfpos hm hm']
  · rw [State.done_mem, State.set_mem, State.start_mem]

end

end Sys2Proof.Machine
end

section
/-! The statements about the frame-timing calculator (43_timing.md R136 to R140). -/

namespace Sys2Proof.Machine

/-- Settles O30: both values fit their registers; the two writes and `done` keep the rest. -/
theorem blknumWritesPositionAndBlock : Obligations.BlknumWritesPositionAndBlock := by
  refine ⟨by decide, fun s => ⟨_, exec_blknum s, get_mfpos_of_exec_blknum (exec_blknum s),
    get_bn_of_exec_blknum (exec_blknum s), rfl,
    ((regsKeptBut.start.set (by decide) _).set (by decide) _).done (by decide), fun a => ?_,
    countsOneCommand_of_exec (by decide) (exec_blknum s)⟩⟩
  rw [State.done_mem, State.set_mem, State.set_mem, State.start_mem]

/-- Settles O31: the count of the thresholds is the quotient of the position by 4, which BN holds capped. -/
theorem blockNumberCountsThresholds : Obligations.BlockNumberCountsThresholds := by
  intro s hnblk
  obtain ⟨t, ht⟩ : ∃ t, exec .blknum s = .next t := ⟨_, exec_blknum s⟩
  have hbn : t.get .bn = min (s.get .fn % 52 / 4) 10 := by
    rw [get_bn_of_exec_blknum ht, hnblk]
    rfl
  refine ⟨t, ht, ?_, hbn, fun h40 => hbn.trans (by omega)⟩
  rw [length_filter_thresholds (Nat.mod_lt _ (by decide)), hbn]

/-- Settles O32: BN is the block number, whose laws give the period, the order and the bound; the first frame of each block
gives its value. -/
theorem blockNumberIsPeriodicMonotoneAndBelowEleven : Obligations.BlockNumberIsPeriodicMonotoneAndBelowEleven := by
  refine ⟨fun s u t v hs hu ht hv => ?_, fun n hn => ?_⟩
  · rw [get_bn_of_exec_blknum ht, get_bn_of_exec_blknum hv, get_mfpos_of_exec_blknum ht, get_mfpos_of_exec_blknum hv, hs, hu]
    refine ⟨fun hperiod => ?_, blockNumber_mono 11, blockNumber_le 11 _, fun hmax hnext => ?_⟩
    · rw [hperiod]
      exact blockNumber_add_mf 11 _
    · simp [State.get, hnext, hmax]
  · have hfn : { State.reset with fn := BitVec.ofNat 32 (blk * n) }.get .fn = blk * n :=
      Nat.mod_eq_of_lt (by simp only [blk]; omega)
    refine ⟨{ State.reset with fn := BitVec.ofNat 32 (blk * n) }, _, rfl, exec_blknum _, ?_⟩
    rw [get_bn_of_exec_blknum (exec_blknum _), hfn]
    exact blockNumber_first_frame 11 hn (by omega)

/-- Settles O33, by what the two MFPOS commands share. -/
theorem mfposFiftyTwoWritesThePositionOnly : Obligations.MfposFiftyTwoWritesThePositionOnly :=
  ⟨by decide, fun s => mfpos_written (by decide) (by decide) (by decide) (exec_mfpos52 s)⟩

/-- Settles O34, by what the two MFPOS commands share. -/
theorem mfposFiftyOneWritesThePositionOnly : Obligations.MfposFiftyOneWritesThePositionOnly :=
  ⟨by decide, fun s => mfpos_written (by decide) (by decide) (by decide) (exec_mfpos51 s)⟩

end Sys2Proof.Machine
end

section
/-! SUPPORT. The router: what ROUTE leaves behind tells the handler it selected, and which classes have a cause code
(44_router.md R151 to R157). -/

namespace Sys2Proof.Machine

/-! ROUTE (R151 to R153). -/

theorem handlerId_injective : Function.Injective handlerId := by
  intro h k
  cases h <;> cases k <;> decide

/-- Without a traffic channel every branch of `Route` ends elsewhere than in the assignment-completion handler (R155). -/
theorem chv_of_routeMessage_asscmp {p : Params} {pd mt : BitVec 8} {chv : BitVec 1}
    (h : routeMessage p pd mt chv = .handler .asscmp) : chv = 1#1 := by
  by_contra hchv
  simp only [routeMessage, if_neg hchv] at h
  split_ifs at h <;> cases h

section
variable {s t : State} {k : Handler}

/-- A failing ROUTE clears HID, and 0 is no handler's id (R151), and it appends nothing to EV. -/
theorem not_selects_of_exec_route_fails {c : StatusCode} (hfail : exec .route s = .next ((s.start.set .hid 0).raise c))
    (ht : exec .route s = .next t) : ¬ (t.get .hid = handlerId k ∨ t.ev = s.ev ++ [.invoke k]) := by
  obtain rfl := Host.Outcome.next.inj (hfail.symm.trans ht)
  rintro (hhid | hev)
  · obtain ⟨hpos, -⟩ := handlerId_bounds k
    have hzero : ((s.start.set .hid 0).raise c).get .hid = 0 := rfl
    omega
  · simp at hev

/-- A ROUTE that selects a handler shows that one in HID and in EV, and no other. -/
theorem State.eq_of_routedTo_selects {h : Handler}
    (hsel : (s.routedTo h).get .hid = handlerId k ∨ (s.routedTo h).ev = s.ev ++ [.invoke k]) : h = k := by
  obtain hhid | hev := hsel
  · exact handlerId_injective ((s.routedTo_hid h).symm.trans hhid)
  · simpa using hev

/-- HID and EV tell what `Route` returned: a handler's id or its event is there only if it was selected (R153). -/
theorem routeMessage_of_exec_route_selects (ht : exec .route s = .next t)
    (hsel : t.get .hid = handlerId k ∨ t.ev = s.ev ++ [.invoke k]) :
    routeMessage s.params s.pd s.mt s.chv = .handler k := by
  obtain ⟨-, hfail⟩ | ⟨-, hfail⟩ | ⟨h, hroute, hnext⟩ := exec_route_cases s
  · exact absurd hsel (not_selects_of_exec_route_fails hfail ht)
  · exact absurd hsel (not_selects_of_exec_route_fails hfail ht)
  · obtain rfl := Host.Outcome.next.inj (hnext.symm.trans ht)
    obtain rfl := State.eq_of_routedTo_selects hsel
    exact hroute

end

/-! CAUSE (R156, R157). -/

/-- The classes 1 to 8 with their cause codes (R156). -/
theorem exists_failureClass {n : Nat} (hlow : 1 ≤ n) (hhigh : n ≤ 8) :
    ∃ c, failureClass n = some c ∧ BitVec.ofNat 8 (causeCode c) =
      [0x03#8, 0x62#8, 0x62#8, 0x61#8, 0x03#8, 0x03#8, 0x01#8, 0x61#8].getD (n - 1) 0#8 := by
  interval_cases n <;> exact ⟨_, rfl, rfl⟩

theorem failureClass_eq_none {n : Nat} (h : n = 0 ∨ 9 ≤ n) : failureClass n = none := by
  obtain rfl | h := h
  · rfl
  · obtain ⟨m, rfl⟩ := Nat.exists_eq_add_of_le' h
    rfl

section
variable {s : State}

theorem exec_cause_of_class {c : FailureClass} (h : failureClass (s.get .fclass) = some c) :
    exec .cause s = .next { s with cp := s.cp + 1, status := 0x00#8, cause := BitVec.ofNat 8 (causeCode c) } := by
  obtain ⟨hnone, -⟩ | ⟨d, hd, hnext⟩ := exec_cause_cases s
  · cases hnone.symm.trans h
  · obtain rfl := Option.some.inj (hd.symm.trans h)
    exact hnext

theorem exec_cause_refused (h : failureClass (s.get .fclass) = none) :
    exec .cause s = .next { s with cp := s.cp + 1, status := 0x08#8 } := by
  obtain ⟨-, hnext⟩ | ⟨c, hc, -⟩ := exec_cause_cases s
  · exact hnext
  · cases hc.symm.trans h

end

end Sys2Proof.Machine
end

section
/-! The statements about the message dispatch router and the cause codes (44_router.md R155 to R157). -/

namespace Sys2Proof.Machine

/-- Settles O37: HID = 5 and the event each tell that `Route` returned the assignment-completion handler. -/
theorem assignmentHandlerNeedsATrafficChannel : Obligations.AssignmentHandlerNeedsATrafficChannel :=
  fun _ _ ht hsel => chv_of_routeMessage_asscmp (routeMessage_of_exec_route_selects ht hsel)

/-- Settles O38: FCLASS names a class exactly from 1 to 8, and CAUSE either writes its code or raises E_ARG. -/
theorem causeLooksUpTheFailureTable : Obligations.CauseLooksUpTheFailureTable := by
  refine ⟨by decide, fun s => ⟨fun ⟨hlow, hhigh⟩ => ?_, fun h => exec_cause_refused (failureClass_eq_none h)⟩⟩
  obtain ⟨c, hclass, hcode⟩ := exists_failureClass hlow hhigh
  rw [exec_cause_of_class hclass, hcode]

end Sys2Proof.Machine
end

section
/-! SUPPORT. The two ways a command can end: with OK, or with a code of its row of R170's table and nothing else changed but
the one result register of R172; and what a step can put into STATUS (60_exceptions.md R170 to R175). -/

namespace Sys2Proof.Machine

/-! The state a failing command leaves (R172, R175). -/

/-- The old state with one command counted, the code in STATUS, and the result register of DEC or ROUTE cleared. -/
def State.failed (s : State) (i : Instr) (c : StatusCode) : State :=
  { s with
    cp := s.cp + 1, status := statusNumber c
    kind := if i = .dec then 0#3 else s.kind
    hid := if i = .route then 0#3 else s.hid }

section
variable (s : State) (c : StatusCode)

@[simp] theorem State.failed_status (i : Instr) : (s.failed i c).status = statusNumber c := rfl

theorem State.failed_dec : s.failed .dec c = s.start.decFail c := rfl

theorem State.failed_route : s.failed .route c = (s.start.set .hid 0).raise c := rfl

/-- A command with no result register of its own fails by `raise` alone. -/
theorem State.failed_of_ne {i : Instr} (hdec : i ≠ .dec) (hroute : i ≠ .route) : s.failed i c = s.start.raise c := by
  rw [State.failed, if_neg hdec, if_neg hroute]
  rfl

end

/-! ENC.k: each kind raises the codes its fields give cause for (R170). -/

section
variable {s : State} {L : Layout} {k : Kind} {K : KindForm}

/-- Only a data kind has a payload to be too long. -/
theorem eBounds_mem_possibleCodes (hK : layoutKind L k = some K) (hfail : s.boundsFail K = true) :
    .eBounds ∈ possibleCodes (encCommand k) := by
  cases k with
  | dataInd | dataReq => decide
  | infoInd | raInd | rtsInd | timeInd =>
    obtain ⟨f, -, rfl⟩ := Option.map_eq_some_iff.mp hK
    cases hfail

/-- Only the info kind has no scalar field to be too small. -/
theorem eRange_mem_possibleCodes (hK : layoutKind L k = some K) (hfail : s.rangeFails K = true) :
    .eRange ∈ possibleCodes (encCommand k) := by
  cases k with
  | infoInd =>
    obtain ⟨f, -, rfl⟩ := Option.map_eq_some_iff.mp hK
    cases hfail
  | raInd | rtsInd | dataInd | dataReq | timeInd => decide

end

/-- The failing tests of ENC.k with the code each raises (R106, R107). -/
theorem exec_encCommand_ok_or_failed (k : Kind) (s : State) :
    ∃ t, exec (encCommand k) s = .next t ∧
      (t.status = 0x00#8 ∨ ∃ c ∈ possibleCodes (encCommand k), t = s.failed (encCommand k) c) := by
  have hfailed (c : StatusCode) : s.failed (encCommand k) c = s.start.raise c :=
    s.failed_of_ne c (by cases k <;> decide) (by cases k <;> decide)
  refine ⟨_, exec_encCommand s k, ?_⟩
  obtain ⟨-, h⟩ | ⟨L, K, -, -, hK, ⟨hbounds, h⟩ | ⟨-, hrange, h⟩ | ⟨-, -, h⟩⟩ := s.start.encodeKind_cases k <;> rw [h]
  · exact .inr ⟨.eLayout, by cases k <;> decide, (hfailed _).symm⟩
  · exact .inr ⟨.eBounds, eBounds_mem_possibleCodes hK hbounds, (hfailed _).symm⟩
  · exact .inr ⟨.eRange, eRange_mem_possibleCodes hK hrange, (hfailed _).symm⟩
  · exact .inl rfl

/-! The commands. -/

/-- The failing tests of DEC with the code each raises (R121). -/
theorem State.decodeRecord_ok_or_failed (s : State) :
    s.start.decodeRecord.status = 0x00#8 ∨ ∃ c ∈ possibleCodes .dec, s.start.decodeRecord = s.failed .dec c := by
  obtain ⟨-, h⟩ | ⟨L, -, -, ⟨-, h⟩ | ⟨-, -, h⟩ | ⟨k, K, -, -, -, ⟨-, h⟩ | ⟨-, h⟩⟩⟩ := s.start.decodeRecord_cases <;> rw [h]
  · exact .inr ⟨.eLayout, by decide, rfl⟩
  · exact .inr ⟨.eLength, by decide, rfl⟩
  · exact .inr ⟨.noValue, by decide, rfl⟩
  · exact .inr ⟨.eBounds, by decide, rfl⟩
  · exact .inl rfl

/-- Every command completes, and ends in one of two ways (R170, R172, R175). -/
theorem exec_ok_or_failed (i : Instr) (s : State) :
    ∃ t, exec i s = .next t ∧ (t.status = 0x00#8 ∨ ∃ c ∈ possibleCodes i, t = s.failed i c) := by
  cases i with
  | nop => exact ⟨_, exec_nop s, .inl rfl⟩
  | clr => exact ⟨_, exec_clr s, .inl rfl⟩
  | encInfo => exact exec_encCommand_ok_or_failed .infoInd s
  | encRa => exact exec_encCommand_ok_or_failed .raInd s
  | encRts => exact exec_encCommand_ok_or_failed .rtsInd s
  | encDind => exact exec_encCommand_ok_or_failed .dataInd s
  | encDreq => exact exec_encCommand_ok_or_failed .dataReq s
  | encTime => exact exec_encCommand_ok_or_failed .timeInd s
  | dec => exact ⟨_, exec_dec s, s.decodeRecord_ok_or_failed⟩
  | pack =>
    refine ⟨_, exec_pack s, ?_⟩
    obtain ⟨-, h⟩ | ⟨-, -, h⟩ := s.start.packFrame_cases <;> rw [h]
    · exact .inr ⟨.eFrame, by decide, rfl⟩
    · exact .inl rfl
  | unpack =>
    refine ⟨_, exec_unpack s, ?_⟩
    obtain ⟨-, h⟩ | ⟨-, h⟩ := s.start.unpackFrame_cases <;> rw [h]
    · exact .inr ⟨.eFrame, by decide, rfl⟩
    · exact .inl rfl
  | blknum => exact ⟨_, exec_blknum s, .inl rfl⟩
  | mfpos52 => exact ⟨_, exec_mfpos52 s, .inl rfl⟩
  | mfpos51 => exact ⟨_, exec_mfpos51 s, .inl rfl⟩
  | route =>
    obtain ⟨-, h⟩ | ⟨-, h⟩ | ⟨_, -, h⟩ := exec_route_cases s
    · exact ⟨_, h, .inr ⟨.unsupportedProtocol, by decide, rfl⟩⟩
    · exact ⟨_, h, .inr ⟨.unsupportedMessage, by decide, rfl⟩⟩
    · exact ⟨_, h, .inl rfl⟩
  | cause =>
    obtain ⟨-, h⟩ | ⟨_, -, h⟩ := exec_cause_cases s
    · exact ⟨_, h, .inr ⟨.eArg, by decide, rfl⟩⟩
    · exact ⟨_, h, .inl rfl⟩

/-! What is written to STATUS. -/

/-- The numbers outside R170's table (R171). -/
theorem statusNumber_listed (c : StatusCode) :
    ¬ (0x09 ≤ (statusNumber c).toNat ∧ (statusNumber c).toNat ≤ 0x0F) ∧ ¬ 0x12 ≤ (statusNumber c).toNat := by
  cases c <;> decide

/-- The five commands that cannot fail (R171). -/
theorem possibleCodes_eq_ok : ∀ i ∈ [Instr.nop, .clr, .blknum, .mfpos52, .mfpos51], possibleCodes i = [.ok] := by decide

theorem ok_mem_possibleCodes (i : Instr) : .ok ∈ possibleCodes i := by cases i <;> decide

section
variable {s t : State}

/-- What a command has done when it has completed: the inversion of `exec_ok_or_failed`. -/
theorem ok_or_failed_of_exec {i : Instr} (h : exec i s = .next t) :
    t.status = 0x00#8 ∨ ∃ c ∈ possibleCodes i, t = s.failed i c := by
  obtain ⟨u, hu, hend⟩ := exec_ok_or_failed i s
  obtain rfl := Host.Outcome.next.inj (hu.symm.trans h)
  exact hend

/-- A command leaves in STATUS a code of its row of R170's table. -/
theorem exists_status_of_exec {i : Instr} (h : exec i s = .next t) :
    ∃ c ∈ possibleCodes i, t.status = statusNumber c := by
  obtain hok | ⟨c, hc, rfl⟩ := ok_or_failed_of_exec h
  · exact ⟨.ok, ok_mem_possibleCodes i, hok⟩
  · exact ⟨c, hc, rfl⟩

/-- Every word written to CMD leaves a code of R170's table in STATUS (R73, R171). -/
theorem exists_status_of_command {v : PortWord} (h : command v s = .next t) : ∃ c, t.status = statusNumber c := by
  obtain ⟨i, -, hc⟩ | ⟨-, hc⟩ := command_cases v s
  · obtain ⟨c, -, hstatus⟩ := exists_status_of_exec (hc.symm.trans h)
    exact ⟨c, hstatus⟩
  · obtain rfl := Host.Outcome.next.inj (hc.symm.trans h)
    exact ⟨.eIllegal, rfl⟩

theorem State.status_set_of_ne {r : Reg} (h : r ≠ .status) (v : Nat) : (s.set r v).status = s.status :=
  BitVec.eq_of_toNat_eq (s.get_set_of_ne h.symm v)

/-- A write to any address but CMD's keeps STATUS, which is read-only to the host (R51, R56). -/
theorem status_of_hostWrite {a : CellAddr} (ha : a ≠ 0x001#12) {v : PortWord} (h : hostWrite a v s = .next t) :
    t.status = s.status := by
  obtain ⟨hcmd, -⟩ | ⟨r, -, hrw, hw⟩ | ⟨b, i, -, hw⟩ | ⟨-, hw⟩ := hostWrite_cases a v s
  · obtain ⟨rfl, -⟩ | ⟨_, -, hc⟩ | ⟨_, _, -, -, hc⟩ := cellAt_cases hcmd
    · exact absurd rfl ha
    · cases hc
    · cases hc
  · obtain rfl := Host.Outcome.next.inj (hw.symm.trans h)
    exact State.status_set_of_ne (by rintro rfl; cases hrw) _
  · obtain rfl := Host.Outcome.next.inj (hw.symm.trans h)
    rfl
  · obtain rfl := Host.Outcome.next.inj (hw.symm.trans h)
    rfl

/-- A step leaves a code of R170's table in STATUS, or it is no write to CMD and leaves STATUS as it was (R171). -/
theorem step_status_cases (h : step s = .next t) :
    (∃ c, t.status = statusNumber c) ∨
      (t.status = s.status ∧ ∀ v rest, s.pending ≠ .write 0x001#12 v :: rest) := by
  match hp : s.pending with
  | [] =>
    obtain rfl := Host.Outcome.next.inj ((step_of_no_event hp).symm.trans h)
    exact .inr ⟨rfl, by simp⟩
  | .read a :: rest =>
    obtain rfl := Host.Outcome.next.inj ((step_read hp).symm.trans h)
    exact .inr ⟨rfl, by simp⟩
  | .reset :: rest =>
    obtain rfl := Host.Outcome.next.inj ((step_reset hp).symm.trans h)
    exact .inl ⟨.ok, rfl⟩
  | .write a v :: rest =>
    by_cases ha : a = 0x001#12
    · subst ha
      exact .inl (exists_status_of_command ((step_write_cmd hp).symm.trans h))
    · have hkept := status_of_hostWrite (s := s.withPending rest) ha ((step_write hp).symm.trans h)
      exact .inr ⟨hkept, by simp [ha]⟩

end

end Sys2Proof.Machine
end

section
/-! The statements about the codes a command leaves and what a failing one keeps (60_exceptions.md R171, R175). -/

namespace Sys2Proof.Machine

/-- Settles O15: a command leaves a code it raises, which for five commands is OK, and every other step keeps STATUS or
resets it. -/
theorem unlistedCodesAreNeverWritten : Obligations.UnlistedCodesAreNeverWritten := by
  refine ⟨fun i s t h => ?_, fun s t h hunlisted => ?_⟩
  · obtain ⟨c, hc, hstatus⟩ := exists_status_of_exec h
    obtain ⟨hgap, htop⟩ := statusNumber_listed c
    rw [hstatus]
    refine ⟨hgap, htop, fun hi => ?_⟩
    rw [possibleCodes_eq_ok i hi, List.mem_singleton] at hc
    rw [hc]
    rfl
  · obtain ⟨c, hstatus⟩ | hkept := step_status_cases h
    · obtain ⟨hgap, htop⟩ := statusNumber_listed c
      rw [hstatus] at hunlisted
      exact absurd hunlisted (not_or.mpr ⟨hgap, htop⟩)
    · exact hkept

/-- Settles O16: a command that does not end with OK leaves the state `State.failed`. -/
theorem failingCommandLeavesTheRestAlone : Obligations.FailingCommandLeavesTheRestAlone := by
  intro i s t h hfail
  obtain hok | ⟨c, -, rfl⟩ := ok_or_failed_of_exec h
  · exact absurd hok hfail
  · rfl

end Sys2Proof.Machine
end

section
/-! SUPPORT. Completion of every port event (70_reset_and_hazards.md R223), and the cells after the reset input (R210). -/

namespace Sys2Proof.Machine

/-- Every host write completes, a write to CMD with the command it starts (R53 to R56). -/
theorem hostWrite_completes (a : CellAddr) (v : PortWord) (s : State) : ∃ t, hostWrite a v s = .next t := by
  obtain ⟨-, h⟩ | ⟨r, -, -, h⟩ | ⟨b, i, -, h⟩ | ⟨-, h⟩ := hostWrite_cases a v s
  · obtain ⟨t, ht, -⟩ := command_cp v (s.answer (.write .okay))
    exact ⟨t, h.trans ht⟩
  · exact ⟨_, h⟩
  · exact ⟨_, h⟩
  · exact ⟨_, h⟩

theorem portEvent_completes (e : PortEvent) (s : State) : ∃ t, portEvent e s = .next t := by
  cases e with
  | write a v => exact hostWrite_completes a v s
  | read a => exact ⟨_, rfl⟩
  | reset => exact ⟨_, rfl⟩

/-- Only what is no cell outlives the reset input (R215): the cells are those of the reset state. -/
theorem State.get_resetPulse (s : State) (r : Reg) : s.resetPulse.get r = State.reset.get r := by cases r <;> rfl

theorem State.read_resetPulse (s : State) (a : Nat) : s.resetPulse.mem.read a = State.reset.mem.read a := rfl

end Sys2Proof.Machine
end

section
/-! The statements about completion and reset (70_reset_and_hazards.md R211, R223). -/

namespace Sys2Proof.Machine

/-- Settles O6: with no event waiting the block idles, and every event completes. -/
theorem everyStepCompletes : Obligations.EveryStepCompletes := by
  intro s
  match hp : s.pending with
  | [] => exact ⟨s, step_of_no_event hp⟩
  | e :: rest =>
    obtain ⟨t, ht⟩ := portEvent_completes e (s.withPending rest)
    exact ⟨t, (step_cons hp).trans ht⟩

/-- Settles O21: the reset input leads to the cells of the reset state, which are 0 by O19; CLR
leads to cells that are 0 but for CFG by O23. -/
theorem clrAndResetDifferInThreeThings : Obligations.ClrAndResetDifferInThreeThings := by
  intro s rest h
  obtain ⟨-, hclr⟩ := clrZeroesEveryCellButCfg
  obtain ⟨t, ht, hregs, hcfg, hcells, hcp, hev, -⟩ := hclr s
  obtain ⟨hregs₀, hcells₀, -⟩ := resetStateHoldsZeroEverywhere
  refine ⟨t, _, ht, step_reset h, fun r hr => ?_, fun a => ?_, rfl, rfl, rfl, BitVec.eq_of_toNat_eq hcfg, hcp, hev⟩
  · rw [hregs r hr, State.get_resetPulse, hregs₀]
  · rw [hcells, State.read_resetPulse, hcells₀]

end Sys2Proof.Machine
end

section
/-! SUPPORT. The block's invariant, operation by operation: what each named update of State does to the canonical buffer
memory and to the registers whose values are limited beyond their width (10_state.md R25, R34, R38; log 5). -/

namespace Sys2Proof.Machine

/-- The first number a register never holds: a kind code is at most 6, a handler id at most 5, a multiframe position below
52; the other registers hold every number of their width. -/
def Reg.limit : Reg → Nat
  | .kind => 7
  | .hid => 6
  | .mfpos => 52
  | r => 2 ^ r.width

/-- The block's invariant but for STATUS, which every command sets last. -/
structure State.CellsOk (s : State) : Prop where
  mem_wf : s.mem.wf = true
  mem_in : memInBuffers s.mem = true
  get_lt : ∀ r, s.get r < r.limit

theorem blockInvariant_iff {s : State} : blockInvariant s ↔ s.CellsOk ∧ s.status ∈ statusNumbers := by
  constructor
  · rintro ⟨hwf, hin, hstatus, hkind, hhid, hmfpos⟩
    refine ⟨⟨hwf, hin, fun r => ?_⟩, hstatus⟩
    cases r with
    | kind => exact Nat.lt_succ_of_le hkind
    | hid => exact Nat.lt_succ_of_le hhid
    | mfpos => exact hmfpos
    | _ => exact s.get_lt _
  · rintro ⟨⟨hwf, hin, hget⟩, hstatus⟩
    exact ⟨hwf, hin, hstatus, Nat.le_of_lt_succ (hget .kind), Nat.le_of_lt_succ (hget .hid), hget .mfpos⟩

/-- The registers a host write can reach have no limit but their width (20_memory.md R51). -/
theorem Reg.limit_of_rw {r : Reg} (h : r.access = .rw) : r.limit = 2 ^ r.width := by
  cases r with
  | status | kind | mfpos | hid | cause => cases h
  | _ => rfl

theorem mem_statusNumbers (c : StatusCode) : statusNumber c ∈ statusNumbers := by cases c <;> decide

namespace State.CellsOk

variable {s t : State}

/-- An update of what is no cell keeps the cells as they should be. -/
theorem congr (h : s.CellsOk) (hm : t.mem = s.mem) (hg : ∀ r, t.get r = s.get r) : t.CellsOk :=
  ⟨hm ▸ h.mem_wf, hm ▸ h.mem_in, fun r => (hg r).trans_lt (h.get_lt r)⟩

theorem start (h : s.CellsOk) : s.start.CellsOk := h.congr rfl s.get_start

theorem answer (h : s.CellsOk) (r : Reply) : (s.answer r).CellsOk := h.congr rfl (s.get_answer r)

theorem withPending (h : s.CellsOk) (p : List PortEvent) : (s.withPending p).CellsOk := h.congr rfl (s.get_withPending p)

theorem emit (h : s.CellsOk) (k : Handler) : (s.emit k).CellsOk := h.congr rfl (s.get_emit k)

theorem raise (h : s.CellsOk) (c : StatusCode) : (s.raise c).CellsOk := by
  refine ⟨h.mem_wf, h.mem_in, fun r => ?_⟩
  rw [State.get_raise]
  split
  next hr => exact hr ▸ (statusNumber c).isLt
  next => exact h.get_lt r

theorem done (h : s.CellsOk) : s.done.CellsOk := h.raise .ok

theorem set (h : s.CellsOk) {r : Reg} {v : Nat} (hv : v % 2 ^ r.width < r.limit) : (s.set r v).CellsOk := by
  refine ⟨by simpa using h.mem_wf, by simpa using h.mem_in, fun q => ?_⟩
  rw [State.get_set]
  split
  next hq => exact hq ▸ hv
  next => exact h.get_lt q

theorem set_of_limit (h : s.CellsOk) {r : Reg} (hr : r.limit = 2 ^ r.width) (v : Nat) : (s.set r v).CellsOk := by
  refine h.set ?_
  rw [hr]
  exact Nat.mod_lt _ (Nat.two_pow_pos _)

theorem memWrite (h : s.CellsOk) {b : Buffer} {off : Nat} {vs : List Byte} (hf : off + vs.length ≤ b.size)
    (hv : ∀ v ∈ vs, v.toNat < 2 ^ b.width) : (s.memWrite b off vs).CellsOk :=
  ⟨Memory.wf_writeBlock h.mem_wf _ _, memInBuffers_writeBlock h.mem_in hf hv,
    fun r => (s.get_memWrite b off vs r).trans_lt (h.get_lt r)⟩

/-- Any bytes that fit may be written to a buffer of bytes. -/
theorem memWrite_bytes (h : s.CellsOk) {b : Buffer} (hb : b.width = 8) {off : Nat} {vs : List Byte}
    (hf : off + vs.length ≤ b.size) : (s.memWrite b off vs).CellsOk :=
  h.memWrite hf fun v _ => by rw [hb]; exact v.isLt

theorem writeWhole (h : s.CellsOk) {b : Buffer} (hb : b.width = 8) (l : List Byte) : (s.writeWhole b l).CellsOk :=
  h.memWrite_bytes hb (by simp)

/-- A frame is written bit by bit, and 0 beyond it is a bit too. -/
theorem writeFrame (h : s.CellsOk) (bits : List Bool) : (s.writeFrame bits).CellsOk := by
  refine h.memWrite (by simp) fun v hv => ?_
  rcases List.mem_append.mp hv with hv | hv
  · obtain ⟨b, -, rfl⟩ := List.mem_map.mp (List.mem_of_mem_take hv)
    exact bitCell_lt b
  · rw [List.eq_of_mem_replicate hv]
    decide

theorem clearCells (h : s.CellsOk) : s.clearCells.CellsOk := by
  refine ⟨Memory.wf_nil, rfl, fun r => ?_⟩
  rw [State.get_clearCells]
  split
  next => exact h.get_lt r
  next => cases r <;> decide

theorem resetPulse : s.resetPulse.CellsOk :=
  ⟨Memory.wf_nil, rfl, fun r => by rw [State.get_resetPulse]; cases r <;> decide⟩

theorem writeBufCell (h : s.CellsOk) {b : Buffer} {i : Nat} (hi : i < b.size) (v : PortWord) :
    (s.writeBufCell b i v).CellsOk := by
  refine h.memWrite (by simpa using hi) fun x hx => ?_
  rw [List.mem_singleton.mp hx, BitVec.toNat_ofNat]
  exact lt_of_le_of_lt (Nat.mod_le _ _) (Nat.mod_lt _ (Nat.two_pow_pos _))

theorem writeScalars {vals : List (Reg × Nat)} (h : s.CellsOk) (hr : ∀ p ∈ vals, p.1.limit = 2 ^ p.1.width) :
    (s.writeScalars vals).CellsOk := by
  unfold State.writeScalars
  induction vals generalizing s with
  | nil => exact h
  | cons p vals ih => exact ih (h.set_of_limit (hr p List.mem_cons_self) p.2) fun q hq => hr q (List.mem_cons_of_mem _ hq)

theorem writeBlocks {blocks : List (Buffer × List Byte)} (h : s.CellsOk) (hb : ∀ p ∈ blocks, p.1.width = 8) :
    (s.writeBlocks blocks).CellsOk := by
  unfold State.writeBlocks
  induction blocks generalizing s with
  | nil => exact h
  | cons p blocks ih => exact ih (h.writeWhole (hb p List.mem_cons_self) p.2) fun q hq => hb q (List.mem_cons_of_mem _ hq)

end State.CellsOk

section
variable {s : State} {L : Layout} {k : Kind} {K : KindForm}

/-- The scalar registers of a kind are limited by their width only: KIND, HID and MFPOS are no operands (R74). -/
theorem limit_of_scalar (hK : layoutKind L k = some K) {r : Reg} (h : r ∈ K.scalars.map Prod.fst) :
    r.limit = 2 ^ r.width := by
  obtain ⟨-, -, hne, -, -, -, -⟩ := kindShape hK
  obtain ⟨-, -, -, hkind, hmfpos, hhid, -⟩ := hne r h
  cases r with
  | kind => exact absurd rfl hkind
  | hid => exact absurd rfl hhid
  | mfpos => exact absurd rfl hmfpos
  | _ => rfl

/-- The buffers a DEC writes hold bytes. -/
theorem width_of_recBlocks_key (hK : layoutKind L k = some K) {b : Buffer} (h : b ∈ (s.recBlocks L K).map Prod.fst) :
    b.width = 8 := by
  obtain ⟨rfl, -⟩ | ⟨rfl | rfl, -⟩ := recBlocks_key_cases hK h <;> rfl

namespace State.CellsOk

/-- A record fits REC, whose 256 cells no layout's capacity exceeds (R77, W1). -/
theorem commitRecord (h : s.CellsOk) (hL : layoutOk L = true) : (s.commitRecord L K).CellsOk := by
  have hcap : 0 + (s.buildRecord L K).length ≤ Buffer.record.size := by
    simpa [Buffer.size] using (layoutFacts hL).cap_le
  exact ((h.memWrite_bytes rfl hcap).set_of_limit rfl _).done

theorem encodeKind (h : s.CellsOk) (k : Kind) : (s.encodeKind k).CellsOk := by
  obtain ⟨-, he⟩ | ⟨L, K, -, hL, -, ⟨-, he⟩ | ⟨-, -, he⟩ | ⟨-, -, he⟩⟩ := s.encodeKind_cases k <;> rw [he]
  · exact h.raise _
  · exact h.raise _
  · exact h.raise _
  · exact h.commitRecord hL

theorem decFail (h : s.CellsOk) (c : StatusCode) : (s.decFail c).CellsOk := (h.set (by decide)).raise c

theorem decAccept (h : s.CellsOk) (hK : layoutKind L k = some K) : (s.decAccept L k K).CellsOk := by
  have hkind : (s.set .kind (kindCode k)).CellsOk := h.set (by cases k <;> decide)
  refine ((hkind.writeScalars fun p hp => ?_).writeBlocks fun p hp => ?_).done
  · exact limit_of_scalar hK (recScalars_keys (s.set .kind (kindCode k)) L K ▸ List.mem_map_of_mem hp)
  · exact width_of_recBlocks_key hK (List.mem_map_of_mem hp)

theorem decodeRecord (h : s.CellsOk) : s.decodeRecord.CellsOk := by
  obtain ⟨-, hd⟩ | ⟨L, -, -, ⟨-, hd⟩ | ⟨-, -, hd⟩ | ⟨k, K, -, hK, -, ⟨-, hd⟩ | ⟨-, hd⟩⟩⟩ := s.decodeRecord_cases <;> rw [hd]
  · exact h.decFail _
  · exact h.decFail _
  · exact h.decFail _
  · exact h.decFail _
  · exact h.decAccept hK

theorem packFrame (h : s.CellsOk) : s.packFrame.CellsOk := by
  obtain ⟨-, hp⟩ | ⟨-, -, hp⟩ := s.packFrame_cases <;> rw [hp]
  · exact h.raise _
  · exact ((h.writeWhole rfl _).set_of_limit rfl _).done

theorem unpackFrame (h : s.CellsOk) : s.unpackFrame.CellsOk := by
  obtain ⟨-, hu⟩ | ⟨-, hu⟩ := s.unpackFrame_cases <;> rw [hu]
  · exact h.raise _
  · exact ((h.writeFrame _).set_of_limit rfl _).done

/-- A position in a multiframe is below 52 in either structure (43_timing.md R137 to R139). -/
theorem set_mfpos (h : s.CellsOk) {n : Nat} (hn : n < 52) : (s.set .mfpos n).CellsOk :=
  h.set (lt_of_le_of_lt (Nat.mod_le _ _) hn)

theorem set_handlerId (h : s.CellsOk) (k : Handler) : (s.set .hid (handlerId k)).CellsOk :=
  h.set (by cases k <;> decide)

/-- Every command keeps the cells as they should be. -/
theorem exec (h : s.CellsOk) {i : Instr} {t : State} (ht : exec i s = .next t) : t.CellsOk := by
  cases i with
  | nop => exact Host.Outcome.next.inj ht ▸ h.start.done
  | clr => exact Host.Outcome.next.inj ht ▸ h.start.clearCells.done
  | encInfo => exact Host.Outcome.next.inj ht ▸ h.start.encodeKind _
  | encRa => exact Host.Outcome.next.inj ht ▸ h.start.encodeKind _
  | encRts => exact Host.Outcome.next.inj ht ▸ h.start.encodeKind _
  | encDind => exact Host.Outcome.next.inj ht ▸ h.start.encodeKind _
  | encDreq => exact Host.Outcome.next.inj ht ▸ h.start.encodeKind _
  | encTime => exact Host.Outcome.next.inj ht ▸ h.start.encodeKind _
  | dec => exact Host.Outcome.next.inj ht ▸ h.start.decodeRecord
  | pack => exact Host.Outcome.next.inj ht ▸ h.start.packFrame
  | unpack => exact Host.Outcome.next.inj ht ▸ h.start.unpackFrame
  | blknum =>
    have hpos : s.get .fn % mf < 52 := Nat.mod_lt _ (by decide)
    exact Host.Outcome.next.inj ht ▸ ((h.start.set_mfpos hpos).set_of_limit rfl _).done
  | mfpos52 =>
    have hpos : s.get .fn % mf < 52 := Nat.mod_lt _ (by decide)
    exact Host.Outcome.next.inj ht ▸ (h.start.set_mfpos hpos).done
  | mfpos51 =>
    have hpos : s.get .fn % mf51 < 52 := (Nat.mod_lt _ (by decide)).trans (by decide)
    exact Host.Outcome.next.inj ht ▸ (h.start.set_mfpos hpos).done
  | route =>
    obtain ⟨-, hr⟩ | ⟨-, hr⟩ | ⟨k, -, hr⟩ := exec_route_cases s <;> obtain rfl := Host.Outcome.next.inj (hr.symm.trans ht)
    · exact (h.start.set (by decide)).raise _
    · exact (h.start.set (by decide)).raise _
    · exact ((h.start.set_handlerId k).emit k).done
  | cause =>
    obtain ⟨-, hc⟩ | ⟨c, -, hc⟩ := exec_cause_cases s <;> obtain rfl := Host.Outcome.next.inj (hc.symm.trans ht)
    · exact h.start.raise _
    · exact (h.start.set_of_limit rfl _).done

theorem command (h : s.CellsOk) {v : PortWord} {t : State} (ht : command v s = .next t) : t.CellsOk := by
  obtain ⟨i, -, hc⟩ | ⟨-, hc⟩ := command_cases v s
  · exact h.exec (hc.symm.trans ht)
  · exact Host.Outcome.next.inj (hc.symm.trans ht) ▸ h.start.raise _

theorem hostWrite (h : s.CellsOk) {a : CellAddr} {v : PortWord} {t : State} (ht : hostWrite a v s = .next t) :
    t.CellsOk := by
  obtain ⟨-, hw⟩ | ⟨r, -, hr, hw⟩ | ⟨b, i, hcell, hw⟩ | ⟨-, hw⟩ := hostWrite_cases a v s
  · exact (h.answer _).command (hw.symm.trans ht)
  · exact Host.Outcome.next.inj (hw.symm.trans ht) ▸ (h.set_of_limit (Reg.limit_of_rw hr) _).answer _
  · have hi : i < b.size := by
      obtain ⟨-, hc⟩ | ⟨_, -, hc⟩ | ⟨b', i', hi', -, hc⟩ := cellAt_cases hcell
      · cases hc
      · cases hc
      · cases hc
        exact hi'
    exact Host.Outcome.next.inj (hw.symm.trans ht) ▸ (h.writeBufCell hi v).answer _
  · exact Host.Outcome.next.inj (hw.symm.trans ht) ▸ h.answer _

/-- Every step keeps the cells as they should be. -/
theorem step (h : s.CellsOk) {t : State} (ht : step s = .next t) : t.CellsOk := by
  match hp : s.pending with
  | [] => exact Host.Outcome.next.inj ((step_of_no_event hp).symm.trans ht) ▸ h
  | .read a :: rest => exact Host.Outcome.next.inj ((step_read hp).symm.trans ht) ▸ (h.withPending rest).answer _
  | .reset :: rest => exact Host.Outcome.next.inj ((step_reset hp).symm.trans ht) ▸ resetPulse
  | .write a v :: rest => exact (h.withPending rest).hostWrite ((step_write hp).symm.trans ht)

end State.CellsOk

end

end Sys2Proof.Machine
end

section
/-! The statements about the block's invariant (93_implementation_defined.md V4, V5). -/

namespace Sys2Proof.Machine

/-- Settles O12: every operation keeps the cells as they should be, and STATUS is kept or takes a code of R170's table. -/
theorem everyStepKeepsTheBlockInvariant : Obligations.EveryStepKeepsTheBlockInvariant := by
  intro s t hs ht
  obtain ⟨hcells, hstatus⟩ := blockInvariant_iff.mp hs
  refine blockInvariant_iff.mpr ⟨hcells.step ht, ?_⟩
  obtain ⟨c, hc⟩ | ⟨hkept, -⟩ := step_status_cases ht
  · exact hc ▸ mem_statusNumbers c
  · exact hkept ▸ hstatus

/-- Settles O13: the reset pulse of the reset state is the reset state itself. -/
theorem resetMeetsTheBlockInvariant : Obligations.ResetMeetsTheBlockInvariant :=
  blockInvariant_iff.mpr ⟨State.CellsOk.resetPulse (s := State.reset), mem_statusNumbers .ok⟩

end Sys2Proof.Machine
end

section
/-! SUPPORT. An ENC.k whose operands fit, as a command: the state it answers, what it leaves alone, and where the record is 0
(41_codec_encode.md R107, R115). -/

namespace Sys2Proof.Machine

section
variable {a b : Slot} {i : Nat}

/-- A byte in one of two byte ranges that share none is not in the other, whichever is named first. -/
theorem not_inSlot_of_disjoint (h : slotsDisjoint a b = true ∨ slotsDisjoint b a = true) (hb : inSlot b i) :
    ¬ inSlot a i := by
  simp only [slotsDisjoint, decide_eq_true_eq] at h
  unfold inSlot at hb ⊢
  omega

end

section
variable {s : State} {L : Layout} {K : KindForm}

/-- The byte ranges of a kind's record but the payload region (R76, R107). -/
abbrev slotsButRegion (L : Layout) (K : KindForm) : List Slot :=
  L.disc :: (K.scalars.map (·.2) ++ K.blocks.map (·.2))

/-- The payload region shares no byte with any other byte range of its kind, by W6. -/
theorem KindFacts.region_apart (hF : KindFacts L K) {q : Payload} (hq : q ∈ K.payload) {f : Slot}
    (hf : f ∈ slotsButRegion L K) : slotsDisjoint f q.region = true ∨ slotsDisjoint q.region f = true := by
  have hapart := hF.apart
  have hq : K.payload = some q := hq
  have hslots : L.disc :: kindSlots K = (L.disc :: K.scalars.map (·.2)) ++ q.region :: K.blocks.map (·.2) := by
    simp [kindSlots, hq]
  rw [hslots] at hapart
  obtain ⟨-, hright, hleft⟩ := List.pairwise_append.mp hapart
  obtain ⟨hregion, -⟩ := List.pairwise_cons.mp hright
  rw [slotsButRegion, ← List.cons_append] at hf
  obtain hf | hf := List.mem_append.mp hf
  · exact .inl (hleft f hf q.region List.mem_cons_self)
  · exact .inr (hregion f hf)

/-- Every placement but the payload's fills a byte range of the kind that is not the payload region. -/
theorem State.mem_placements {p : Nat × List Byte} (hp : p ∈ s.placements L K) :
    (∃ q ∈ K.payload, p = (q.region.off, s.memRead .pay 0 (s.get .len))) ∨
      ∃ f ∈ slotsButRegion L K, p.1 = f.off ∧ p.2.length = f.width := by
  simp only [State.placements, List.mem_cons, List.mem_append, List.mem_map, Option.mem_toList] at hp
  obtain rfl | (⟨rf, hrf, rfl⟩ | ⟨q, hq, rfl⟩) | ⟨bf, hbf, rfl⟩ := hp
  · exact .inr ⟨L.disc, by simp, rfl, by simp⟩
  · exact .inr ⟨rf.2, List.mem_cons_of_mem _ (List.mem_append_left _ (List.mem_map_of_mem hrf)), rfl, by simp⟩
  · exact .inl ⟨q, hq, rfl⟩
  · exact .inr ⟨bf.2, List.mem_cons_of_mem _ (List.mem_append_right _ (List.mem_map_of_mem hbf)), rfl, by simp⟩

/-- The record is 0 in every byte that no byte range of the kind holds (30_encoding.md R83). -/
theorem State.bufByte_commitRecord_unused (hb : s.boundsFail K = false) {i : Nat} (hi : i < L.cap)
    (h : ∀ f ∈ L.disc :: kindSlots K, ¬ inSlot f i) : (s.commitRecord L K).bufByte .record i = 0#8 := by
  rw [State.bufByte_commitRecord hi]
  refine State.getD_buildRecord_unused fun p hp hin => ?_
  obtain ⟨f, hf, hoff, hwidth⟩ := exists_of_forall₂ (State.placements_forall₂ hb) hp
  exact h f hf ⟨by omega, by omega⟩

/-- The record is 0 in the payload region beyond the payload (R83). -/
theorem State.bufByte_commitRecord_beyond_payload (hF : KindFacts L K) {q : Payload} (hq : q ∈ K.payload) {i : Nat}
    (hlen : s.get .len ≤ i) (hi : i < q.region.width) :
    (s.commitRecord L K).bufByte .record (q.region.off + i) = 0#8 := by
  have hfits := hF.region_fits q hq
  rw [State.bufByte_commitRecord (by omega)]
  refine State.getD_buildRecord_unused fun p hp hin => ?_
  obtain ⟨q', hq', rfl⟩ | ⟨f, hf, hoff, hwidth⟩ := State.mem_placements hp
  · obtain rfl : q = q' := Option.some.inj (hq.symm.trans hq')
    rw [State.length_memRead] at hin
    omega
  · have hregion : inSlot q.region (q.region.off + i) := ⟨by omega, by omega⟩
    exact not_inSlot_of_disjoint (hF.region_apart hq hf) hregion ⟨by omega, by omega⟩

/-- The discriminator's bytes read back (R115 (b)). -/
theorem State.memRead_disc_commitRecord (hL : layoutOk L = true) (hF : KindFacts L K) (hb : s.boundsFail K = false) :
    (s.commitRecord L K).memRead .record L.disc.off L.disc.width = bytesOf L.endian L.disc.width K.disc := by
  have := State.memRead_commitRecord (s := s) hF hb (p := (L.disc.off, bytesOf L.endian L.disc.width K.disc))
    List.mem_cons_self (by simpa using (layoutFacts hL).disc_fits)
  rwa [length_bytesOf] at this

/-- A scalar field's bytes read back. -/
theorem State.memRead_scalar_commitRecord (hF : KindFacts L K) (hb : s.boundsFail K = false) {rf : Reg × Slot}
    (h : rf ∈ K.scalars) :
    (s.commitRecord L K).memRead .record rf.2.off rf.2.width = bytesOf L.endian rf.2.width (s.get rf.1) := by
  have hp : (rf.2.off, bytesOf L.endian rf.2.width (s.get rf.1)) ∈ s.placements L K :=
    List.mem_cons_of_mem _ (List.mem_append_left _ (List.mem_append_left _ (List.mem_map.mpr ⟨rf, h, rfl⟩)))
  have := State.memRead_commitRecord hF hb hp (by simpa using hF.scalar_fits rf h)
  rwa [length_bytesOf] at this

/-! The command. -/

section
variable {k : Kind}

/-- An ENC.k whose operands fit, as a command (R107). -/
theorem exec_encCommand_fits (hL : s.layoutInForce = some L) (hK : layoutKind L k = some K)
    (hb : ∀ q ∈ K.payload, s.get .len ≤ q.region.width) (hr : ∀ rf ∈ K.scalars, s.get rf.1 < 2 ^ (8 * rf.2.width)) :
    exec (encCommand k) s = .next (s.start.commitRecord L K) := by
  have hb' : s.start.boundsFail K = false := State.boundsFail_eq_false.mpr (by simpa using hb)
  have hr' : s.start.rangeFails K = false := State.rangeFails_eq_false.mpr (by simpa using hr)
  rw [exec_encCommand, State.encodeKind_eq (s := s.start) hL hK, State.encodeForm, hb', hr']
  rfl

/-- A payload over PAYCAP is refused before any other operand is looked at (60_exceptions.md R174). -/
theorem exec_encCommand_bounds (hL : s.layoutInForce = some L) (hK : layoutKind L k = some K)
    (hb : ∃ q ∈ K.payload, q.region.width < s.get .len) : exec (encCommand k) s = .next (s.start.raise .eBounds) := by
  have hb' : s.start.boundsFail K = true := by
    obtain ⟨q, hq, hlong⟩ := hb
    refine eq_true_of_ne_false fun hfits => ?_
    have := State.boundsFail_eq_false.mp hfits q hq
    rw [State.get_start] at this
    omega
  rw [exec_encCommand, State.encodeKind_eq (s := s.start) hL hK, State.encodeForm, hb']
  rfl

theorem exec_encCommand_range (hL : s.layoutInForce = some L) (hK : layoutKind L k = some K)
    (hb : ∀ q ∈ K.payload, s.get .len ≤ q.region.width) (hr : ∃ rf ∈ K.scalars, 2 ^ (8 * rf.2.width) ≤ s.get rf.1) :
    exec (encCommand k) s = .next (s.start.raise .eRange) := by
  have hb' : s.start.boundsFail K = false := State.boundsFail_eq_false.mpr (by simpa using hb)
  have hr' : s.start.rangeFails K = true := by simpa [State.rangeFails] using hr
  rw [exec_encCommand, State.encodeKind_eq (s := s.start) hL hK, State.encodeForm, hb', hr']
  rfl

/-- An ENC.k that ended OK had operands that fit. -/
theorem exec_encCommand_ok {t : State} (hL : s.layoutInForce = some L) (hK : layoutKind L k = some K)
    (h : exec (encCommand k) s = .next t) (hok : t.status = 0x00#8) :
    (∀ q ∈ K.payload, s.get .len ≤ q.region.width) ∧ (∀ rf ∈ K.scalars, s.get rf.1 < 2 ^ (8 * rf.2.width)) ∧
      t = s.start.commitRecord L K := by
  by_cases hb : ∃ q ∈ K.payload, q.region.width < s.get .len
  · obtain rfl := Host.Outcome.next.inj ((exec_encCommand_bounds hL hK hb).symm.trans h)
    cases hok
  · have hb' : ∀ q ∈ K.payload, s.get .len ≤ q.region.width := fun q hq => not_lt.mp fun hlt => hb ⟨q, hq, hlt⟩
    by_cases hr : ∃ rf ∈ K.scalars, 2 ^ (8 * rf.2.width) ≤ s.get rf.1
    · obtain rfl := Host.Outcome.next.inj ((exec_encCommand_range hL hK hb' hr).symm.trans h)
      cases hok
    · have hr' : ∀ rf ∈ K.scalars, s.get rf.1 < 2 ^ (8 * rf.2.width) := fun rf hrf =>
        not_le.mp fun hle => hr ⟨rf, hrf, hle⟩
      exact ⟨hb', hr', (Host.Outcome.next.inj ((exec_encCommand_fits hL hK hb' hr').symm.trans h)).symm⟩

end

/-! What a successful ENC.k leaves alone. -/

theorem State.commitRecord_keeps_regs (hL : layoutOk L = true) :
    regsKeptBut [.rlen, .status] s (s.start.commitRecord L K) := fun r hr => by
  obtain ⟨hrlen, hstatus⟩ : r ≠ .rlen ∧ r ≠ .status := by simpa using hr
  rw [State.get_commitRecord hL, if_neg hstatus, if_neg hrlen, State.get_start]

theorem State.commitRecord_keeps_cells : cellsKeptOutside 0x100 L.cap s (s.start.commitRecord L K) := fun a ha =>
  State.read_commitRecord_of_not (s := s.start) (by omega)

theorem State.commitRecord_counts : countsOneCommand s (s.start.commitRecord L K) := ⟨rfl, rfl, rfl, rfl, rfl⟩

/-- The count of the command is no operand of ENC.k. -/
@[simp] theorem State.placements_start : s.start.placements L K = s.placements L K := by
  simp [State.placements]

/-! LAYOUT_REF (R78, R79). -/

/-- CFG = 0 selects LAYOUT_REF in every block (R80). -/
theorem State.layoutInForce_ref (h : s.layout = 0#4) : s.layoutInForce = some layoutRef := by
  rw [State.layoutInForce, layoutOf, if_pos h]

/-- An ENC.k under LAYOUT_REF whose operands fit: the record as its placements make it, and all that stays. -/
theorem exec_encCommand_ref {k : Kind} (h : s.layout = 0#4) (hK : layoutKind layoutRef k = some K)
    (hb : ∀ q ∈ K.payload, s.get .len ≤ q.region.width) (hr : ∀ rf ∈ K.scalars, s.get rf.1 < 2 ^ (8 * rf.2.width)) :
    ∃ t, exec (encCommand k) s = .next t ∧
      t.memRead .record 0 64 = placeAll (List.replicate 64 0#8) (s.placements layoutRef K) ∧
      t.rlen = 64#16 ∧ t.status = 0x00#8 ∧ regsKeptBut [.rlen, .status] s t ∧ cellsKeptOutside 0x100 64 s t ∧
      countsOneCommand s t :=
  ⟨_, exec_encCommand_fits (State.layoutInForce_ref h) hK hb hr,
    State.placements_start (s := s) ▸ State.memRead_commitRecord_all, rfl, rfl, State.commitRecord_keeps_regs layoutOk_ref,
    State.commitRecord_keeps_cells (L := layoutRef), State.commitRecord_counts⟩

/-- Registers no wider than their fields always fit them. -/
theorem get_lt_of_width_le (h : ∀ rf ∈ K.scalars, rf.1.width ≤ 8 * rf.2.width) :
    ∀ rf ∈ K.scalars, s.get rf.1 < 2 ^ (8 * rf.2.width) := fun rf hrf =>
  (s.get_lt rf.1).trans_le (Nat.pow_le_pow_right (by decide) (h rf hrf))

end

/-! The bytes of a register, least significant first (00_scope.md R14). -/

theorem bytesLE_toNat_8 (x : BitVec 8) : bytesLE 1 x.toNat = [x] := by simp [bytesLE]

theorem bytesLE_toNat_16 (x : BitVec 16) : bytesLE 2 x.toNat = [x.extractLsb' 0 8, x.extractLsb' 8 8] := by
  simp only [bytesLE, List.cons.injEq, and_true]
  refine ⟨?_, ?_⟩ <;> apply BitVec.eq_of_toNat_eq <;> simp [BitVec.extractLsb'_toNat, Nat.shiftRight_eq_div_pow]

theorem bytesLE_toNat_32 (x : BitVec 32) :
    bytesLE 4 x.toNat = [x.extractLsb' 0 8, x.extractLsb' 8 8, x.extractLsb' 16 8, x.extractLsb' 24 8] := by
  simp only [bytesLE, List.cons.injEq, and_true]
  refine ⟨?_, ?_, ?_, ?_⟩ <;> apply BitVec.eq_of_toNat_eq <;>
    simp [BitVec.extractLsb'_toNat, Nat.shiftRight_eq_div_pow, Nat.div_div_eq_div_mul]

theorem bytesLE_low (x : BitVec 16) : bytesLE 1 x.toNat = [x.extractLsb' 0 8] := by
  simp only [bytesLE, List.cons.injEq, and_true]
  apply BitVec.eq_of_toNat_eq
  simp [BitVec.extractLsb'_toNat]

/-! A payload placed in a record that ends in zeros. -/

theorem place_replicate {n : Nat} {vs : List Byte} (h : vs.length ≤ n) :
    place (List.replicate n 0#8) 0 vs = vs ++ List.replicate (n - vs.length) 0#8 := by
  induction vs generalizing n with
  | nil => cases n <;> rfl
  | cons v vs ih =>
    cases n with
    | zero => simp at h
    | succ n =>
      have hn : n + 1 - (v :: vs).length = n - vs.length := by simp
      rw [List.replicate_succ, place, ih (by simpa using h), hn, List.cons_append]

theorem place_append (pre buf vs : List Byte) : place (pre ++ buf) pre.length vs = pre ++ place buf 0 vs := by
  induction pre with
  | nil => rfl
  | cons b pre ih => rw [List.cons_append, List.length_cons, place, ih, List.cons_append]

/-! The data kinds of LAYOUT_REF. -/

/-- What LAYOUT_REF holds for a data kind: the two kinds differ in the discriminator only (R78). -/
def refDataForm (disc : Nat) : KindForm :=
  dataKindForm
    { disc := disc, sapi := ⟨1, 1⟩, tn := ⟨2, 1⟩, bn := ⟨3, 1⟩, fn := ⟨4, 4⟩, len := ⟨8, 1⟩, pay := ⟨9, 55⟩ }

theorem layoutKind_ref_dataInd : layoutKind layoutRef .dataInd = some (refDataForm 0x14) := rfl

theorem layoutKind_ref_dataReq : layoutKind layoutRef .dataReq = some (refDataForm 0x15) := rfl

section
variable {s : State} {disc : Nat} (h : s.get .len ≤ 55)
include h

theorem refDataForm_bounds : ∀ q ∈ (refDataForm disc).payload, s.get .len ≤ q.region.width := by
  rintro q ⟨⟩
  exact h

/-- LEN has a field of one byte, which a length up to PAYCAP fits; the other registers are as wide as their fields. -/
theorem refDataForm_range : ∀ rf ∈ (refDataForm disc).scalars, s.get rf.1 < 2 ^ (8 * rf.2.width) := by
  intro rf hrf
  simp only [refDataForm, dataKindForm, List.mem_cons, List.not_mem_nil, or_false] at hrf
  obtain rfl | rfl | rfl | rfl | rfl := hrf
  · exact s.get_lt .sapi
  · exact h.trans_lt (by decide)
  · exact s.get_lt .fn
  · exact s.get_lt .tn
  · exact s.get_lt .bn

/-- The record of a data kind under LAYOUT_REF: the fields fill bytes 0 to 8, the payload follows (R111, R112). -/
theorem placeAll_refDataForm :
    placeAll (List.replicate 64 0#8) (s.placements layoutRef (refDataForm disc)) =
      [BitVec.ofNat 8 disc, s.sapi, s.tn, s.bn, s.fn.extractLsb' 0 8, s.fn.extractLsb' 8 8, s.fn.extractLsb' 16 8,
        s.fn.extractLsb' 24 8, s.len.extractLsb' 0 8] ++ s.memRead .pay 0 (s.get .len) ++
        List.replicate (55 - s.get .len) 0#8 := by
  have hsapi := bytesLE_toNat_8 s.sapi
  have htn := bytesLE_toNat_8 s.tn
  have hbn := bytesLE_toNat_8 s.bn
  have hfn := bytesLE_toNat_32 s.fn
  have hlen := bytesLE_low s.len
  have hpay : (s.memRead .pay 0 (s.get .len)).length ≤ 55 := by simpa using h
  have hfields : placeAll (List.replicate 64 0#8) (s.placements layoutRef (refDataForm disc)) =
      place ([BitVec.ofNat 8 disc, s.sapi, s.tn, s.bn, s.fn.extractLsb' 0 8, s.fn.extractLsb' 8 8,
        s.fn.extractLsb' 16 8, s.fn.extractLsb' 24 8, s.len.extractLsb' 0 8] ++ List.replicate 55 0#8) 9
        (s.memRead .pay 0 (s.get .len)) := by
    simp only [State.placements, refDataForm, dataKindForm, State.get, List.map, bytesOf, layoutRef, hsapi, htn, hbn, hfn,
      hlen]
    rfl
  rw [hfields]
  refine (place_append _ _ _).trans ?_
  rw [place_replicate hpay, State.length_memRead, List.append_assoc]

end

end Sys2Proof.Machine
end

section
/-! The statements about the encode commands whose operands fit or do not fit (41_codec_encode.md R107 to R115). -/

namespace Sys2Proof.Machine

/-- Settles O45: the placements of R107 share no byte, so each reads back, and what none of them holds is 0. -/
theorem encodeLaysOutTheRecordOfAnyLayout : Obligations.EncodeLaysOutTheRecordOfAnyLayout := by
  intro s k L K hL hK hb hr
  have hok := layoutOk_of_layoutOf hL
  have hF := kindFacts hok hK
  have hb' : s.start.boundsFail K = false := State.boundsFail_eq_false.mpr (by simpa using hb)
  refine ⟨_, exec_encCommand_fits hL hK hb hr, rfl, State.get_commitRecord hok .rlen, ?disc, fun rf hrf => ?scalar,
    fun q hq => ⟨?payload, fun i hlen hi => ?beyond⟩, fun bf hbf => State.memRead_block_commitRecord hF hb' hbf,
    fun i hi hunused => State.bufByte_commitRecord_unused hb' hi hunused, State.commitRecord_keeps_regs hok,
    State.commitRecord_keeps_cells, State.commitRecord_counts⟩
  case disc => exact State.memRead_disc_commitRecord hok hF hb'
  case scalar => simpa using State.memRead_scalar_commitRecord hF hb' hrf
  case payload => exact State.memRead_payload_commitRecord hF hb' hq
  case beyond => exact State.bufByte_commitRecord_beyond_payload hF hq (by simpa using hlen) hi

/-- Settles O47: the two failing tests of R107 in their order. -/
theorem encodeRefusesWhatDoesNotFit : Obligations.EncodeRefusesWhatDoesNotFit :=
  fun _ _ _ _ hL hK => ⟨exec_encCommand_bounds hL hK, exec_encCommand_range hL hK⟩

/-- Settles O40: the two blocks fill the record up to byte 24. -/
theorem encInfoWritesTheReferenceRecord : Obligations.EncInfoWritesTheReferenceRecord := by
  intro s h
  exact exec_encCommand_ref (k := .infoInd) h rfl (by simp [infoKindForm]) (by simp [infoKindForm])

/-- Settles O41: the three fields fill the record up to byte 7. -/
theorem encRaWritesTheReferenceRecord : Obligations.EncRaWritesTheReferenceRecord := by
  intro s h
  have hra := bytesLE_toNat_16 s.ra
  have hta := bytesLE_toNat_8 s.ta
  have hfn := bytesLE_toNat_32 s.fn
  obtain ⟨t, ht, hrec, hrest⟩ := exec_encCommand_ref (s := s) (k := .raInd) h rfl (by simp [raKindForm])
    (get_lt_of_width_le (by decide))
  refine ⟨t, ht, hrec.trans ?_, hrest⟩
  simp only [State.placements, raKindForm, State.get, List.map, bytesOf, layoutRef, hra, hta, hfn]
  rfl

/-- Settles O42: the four fields fill the record up to byte 7. -/
theorem encRtsWritesTheReferenceRecord : Obligations.EncRtsWritesTheReferenceRecord := by
  intro s h
  have hsapi := bytesLE_toNat_8 s.sapi
  have htn := bytesLE_toNat_8 s.tn
  have hbn := bytesLE_toNat_8 s.bn
  have hfn := bytesLE_toNat_32 s.fn
  obtain ⟨t, ht, hrec, hrest⟩ := exec_encCommand_ref (s := s) (k := .rtsInd) h rfl (by simp [rtsKindForm])
    (get_lt_of_width_le (by decide))
  refine ⟨t, ht, hrec.trans ?_, hrest⟩
  simp only [State.placements, rtsKindForm, State.get, List.map, bytesOf, layoutRef, hsapi, htn, hbn, hfn]
  rfl

/-- Settles O44: the one field leaves bytes 1 to 3 at 0. -/
theorem encTimeWritesTheReferenceRecord : Obligations.EncTimeWritesTheReferenceRecord := by
  intro s h
  have hfn := bytesLE_toNat_32 s.fn
  obtain ⟨t, ht, hrec, hrest⟩ := exec_encCommand_ref (s := s) (k := .timeInd) h rfl (by simp [timeKindForm])
    (get_lt_of_width_le (by decide))
  refine ⟨t, ht, hrec.trans ?_, hrest⟩
  simp only [State.placements, timeKindForm, State.get, List.map, bytesOf, layoutRef, hfn]
  rfl

/-- Settles O43: both kinds have one form but for the discriminator. -/
theorem encDataWritesTheReferenceRecord : Obligations.EncDataWritesTheReferenceRecord := by
  rintro s h hlen i d (⟨rfl, rfl⟩ | ⟨rfl, rfl⟩)
  · obtain ⟨t, ht, hrec, hrest⟩ := exec_encCommand_ref (k := .dataInd) h rfl (refDataForm_bounds hlen)
      (refDataForm_range hlen)
    exact ⟨t, ht, hrec.trans (placeAll_refDataForm hlen), hrest⟩
  · obtain ⟨t, ht, hrec, hrest⟩ := exec_encCommand_ref (k := .dataReq) h rfl (refDataForm_bounds hlen)
      (refDataForm_range hlen)
    exact ⟨t, ht, hrec.trans (placeAll_refDataForm hlen), hrest⟩

end Sys2Proof.Machine
end

section
/-! SUPPORT. The failing tests of DEC as commands (42_codec_decode_frame.md R121), what DEC reads of a record (R122,
30_encoding.md R83), and the records of LAYOUT_REF byte by byte (R78, R79). -/

namespace Sys2Proof.Machine

/-- A kind code names one kind (R74). -/
theorem kindCode_injective : Function.Injective kindCode := by
  intro k l
  cases k <;> cases l <;> decide

/-! The failing tests. -/

section
variable {s : State} {L : Layout} {k : Kind} {K : KindForm}

theorem exec_dec_eLayout (h : layoutUndefined s) : exec .dec s = .next (s.start.decFail .eLayout) := by
  have hnone : s.start.layoutInForce = none := State.layoutInForce_eq_none_iff.mpr h
  rw [exec_dec, State.decodeRecord, hnone]

theorem exec_dec_with (hL : s.layoutInForce = some L) : exec .dec s = .next (s.start.decodeWith L) := by
  rw [exec_dec, State.decodeRecord, State.layoutInForce_start, hL]

theorem exec_dec_eLength (hL : s.layoutInForce = some L) (hlen : s.get .rlen ≠ L.cap) :
    exec .dec s = .next (s.start.decFail .eLength) := by
  rw [exec_dec_with hL, State.decodeWith, State.get_start, if_pos hlen]

theorem exec_dec_noValue (hL : s.layoutInForce = some L) (hlen : s.get .rlen = L.cap)
    (hd : ∀ k K, layoutKind L k = some K → K.disc ≠ s.recField L L.disc) :
    exec .dec s = .next (s.start.decFail .noValue) := by
  rw [exec_dec_with hL, State.decodeWith, State.get_start, if_neg (not_not.mpr hlen), State.recField_start,
    recognise_eq_none.mpr hd]

theorem exec_dec_eBounds (hL : s.layoutInForce = some L) (hlen : s.get .rlen = L.cap) (hK : layoutKind L k = some K)
    (hd : K.disc = s.recField L L.disc) {q : Payload} (hq : q ∈ K.payload) (hlong : q.region.width < s.recField L q.len) :
    exec .dec s = .next (s.start.decFail .eBounds) := by
  have hwire : s.start.wireLenTooLong L K = true := by
    refine eq_true_of_ne_false fun hfits => ?_
    have := State.wireLenTooLong_eq_false.mp hfits q hq
    rw [State.recField_start] at this
    omega
  rw [exec_dec_with hL, State.decodeWith, State.get_start, if_neg (not_not.mpr hlen), State.recField_start,
    (recognise_eq_some (layoutOk_of_layoutOf hL)).mpr ⟨hK, hd⟩]
  simp only [hwire, if_true]

/-- A DEC that ended OK with kind `k` passed its tests, under the one layout in force. -/
theorem exec_dec_ok {t : State} (hL : s.layoutInForce = some L) (hK : layoutKind L k = some K)
    (h : exec .dec s = .next t) (hok : t.status = 0x00#8) (hkind : t.get .kind = kindCode k) :
    s.get .rlen = L.cap ∧ s.recField L L.disc = K.disc ∧ (∀ q ∈ K.payload, s.recField L q.len ≤ q.region.width) ∧
      t = s.start.decAccept L k K := by
  obtain rfl := Host.Outcome.next.inj ((exec_dec s).symm.trans h)
  obtain ⟨-, hd⟩ | ⟨L', hL', -, ⟨-, hd⟩ | ⟨-, -, hd⟩ | ⟨k', K', hlen, hK', hdisc, ⟨-, hd⟩ | ⟨hfits, hd⟩⟩⟩ :=
    s.start.decodeRecord_cases <;> rw [hd] at hok hkind ⊢
  · cases hok
  · cases hok
  · cases hok
  · cases hok
  · obtain rfl : L = L' := Option.some.inj (hL.symm.trans hL')
    obtain rfl : k' = k := by
      rw [State.get_decAccept_kind hK'] at hkind
      exact kindCode_injective hkind
    obtain rfl : K = K' := Option.some.inj (hK.symm.trans hK')
    exact ⟨(s.get_start .rlen).symm.trans hlen, hdisc.symm, State.wireLenTooLong_eq_false.mp hfits, rfl⟩

end

/-! What DEC reads. -/

section
variable {s t : State} {L : Layout} {k : Kind} {K : KindForm}

/-- A register that is written, or that agrees before the same scalars are written, agrees after it. -/
theorem State.get_writeScalars_congr {vals : List (Reg × Nat)} {r : Reg} (h : r ∉ vals.map Prod.fst → t.get r = s.get r) :
    (t.writeScalars vals).get r = (s.writeScalars vals).get r := by
  unfold State.writeScalars
  induction vals generalizing s t with
  | nil => exact h (by simp)
  | cons p vals ih =>
    refine ih (s := s.set p.1 p.2) (t := t.set p.1 p.2) fun hr => ?_
    rw [State.get_set, State.get_set]
    split
    next => rfl
    next hne => exact h (by simpa using ⟨hne, by simpa using hr⟩)

/-- A cell that agrees before the same buffers are written agrees after it. -/
theorem State.read_writeBlocks_congr {a : Nat} (h : t.mem.read a = s.mem.read a) (blocks : List (Buffer × List Byte)) :
    (t.writeBlocks blocks).mem.read a = (s.writeBlocks blocks).mem.read a := by
  unfold State.writeBlocks
  induction blocks generalizing s t with
  | nil => exact h
  | cons p blocks ih =>
    refine ih (s := s.writeWhole p.1 p.2) (t := t.writeWhole p.1 p.2) ?_
    rw [State.read_writeWhole, State.read_writeWhole, h]

/-- The record's byte blocks do not depend on the registers. -/
@[simp] theorem State.recBlocks_set (r : Reg) (v : Nat) : (s.set r v).recBlocks L K = s.recBlocks L K := by
  simp [State.recBlocks, State.memRead]

@[simp] theorem State.recScalars_set (r : Reg) (v : Nat) : (s.set r v).recScalars L K = s.recScalars L K := by
  simp [State.recScalars]

/-- Two states whose records show the same fields are decoded to the same registers, where DEC writes them or they agreed
before. -/
theorem State.get_decAccept_congr (hscalars : t.recScalars L K = s.recScalars L K) {r : Reg}
    (h : r ∉ .kind :: .status :: K.scalars.map Prod.fst → t.get r = s.get r) :
    (t.decAccept L k K).get r = (s.decAccept L k K).get r := by
  by_cases hstatus : r = .status
  · rw [hstatus, State.get_decAccept_status, State.get_decAccept_status]
  · simp only [State.decAccept, State.get_done_of_ne _ hstatus, State.copyFields, State.get_writeBlocks,
      State.recScalars_set, hscalars]
    refine State.get_writeScalars_congr fun hr => ?_
    rw [State.get_set, State.get_set]
    split
    next => rfl
    next hkind => exact h (by simpa [hkind, hstatus, recScalars_keys] using hr)

/-- Two states whose records show the same fields and blocks are decoded to the same cells, where they agreed before. -/
theorem State.read_decAccept_congr (hblocks : t.recBlocks L K = s.recBlocks L K) {a : Nat}
    (h : t.mem.read a = s.mem.read a) : (t.decAccept L k K).mem.read a = (s.decAccept L k K).mem.read a := by
  simp only [State.decAccept, State.done_mem, State.copyFields, State.recBlocks_set, hblocks]
  exact State.read_writeBlocks_congr (by simpa [State.writeScalars_frame] using h) _

/-! DEC of a kind reads of the record no more than its fields, its payload and its blocks (R83). -/

theorem State.recScalars_congr (h : ∀ rf ∈ K.scalars, t.recField L rf.2 = s.recField L rf.2) :
    t.recScalars L K = s.recScalars L K :=
  List.map_congr_left fun rf hrf => by rw [h rf hrf]

theorem State.recBlocks_congr
    (hpay : ∀ q ∈ K.payload, t.memRead .record q.region.off (t.recField L q.len) =
      s.memRead .record q.region.off (s.recField L q.len))
    (hblocks : ∀ bf ∈ K.blocks, t.memRead .record bf.2.off bf.2.width = s.memRead .record bf.2.off bf.2.width) :
    t.recBlocks L K = s.recBlocks L K := by
  unfold State.recBlocks
  congr 1
  · exact List.map_congr_left fun q hq => by rw [hpay q (Option.mem_toList.mp hq)]
  · exact List.map_congr_left fun bf hbf => by rw [hblocks bf hbf]

/-- A byte written outside a byte range of the record is not seen in it. -/
theorem State.memRead_record_of_not_inSlot {f : Slot} {i : Nat} (h : ¬ inSlot f i) (v : Byte) :
    (s.memWrite .record i [v]).memRead .record f.off f.width = s.memRead .record f.off f.width := by
  unfold inSlot at h
  refine Memory.readBlock_writeBlock_of_disjoint _ _ ?_
  rw [List.length_singleton]
  omega

theorem State.recField_of_not_inSlot {f : Slot} {i : Nat} (h : ¬ inSlot f i) (v : Byte) :
    (s.memWrite .record i [v]).recField L f = s.recField L f := by
  rw [State.recField, State.recField, State.memRead_record_of_not_inSlot h]

end

/-! LAYOUT_REF. -/

/-- Exceptions may be added and reordered. -/
theorem regsKeptBut_mono {rs qs : List Reg} {s t : State} (h : regsKeptBut rs s t) (hsub : rs ⊆ qs) : regsKeptBut qs s t :=
  fun r hr => h r fun hmem => hr (hsub hmem)

/-- What a buffer holds cell by cell, when it is known as a whole. -/
theorem State.bufByte_of_memRead {t : State} {b : Buffer} {n m i : Nat} {l : List Byte}
    (h : t.memRead b 0 n = l ++ List.replicate (n - m) 0#8) (hm : l.length = m) (hi : i < n) :
    t.bufByte b i = l.getD i 0#8 := by
  have hread := State.getD_memRead (s := t) b 0 n hi
  rw [Nat.zero_add] at hread
  rw [← hread, h]
  by_cases hl : i < l.length
  · rw [List.getD_append _ _ _ _ hl]
  · rw [List.getD_append_right _ _ _ _ (by omega), List.getD_eq_default l _ (by omega),
      List.getD_replicate _ (show i - l.length < n - m by omega)]

section
variable {s : State} {k : Kind} {K : KindForm}

theorem State.getD_memRead_ite (b : Buffer) (off n i : Nat) :
    (s.memRead b off n).getD i 0#8 = if i < n then s.bufByte b (off + i) else 0#8 := by
  split
  next h => exact State.getD_memRead b off n h
  next h => exact List.getD_eq_default _ _ (by simpa using h)

/-- A byte appended is the least significant one (00_scope.md R14). -/
theorem toNat_append_byte {w : Nat} (x : BitVec w) (b : Byte) : (x ++ b).toNat = b.toNat + 256 * x.toNat := by
  rw [BitVec.toNat_append, ← Nat.shiftLeft_add_eq_or_of_lt b.isLt, Nat.shiftLeft_eq]
  omega

theorem recField_ref_1 (i : Nat) : s.recField layoutRef ⟨i, 1⟩ = (s.bufByte .record i).toNat := rfl

theorem recField_ref_2 (i : Nat) :
    s.recField layoutRef ⟨i, 2⟩ = (s.bufByte .record (i + 1) ++ s.bufByte .record i).toNat := by
  rw [toNat_append_byte]
  rfl

theorem recField_ref_4 (i : Nat) :
    s.recField layoutRef ⟨i, 4⟩ =
      (s.bufByte .record (i + 3) ++ s.bufByte .record (i + 2) ++ s.bufByte .record (i + 1) ++
        s.bufByte .record i).toNat := by
  rw [toNat_append_byte, toNat_append_byte, toNat_append_byte]
  rfl

/-- DEC of a record of LAYOUT_REF (R79): its discriminator is byte 0. -/
theorem exec_dec_ref (hL : s.layout = 0#4) (hlen : s.rlen = 64#16) (hK : layoutKind layoutRef k = some K)
    (hd : (s.bufByte .record 0).toNat = K.disc) (hw : ∀ q ∈ K.payload, s.recField layoutRef q.len ≤ q.region.width) :
    ∃ t, exec .dec s = .next t ∧ t.status = 0x00#8 ∧ t.kind = BitVec.ofNat 3 (kindCode k) ∧
      (∀ rf ∈ K.scalars, t.get rf.1 = s.recField layoutRef rf.2) ∧
      (∀ q ∈ K.payload, ∀ i, i < 255 →
        t.bufByte .pay i = if i < s.recField layoutRef q.len then s.bufByte .record (q.region.off + i) else 0#8) ∧
      (∀ bf ∈ K.blocks, ∀ i, i < 64 →
        t.bufByte bf.1 i = if i < bf.2.width then s.bufByte .record (bf.2.off + i) else 0#8) ∧
      regsKeptBut (.kind :: .status :: K.scalars.map Prod.fst) s t ∧
      (K.blocks = [] → cellsKeptOutside 0x200 255 s t) ∧ (K.payload = none → cellsKeptOutside 0x300 128 s t) ∧
      (K.payload = none → K.blocks = [] → cellsKept s t) ∧ countsOneCommand s t := by
  have hlen' : s.get .rlen = layoutRef.cap := congrArg BitVec.toNat hlen
  obtain ⟨t, ht, hstatus, hkind, hscalars, hpay, hblocks, hregs, hcells, hcounts⟩ :=
    decodeCopiesTheFieldsOfTheKind s k layoutRef K (State.layoutInForce_ref hL) hK hlen' hd hw
  refine ⟨t, ht, hstatus, ?_, hscalars, fun q hq i hi => ?_, fun bf hbf i hi => ?_, hregs, fun hnone a ha => ?_,
    fun hnone a ha => ?_, fun hnone hnil a => ?_, hcounts⟩
  · apply BitVec.eq_of_toNat_eq
    rw [BitVec.toNat_ofNat]
    exact hkind.trans (by cases k <;> rfl)
  · rw [State.bufByte_of_memRead (hpay q hq) (State.length_memRead _ _ _) hi, State.getD_memRead_ite]
  · rw [State.bufByte_of_memRead (hblocks bf hbf) (State.length_memRead _ _ _) hi, State.getD_memRead_ite]
  · exact hcells a (fun h => ha (by omega)) fun h => h.1 hnone
  · exact hcells a (fun h => h.1 hnone) fun h => ha (by omega)
  · exact hcells a (fun h => h.1 hnone) fun h => h.1 hnil

end

theorem eq_of_toNat {w : Nat} {x y : BitVec w} {n : Nat} (h : x.toNat = n) (hn : n = y.toNat) : x = y :=
  BitVec.eq_of_toNat_eq (h.trans hn)

/-- DEC of a data record of LAYOUT_REF, of either kind. -/
theorem exec_dec_refDataForm {s : State} {k : Kind} {disc : Nat} (hK : layoutKind layoutRef k = some (refDataForm disc))
    (hL : s.layout = 0#4) (hrlen : s.rlen = 64#16) (hd : (s.bufByte .record 0).toNat = disc)
    (hlen : (s.bufByte .record 8).toNat ≤ 55) :
    ∃ t, exec .dec s = .next t ∧ t.status = 0x00#8 ∧ t.kind = BitVec.ofNat 3 (kindCode k) ∧
      t.sapi = s.bufByte .record 1 ∧ t.tn = s.bufByte .record 2 ∧ t.bn = s.bufByte .record 3 ∧
      t.fn = s.bufByte .record 7 ++ s.bufByte .record 6 ++ s.bufByte .record 5 ++ s.bufByte .record 4 ∧
      t.len = (s.bufByte .record 8).setWidth 16 ∧
      (∀ i, i < 255 → t.bufByte .pay i = if i < (s.bufByte .record 8).toNat then s.bufByte .record (9 + i) else 0#8) ∧
      regsKeptBut [.kind, .status, .sapi, .tn, .bn, .fn, .len] s t ∧ cellsKeptOutside 0x200 255 s t ∧
      countsOneCommand s t := by
  obtain ⟨t, ht, hstatus, hkind, hscalars, hpay, -, hregs, hcells, -, -, hcounts⟩ :=
    exec_dec_ref hL hrlen hK hd (by rintro q ⟨⟩; exact hlen)
  have hfield {r : Reg} {f : Slot} (h : (r, f) ∈ (refDataForm disc).scalars) : t.get r = s.recField layoutRef f :=
    hscalars (r, f) h
  have hwidth : (s.bufByte .record 8).toNat = ((s.bufByte .record 8).setWidth 16).toNat := by
    rw [BitVec.toNat_setWidth, Nat.mod_eq_of_lt ((s.bufByte .record 8).isLt.trans (by decide))]
  refine ⟨t, ht, hstatus, hkind, ?sapi, ?tn, ?bn, ?fn, ?len, hpay _ rfl, regsKeptBut_mono hregs ?regs, hcells rfl, hcounts⟩
  case sapi => exact eq_of_toNat (hfield (r := .sapi) (by simp [refDataForm, dataKindForm])) (recField_ref_1 1)
  case tn => exact eq_of_toNat (hfield (r := .tn) (by simp [refDataForm, dataKindForm])) (recField_ref_1 2)
  case bn => exact eq_of_toNat (hfield (r := .bn) (by simp [refDataForm, dataKindForm])) (recField_ref_1 3)
  case fn => exact eq_of_toNat (hfield (r := .fn) (by simp [refDataForm, dataKindForm])) (recField_ref_4 4)
  case len => exact eq_of_toNat (hfield (r := .len) (by simp [refDataForm, dataKindForm])) ((recField_ref_1 8).trans hwidth)
  case regs => simp [refDataForm, dataKindForm]

end Sys2Proof.Machine
end

section
/-! The statements about DEC (30_encoding.md R83, 42_codec_decode_frame.md R121, R122). -/

namespace Sys2Proof.Machine

/-- Settles O49: the failing tests one by one. -/
theorem decodeFailuresInTheOrderOfItsTests : Obligations.DecodeFailuresInTheOrderOfItsTests := by
  refine fun s => ⟨exec_dec_eLayout, fun L hL => ⟨exec_dec_eLength hL, exec_dec_noValue hL, ?_⟩⟩
  rintro hlen ⟨k, K, hK, hd, q, hq, hlong⟩
  exact exec_dec_eBounds hL hlen hK hd hq hlong

/-- Settles O52: the byte is in no byte range that DEC reads, so both runs make the same tests and the same writes. -/
theorem decodeIgnoresUnusedBytes : Obligations.DecodeIgnoresUnusedBytes := by
  intro s t k L K i v hL hK hlen hd hi hdisc hscalar hblock hpay ht
  have hread (f : Slot) (hf : ¬ inSlot f i) : (s.memWrite .record i [v]).recField L f = s.recField L f :=
    State.recField_of_not_inSlot hf v
  have hlenField : ∀ q ∈ K.payload, (s.memWrite .record i [v]).recField L q.len = s.recField L q.len := fun q hq =>
    hread _ (hscalar _ ((kindShape hK).2.2.2.2.1 q hq))
  have hcell {a : Nat} (ha : a ≠ 0x100 + i) : (s.memWrite .record i [v]).mem.read a = s.mem.read a :=
    Memory.read_writeBlock_of_not _ _ _ (by simp only [Buffer.base, List.length_singleton]; omega)
  by_cases hfits : ∀ q ∈ K.payload, s.recField L q.len ≤ q.region.width
  · obtain rfl := Host.Outcome.next.inj ((exec_dec_accept hL hlen hK hd.symm hfits).symm.trans ht)
    refine ⟨_, exec_dec_accept (s := s.memWrite .record i [v]) hL (by simpa using hlen) hK ((hread _ hdisc).trans hd.symm)
      fun q hq => (hlenField q hq).trans_le (hfits q hq), ?_, fun a ha => ?_⟩
    · intro r
      exact State.get_decAccept_congr (s := s.start) (t := (s.memWrite .record i [v]).start)
        (State.recScalars_congr fun rf hrf => hread _ (hscalar rf hrf)) fun _ => by simp
    · refine State.read_decAccept_congr (State.recBlocks_congr (fun q hq => ?_) fun bf hbf => ?_) (hcell ha)
      · simp only [State.memRead_start, State.recField_start, hlenField q hq]
        exact State.memRead_record_of_not_inSlot (hpay q hq) v
      · exact State.memRead_record_of_not_inSlot (hblock bf hbf) v
  · obtain ⟨q, hq, hlong⟩ : ∃ q ∈ K.payload, q.region.width < s.recField L q.len := by simpa using hfits
    obtain rfl := Host.Outcome.next.inj ((exec_dec_eBounds hL hlen hK hd hq hlong).symm.trans ht)
    refine ⟨_, exec_dec_eBounds (s := s.memWrite .record i [v]) hL (by simpa using hlen) hK
      (hd.trans (hread _ hdisc).symm) hq ((hlenField q hq).symm ▸ hlong), fun r => ?_, fun a ha => hcell ha⟩
    cases r <;> rfl

/-- Settles O50: both data kinds have one form but for the discriminator, which tells them apart. -/
theorem decodeReadsTheReferenceDataRecord : Obligations.DecodeReadsTheReferenceDataRecord := by
  intro s hL hrlen hdisc hlen
  obtain hdisc | hdisc := hdisc <;> rw [hdisc]
  · exact exec_dec_refDataForm layoutKind_ref_dataInd hL hrlen (congrArg BitVec.toNat hdisc) hlen
  · exact exec_dec_refDataForm layoutKind_ref_dataReq hL hrlen (congrArg BitVec.toNat hdisc) hlen

/-- Settles O51: one record form after the other, each register from its bytes. -/
theorem decodeReadsTheOtherReferenceRecords : Obligations.DecodeReadsTheOtherReferenceRecords := by
  intro s hL hrlen
  refine ⟨fun hd => ?info, fun hd => ?ra, fun hd => ?rts, fun hd => ?time⟩
  case info =>
    obtain ⟨t, ht, hstatus, hkind, -, -, hblocks, hregs, -, hcells, -, hcounts⟩ :=
      exec_dec_ref (k := .infoInd) hL hrlen rfl (congrArg BitVec.toNat hd) (by simp [infoKindForm])
    exact ⟨t, ht, hstatus, hkind, hblocks (.cellcfg, ⟨1, 8⟩) (by simp [infoKindForm]),
      hblocks (.tmrcfg, ⟨9, 16⟩) (by simp [infoKindForm]), hregs, hcells rfl, hcounts⟩
  case ra =>
    obtain ⟨t, ht, hstatus, hkind, hscalars, -, -, hregs, -, -, hcells, hcounts⟩ :=
      exec_dec_ref (k := .raInd) hL hrlen rfl (congrArg BitVec.toNat hd) (by simp [raKindForm])
    have hta : t.get .ta = _ := hscalars (.ta, ⟨1, 1⟩) (by simp [raKindForm])
    have hra : t.get .ra = _ := hscalars (.ra, ⟨2, 2⟩) (by simp [raKindForm])
    have hfn : t.get .fn = _ := hscalars (.fn, ⟨4, 4⟩) (by simp [raKindForm])
    exact ⟨t, ht, hstatus, hkind, eq_of_toNat hta (recField_ref_1 1), eq_of_toNat hra (recField_ref_2 2),
      eq_of_toNat hfn (recField_ref_4 4), regsKeptBut_mono hregs (by simp [raKindForm]), hcells rfl rfl, hcounts⟩
  case rts =>
    obtain ⟨t, ht, hstatus, hkind, hscalars, -, -, hregs, -, -, hcells, hcounts⟩ :=
      exec_dec_ref (k := .rtsInd) hL hrlen rfl (congrArg BitVec.toNat hd) (by simp [rtsKindForm])
    have hsapi : t.get .sapi = _ := hscalars (.sapi, ⟨1, 1⟩) (by simp [rtsKindForm])
    have htn : t.get .tn = _ := hscalars (.tn, ⟨2, 1⟩) (by simp [rtsKindForm])
    have hbn : t.get .bn = _ := hscalars (.bn, ⟨3, 1⟩) (by simp [rtsKindForm])
    have hfn : t.get .fn = _ := hscalars (.fn, ⟨4, 4⟩) (by simp [rtsKindForm])
    exact ⟨t, ht, hstatus, hkind, eq_of_toNat hsapi (recField_ref_1 1), eq_of_toNat htn (recField_ref_1 2),
      eq_of_toNat hbn (recField_ref_1 3), eq_of_toNat hfn (recField_ref_4 4), regsKeptBut_mono hregs (by simp [rtsKindForm]),
      hcells rfl rfl, hcounts⟩
  case time =>
    obtain ⟨t, ht, hstatus, hkind, hscalars, -, -, hregs, -, -, hcells, hcounts⟩ :=
      exec_dec_ref (k := .timeInd) hL hrlen rfl (congrArg BitVec.toNat hd) (by simp [timeKindForm])
    have hfn : t.get .fn = _ := hscalars (.fn, ⟨4, 4⟩) (by simp [timeKindForm])
    exact ⟨t, ht, hstatus, hkind, eq_of_toNat hfn (recField_ref_4 4), regsKeptBut_mono hregs (by simp [timeKindForm]),
      hcells rfl rfl, hcounts⟩

end Sys2Proof.Machine
end

section
/-! SUPPORT. The record that ENC.k commits as DEC reads it, and the cells that DEC writes as ENC.k reads them
(42_codec_decode_frame.md R123, R129). -/

namespace Sys2Proof.Machine

section
variable {s t : State} {L : Layout} {k : Kind} {K : KindForm}

/-- The record in REC is the same record in another state when REC's cells are. -/
theorem State.memRead_record_congr (hrec : ∀ i, i < 256 → t.bufByte .record i = s.bufByte .record i) {off n : Nat}
    (h : off + n ≤ 256) : t.memRead .record off n = s.memRead .record off n :=
  Memory.readBlock_congr fun i hi => by
    have := hrec (off + i) (by omega)
    rwa [State.bufByte, State.bufByte, ← Nat.add_assoc] at this

theorem State.recField_congr (hrec : ∀ i, i < 256 → t.bufByte .record i = s.bufByte .record i) {f : Slot}
    (h : f.off + f.width ≤ 256) : t.recField L f = s.recField L f := by
  rw [State.recField, State.recField, State.memRead_record_congr hrec h]

/-- A buffer written whole by a DEC shows its bytes from the first cell up. -/
theorem State.memRead_decAccept_prefix (hK : layoutKind L k = some K) {b : Buffer} {l : List Byte}
    (h : (b, l) ∈ s.recBlocks L K) (hl : l.length ≤ b.size) : (s.decAccept L k K).memRead b 0 l.length = l := by
  apply List.ext_getElem (by simp)
  intro i h1 h2
  rw [State.getElem_memRead, Nat.zero_add, State.bufByte_decAccept hK h (h2.trans_le hl), List.getD_eq_getElem _ _ h2]

/-- The payload as DEC leaves it in PAY (R122). -/
theorem State.memRead_pay_decAccept (hF : KindFacts L K) (hK : layoutKind L k = some K) {q : Payload}
    (hq : q ∈ K.payload) (hfits : s.recField L q.len ≤ q.region.width) :
    (s.decAccept L k K).memRead .pay 0 (s.recField L q.len) = s.memRead .record q.region.off (s.recField L q.len) := by
  have hmem : (Buffer.pay, s.memRead .record q.region.off (s.recField L q.len)) ∈ s.recBlocks L K :=
    List.mem_append_left _ (List.mem_map.mpr ⟨q, Option.mem_toList.mpr hq, rfl⟩)
  have hread := State.memRead_decAccept_prefix hK hmem
    (by simpa [Buffer.size] using hfits.trans (hF.region_le q hq))
  rwa [State.length_memRead] at hread

/-- A block as DEC leaves it in its buffer (R122). -/
theorem State.memRead_block_decAccept (hF : KindFacts L K) (hK : layoutKind L k = some K) {bf : Buffer × Slot}
    (hbf : bf ∈ K.blocks) :
    (s.decAccept L k K).memRead bf.1 0 bf.2.width = s.memRead .record bf.2.off bf.2.width := by
  have hmem : (bf.1, s.memRead .record bf.2.off bf.2.width) ∈ s.recBlocks L K :=
    List.mem_append_right _ (List.mem_map.mpr ⟨bf, hbf, rfl⟩)
  have hread := State.memRead_decAccept_prefix hK hmem (by simpa using hF.block_le bf hbf)
  rwa [State.length_memRead] at hread

/-- The register LEN of a data kind after DEC is the record's length field. -/
theorem State.get_len_decAccept (hF : KindFacts L K) (hK : layoutKind L k = some K) {q : Payload} (hq : q ∈ K.payload) :
    (s.decAccept L k K).get .len = s.recField L q.len := by
  obtain ⟨-, -, -, -, hlen, -, -⟩ := kindShape hK
  exact State.get_decAccept_of_mem hF hK (hlen q hq)

/-- DEC changes neither CFG nor the parameters, so the layout in force stays. -/
theorem State.layoutInForce_decAccept (hK : layoutKind L k = some K) :
    (s.decAccept L k K).layoutInForce = s.layoutInForce := by
  obtain ⟨-, -, hlayout, hparams, -, -⟩ := State.decAccept_keepsHostSide s hK
  exact State.layoutInForce_congr hparams hlayout

/-- What DEC has written fits the fields it was read from, so ENC.k takes it (R123). -/
theorem State.decAccept_fits (hL : s.layoutInForce = some L) (hK : layoutKind L k = some K)
    (hfits : ∀ q ∈ K.payload, s.recField L q.len ≤ q.region.width) :
    (∀ q ∈ K.payload, (s.decAccept L k K).get .len ≤ q.region.width) ∧
      ∀ rf ∈ K.scalars, (s.decAccept L k K).get rf.1 < 2 ^ (8 * rf.2.width) := by
  have hF := kindFacts (layoutOk_of_layoutOf hL) hK
  refine ⟨fun q hq => ?_, fun rf hrf => ?_⟩
  · rw [State.get_len_decAccept hF hK hq]
    exact hfits q hq
  · rw [State.get_decAccept_of_mem hF hK hrf]
    exact State.recField_lt s L rf.2

/-- The bytes of a field are the bytes of its number (00_scope.md R14). -/
theorem State.bytesOf_recField (s : State) (L : Layout) (f : Slot) :
    bytesOf L.endian f.width (s.recField L f) = s.memRead .record f.off f.width := by
  have := bytesOf_valOf L.endian (s.memRead .record f.off f.width)
  rwa [State.length_memRead] at this

/-! The committed record, seen from a later state that has kept REC (R123). -/

section
variable (hok : layoutOk L = true) (hK : layoutKind L k = some K) (hb : s.boundsFail K = false)
  (hrec : ∀ i, i < 256 → t.bufByte .record i = (s.commitRecord L K).bufByte .record i)
include hok hK hb hrec

theorem State.recField_disc_of_committed : t.recField L L.disc = K.disc := by
  have hfits := (layoutFacts hok).disc_fits
  have hcap := (layoutFacts hok).cap_le
  rw [State.recField_congr hrec (by omega), State.recField_disc_commitRecord hok (kindFacts hok hK) hb]

theorem State.recField_of_committed (hr : s.rangeFails K = false) {rf : Reg × Slot} (hrf : rf ∈ K.scalars) :
    t.recField L rf.2 = s.get rf.1 := by
  have hF := kindFacts hok hK
  have hfits := hF.scalar_fits rf hrf
  have hcap := (layoutFacts hok).cap_le
  rw [State.recField_congr hrec (by omega), State.recField_commitRecord hF hb hr hrf]

/-- DEC reads back the payload and the blocks that ENC.k took. -/
theorem State.recBlocks_of_committed (hr : s.rangeFails K = false) :
    t.recBlocks L K = K.payload.toList.map (fun _ => (Buffer.pay, s.memRead .pay 0 (s.get .len))) ++
      K.blocks.map fun bf => (bf.1, s.memRead bf.1 0 bf.2.width) := by
  have hF := kindFacts hok hK
  have hcap := (layoutFacts hok).cap_le
  obtain ⟨-, -, -, -, hlenfield, -, -⟩ := kindShape hK
  unfold State.recBlocks
  congr 1
  · refine List.map_congr_left fun q hq => ?_
    have hq := Option.mem_toList.mp hq
    have hlen : t.recField L q.len = s.get .len := State.recField_of_committed hok hK hb hrec hr (hlenfield q hq)
    have hfits := State.boundsFail_eq_false.mp hb q hq
    have hregion := hF.region_fits q hq
    rw [hlen, State.memRead_record_congr hrec (by omega), State.memRead_payload_commitRecord hF hb hq]
  · refine List.map_congr_left fun bf hbf => ?_
    have hfits := hF.block_fits bf hbf
    rw [State.memRead_record_congr hrec (by omega), State.memRead_block_commitRecord hF hb hbf]

end

/-! The frame's path. -/

theorem State.bufByte_packed_beyond (h8 : s.get .fbits % 8 = 0) {i : Nat} (hlen : s.get .fbits / 8 ≤ i) (hi : i < 255) :
    s.packed.bufByte .pay i = 0#8 := by
  rw [State.bufByte_packed hi, List.getD_eq_default _ _ (by rwa [State.length_packedFrame h8])]

/-- After PACK the operands of a data kind fit, if they did but for LEN and the frame fits PAYCAP: a length up to PAYCAP fits
its field by W4. -/
theorem State.packed_scalars_fit (hF : KindFacts L K) (hK : layoutKind L k = some K) {q : Payload} (hq : q ∈ K.payload)
    (hfits : s.get .fbits / 8 ≤ q.region.width)
    (hr : ∀ rf ∈ K.scalars, rf.1 ≠ .len → s.get rf.1 < 2 ^ (8 * rf.2.width)) :
    ∀ rf ∈ K.scalars, s.packed.get rf.1 < 2 ^ (8 * rf.2.width) := by
  intro rf hrf
  obtain ⟨hnodup, -, hne, -, hlen, -, -⟩ := kindShape hK
  by_cases hl : rf.1 = .len
  · obtain rfl : rf = (.len, q.len) := List.inj_on_of_nodup_map hnodup hrf (hlen q hq) hl
    rw [State.get_packed_len]
    exact hfits.trans_lt (hF.region_lt q hq)
  · obtain ⟨-, hstatus, -⟩ := hne rf.1 (List.mem_map_of_mem hrf)
    have hkept : s.packed.get rf.1 = s.get rf.1 := State.wroteWhole_keeps_regs _ _ _ _ rf.1 (by simp [hl, hstatus])
    rw [hkept]
    exact hr rf hrf hl

end

end Sys2Proof.Machine
end

section
/-! The statements about the round trips (42_codec_decode_frame.md R123, R129). -/

namespace Sys2Proof.Machine

/-- Settles O56: the committed record passes DEC's tests, and each field and block reads back. -/
theorem decodeGivesBackWhatEncodeTook : Obligations.DecodeGivesBackWhatEncodeTook := by
  intro s t t' k L K hL hK ht hok hlayout hparams hrlen hrec
  obtain ⟨hb, hr, rfl⟩ := exec_encCommand_ok hL hK ht hok
  have hokL := layoutOk_of_layoutOf hL
  have hF := kindFacts hokL hK
  obtain ⟨-, -, -, -, hlenfield, -, -⟩ := kindShape hK
  have hb' : s.start.boundsFail K = false := State.boundsFail_eq_false.mpr (by simpa using hb)
  have hr' : s.start.rangeFails K = false := State.rangeFails_eq_false.mpr (by simpa using hr)
  have hL' : t'.layoutInForce = some L := (State.layoutInForce_congr hparams hlayout).trans hL
  have hrlen' : t'.get .rlen = L.cap := (congrArg BitVec.toNat hrlen).trans (State.get_commitRecord hokL .rlen)
  have hdisc := State.recField_disc_of_committed hokL hK hb' hrec
  have hscalar : ∀ rf ∈ K.scalars, t'.recField L rf.2 = s.get rf.1 := fun rf hrf =>
    (State.recField_of_committed hokL hK hb' hrec hr' hrf).trans (s.get_start rf.1)
  have hlen : ∀ q ∈ K.payload, t'.recField L q.len = s.get .len := fun q hq => hscalar _ (hlenfield q hq)
  have hblocks : t'.start.recBlocks L K = _ := State.recBlocks_of_committed hokL hK hb' hrec hr'
  refine ⟨_, exec_dec_accept hL' hrlen' hK hdisc fun q hq => (hlen q hq).trans_le (hb q hq), rfl,
    State.get_decAccept_kind hK, fun rf hrf => (State.get_decAccept_of_mem hF hK hrf).trans (hscalar rf hrf),
    fun hdata => ?payload, fun bf hbf i hi => ?block⟩
  case payload =>
    obtain ⟨q, hq⟩ := Option.ne_none_iff_exists'.mp hdata
    have hmem : (Buffer.pay, s.memRead .pay 0 (s.get .len)) ∈ t'.start.recBlocks L K := by
      rw [hblocks]
      exact List.mem_append_left _ (List.mem_map.mpr ⟨q, Option.mem_toList.mpr hq, by simp⟩)
    refine ⟨(State.get_len_decAccept hF hK hq).trans (hlen q hq), fun i hi => ?_, fun i hlow hi => ?_⟩
    · have hsize : i < Buffer.pay.size := hi.trans_le ((hb q hq).trans (hF.region_le q hq))
      rw [State.bufByte_decAccept hK hmem hsize, State.getD_memRead _ _ _ hi, Nat.zero_add]
    · rw [State.bufByte_decAccept hK hmem hi, List.getD_eq_default _ _ (by simpa using hlow)]
  case block =>
    have hmem : (bf.1, s.memRead bf.1 0 bf.2.width) ∈ t'.start.recBlocks L K := by
      rw [hblocks]
      exact List.mem_append_right _ (List.mem_map_of_mem hbf)
    rw [State.bufByte_decAccept hK hmem (hi.trans_le (hF.block_le bf hbf)), State.getD_memRead _ _ _ hi, Nat.zero_add]

/-- Settles O57: what DEC wrote fits, so ENC.k lays it out by O45, and the bytes of each number are the
bytes it was read from. -/
theorem encodeGivesBackWhatDecodeRead : Obligations.EncodeGivesBackWhatDecodeRead := by
  intro s t k L K hL hK ht hok hkind
  obtain ⟨-, hdisc, hfits, rfl⟩ := exec_dec_ok hL hK ht hok hkind
  have hF := kindFacts (layoutOk_of_layoutOf hL) hK
  obtain ⟨hb, hr⟩ := State.decAccept_fits (s := s.start) hL hK hfits
  obtain ⟨u, hu, hstatus, -, hudisc, huscalars, hupay, hublocks, huunused, -⟩ :=
    encodeLaysOutTheRecordOfAnyLayout (s.start.decAccept L k K) k L K ((State.layoutInForce_decAccept hK).trans hL) hK hb hr
  refine ⟨u, hu, hstatus, ?disc, fun rf hrf => ?scalar, fun q hq => ⟨?payload, (hupay q hq).2⟩, fun bf hbf => ?block,
    huunused⟩
  case disc => rw [hudisc, ← hdisc, State.bytesOf_recField]
  case scalar => rw [huscalars rf hrf, State.get_decAccept_of_mem hF hK hrf, State.bytesOf_recField, State.memRead_start]
  case payload =>
    rw [(hupay q hq).1, State.get_len_decAccept hF hK hq]
    exact State.memRead_pay_decAccept hF hK hq (hfits q hq)
  case block =>
    rw [hublocks bf hbf]
    exact State.memRead_block_decAccept hF hK hbf

/-- Settles O58: PACK's state meets what ENC.k asks for, O56 brings LEN and PAY back, and O55 the frame. -/
theorem frameSurvivesTheWholePath : Obligations.FrameSurvivesTheWholePath := by
  intro s k L K q hkind hL hK hq h8 hmax hr
  have hF := kindFacts (layoutOk_of_layoutOf hL) hK
  have hpack := exec_pack_of_whole h8 hmax
  have hLp : s.packed.layoutInForce = some L := hL
  have hpayload : ∀ q' ∈ K.payload, q' = q := fun q' hq' => Option.some.inj (hq'.symm.trans hq)
  refine ⟨s.packed, hpack, rfl, fun hfits => ?fits, fun hlong => ?long⟩
  case fits =>
    have hb : ∀ q' ∈ K.payload, s.packed.get .len ≤ q'.region.width := fun q' hq' => by
      rw [hpayload q' hq', State.get_packed_len]
      exact hfits
    have hr' := State.packed_scalars_fit hF hK hq hfits hr
    have henc := exec_encCommand_fits hLp hK hb hr'
    obtain ⟨c, hdec, hcok, -, -, hcpay, -⟩ :=
      decodeGivesBackWhatEncodeTook s.packed _ _ k L K hLp hK henc rfl rfl rfl rfl fun _ _ => rfl
    obtain ⟨hclen, hcbytes, hczeros⟩ := hcpay (Option.ne_none_iff_exists'.mpr ⟨q, hq⟩)
    have hpay (i : Nat) (hi : i < 255) : c.bufByte .pay i = s.packed.bufByte .pay i := by
      by_cases hlow : i < s.packed.get .len
      · exact hcbytes i hlow
      · rw [hczeros i (not_lt.mp hlow) hi, State.bufByte_packed_beyond h8 (by simpa using hlow) hi]
    obtain ⟨d, hunpack, hdok, hfbits, hframe, -⟩ := packAndUnpackUndoEachOther.1 s s.packed c hpack rfl hclen hpay
    exact ⟨_, c, d, henc, rfl, hdec, hcok, hunpack, hdok, hfbits, hframe⟩
  case long =>
    have hb : ∃ q' ∈ K.payload, q'.region.width < s.packed.get .len := ⟨q, hq, by rwa [State.get_packed_len]⟩
    refine ⟨_, exec_encCommand_bounds hLp hK hb, rfl, rfl, fun i hi => ?_⟩
    exact State.wroteWhole_keeps_cells .pay _ _ _ _ (by simp only [Buffer.base]; omega)

end Sys2Proof.Machine
end

section
/-! SUPPORT. The parameters and CFG under every command and every step (10_state.md R21, R45), the word placed for the next
step (log 2), and the address map read back (20_memory.md R51). -/

namespace Sys2Proof.Machine

/-! The parameters and CFG. -/

theorem State.routedTo_layout (s : State) (h : Handler) : (s.routedTo h).layout = s.layout := rfl

theorem State.routedTo_params (s : State) (h : Handler) : (s.routedTo h).params = s.params := rfl

section
variable {s t : State}

/-- Every word written to CMD leaves the parameters as they are. -/
theorem command_params {v : PortWord} (h : command v s = .next t) : t.params = s.params := by
  obtain ⟨u, hu, ⟨-, -, -, hparams, -⟩, -⟩ | ⟨k, -, hr⟩ := command_keepsHostSide_or_routes v s
  · obtain rfl := Host.Outcome.next.inj (hu.symm.trans h)
    exact hparams
  · obtain rfl := Host.Outcome.next.inj (hr.symm.trans h)
    exact s.routedTo_params k

theorem hostWrite_params {a : CellAddr} {v : PortWord} (h : hostWrite a v s = .next t) : t.params = s.params := by
  obtain ⟨-, hw⟩ | ⟨r, -, -, hw⟩ | ⟨b, i, -, hw⟩ | ⟨-, hw⟩ := hostWrite_cases a v s
  · exact command_params (s := s.answer (.write .okay)) (hw.symm.trans h)
  · obtain rfl := Host.Outcome.next.inj (hw.symm.trans h)
    exact s.set_params r _
  · obtain rfl := Host.Outcome.next.inj (hw.symm.trans h)
    rfl
  · obtain rfl := Host.Outcome.next.inj (hw.symm.trans h)
    rfl

/-- A step by the kind of its event; only a write does more than answer or reset. -/
theorem step_params (h : step s = .next t) : t.params = s.params := by
  match hp : s.pending with
  | [] =>
    obtain rfl := Host.Outcome.next.inj ((step_of_no_event hp).symm.trans h)
    rfl
  | .read a :: rest =>
    obtain rfl := Host.Outcome.next.inj ((step_read hp).symm.trans h)
    rfl
  | .reset :: rest =>
    obtain rfl := Host.Outcome.next.inj ((step_reset hp).symm.trans h)
    rfl
  | .write a v :: rest => exact hostWrite_params (s := s.withPending rest) ((step_write hp).symm.trans h)

theorem exec_layout {i : Instr} (h : exec i s = .next t) : t.layout = s.layout := by
  obtain ⟨u, hu, ⟨-, -, hlayout, -⟩, -⟩ | ⟨k, -, hr⟩ := exec_keepsHostSide_or_routes i s
  · obtain rfl := Host.Outcome.next.inj (hu.symm.trans h)
    exact hlayout
  · obtain rfl := Host.Outcome.next.inj (hr.symm.trans h)
    exact s.routedTo_layout k

end

/-! The placed word. -/

/-- A word of 32 bits stands for itself in a table row (log 11). -/
theorem tableWord_toNat (v : PortWord) : tableWord 32 v.toNat = some v := by
  have hv := v.isLt
  rw [tableWord, Nat.mod_eq_of_lt hv, if_pos hv, BitVec.ofNat_toNat, BitVec.setWidth_eq]

theorem State.withFetchWord_toNat (s : State) (v : PortWord) :
    s.withFetchWord 32 v.toNat = s.pushEvent (.write cmdAddr v) := by
  rw [State.withFetchWord, State.pushCommandBits, tableWord_toNat]

/-- A write to CMD put first is the next step, and with it taken off the list the state is as before. -/
theorem step_pushEvent_cmd (s : State) (v : PortWord) :
    step (s.pushEvent (.write cmdAddr v)) = command v (s.answer (.write .okay)) := rfl

/-! The address map. -/

/-- A mapped cell has the address it was found at. -/
theorem addr_of_cellAt {a : CellAddr} {c : CellId} (h : cellAt a = some c) : c.addr = a := by
  obtain ⟨rfl, rfl⟩ | ⟨r, hr, rfl⟩ | ⟨b, i, -, ha, rfl⟩ := cellAt_cases h
  · rfl
  · rw [CellId.addr, hr, BitVec.ofNat_toNat, BitVec.setWidth_eq]
  · rw [CellId.addr, ← ha, BitVec.ofNat_toNat, BitVec.setWidth_eq]

/-- Below 0x014 every address is CMD's or a register's. -/
theorem exists_reg_of_lt : ∀ n < 0x014, n ≠ 0x001 → ∃ r ∈ Reg.all, r.addr = n := by decide

/-- Outside the unmapped ranges every address from 0x014 up lies in a buffer. -/
theorem exists_buffer_of_not_unmapped {a : CellAddr} (hlow : 0x014 ≤ a.toNat) (h : ¬ unmapped a) :
    ∃ b : Buffer, b.base ≤ a.toNat ∧ a.toNat < b.base + b.size := by
  unfold unmapped at h
  by_cases hrecord : a.toNat < 0x200
  · exact ⟨.record, by simp only [Buffer.base, Buffer.size]; omega⟩
  · by_cases hpay : a.toNat < 0x2FF
    · exact ⟨.pay, by simp only [Buffer.base, Buffer.size]; omega⟩
    · by_cases hcell : a.toNat < 0x340
      · exact ⟨.cellcfg, by simp only [Buffer.base, Buffer.size]; omega⟩
      · by_cases htmr : a.toNat < 0x380
        · exact ⟨.tmrcfg, by simp only [Buffer.base, Buffer.size]; omega⟩
        · exact ⟨.frm, by simp only [Buffer.base, Buffer.size]; omega⟩

theorem cellAt_ne_none_of_not_unmapped {a : CellAddr} (h : ¬ unmapped a) : cellAt a ≠ none := by
  by_cases hlow : a.toNat < 0x014
  · by_cases hcmd : a = 0x001#12
    · rw [hcmd, cellAt_cmd]
      simp
    · have hne : a.toNat ≠ 0x001 := fun hn => hcmd (BitVec.eq_of_toNat_eq hn)
      obtain ⟨r, -, hr⟩ := exists_reg_of_lt a.toNat hlow hne
      rw [cellAt_reg_of_toNat hr.symm]
      simp
  · obtain ⟨b, hbase, htop⟩ := exists_buffer_of_not_unmapped (not_lt.mp hlow) h
    have ha : a = BitVec.ofNat 12 (b.base + (a.toNat - b.base)) := by
      rw [Nat.add_sub_cancel' hbase, BitVec.ofNat_toNat, BitVec.setWidth_eq]
    rw [ha, cellAt_buf (by omega)]
    simp

/-! ROUTE by what `Route` returns. -/

section
variable {s : State}

theorem exec_route_of_handler {h : Handler} (hr : routeMessage s.params s.pd s.mt s.chv = .handler h) :
    exec .route s = .next (s.routedTo h) := by
  rw [show exec .route s = execRoute s from rfl, execRoute, hr]
  rfl

theorem exec_route_of_unsupportedMessage (hr : routeMessage s.params s.pd s.mt s.chv = .unsupportedMessage) :
    exec .route s = .next (s.failed .route .unsupportedMessage) := by
  rw [show exec .route s = execRoute s from rfl, execRoute, hr]
  rfl

theorem exec_route_of_unsupportedProtocol (hr : routeMessage s.params s.pd s.mt s.chv = .unsupportedProtocol) :
    exec .route s = .next (s.failed .route .unsupportedProtocol) := by
  rw [show exec .route s = execRoute s from rfl, execRoute, hr]
  rfl

end

section
variable {p : Params} {pd mt : BitVec 8} {chv : BitVec 1}

/-- The constraints of R9 as inequalities. -/
theorem routerParamsOk_iff :
    routerParamsOk p ↔ (p.pdMm ≠ p.pdRr ∧ p.pdMm ≠ 0xFF#8 ∧ p.pdRr ≠ 0xFF#8) ∧
      (p.mtLur ≠ p.mtIdi ∧ p.mtLur ≠ p.mtCmsr ∧ p.mtIdi ≠ p.mtCmsr) ∧ p.mtPgr ≠ p.mtAsc := by
  simp [routerParamsOk, discriminatorsOk, mmTypesOk, rrTypesOk, and_assoc]

/-- The rows of the routing table, no two of which overlap under R9 (R152). -/
theorem routeMessage_of_row (hp : routerParamsOk p) {h : Handler}
    (hrow : (pd = p.pdMm ∧ mt = p.mtLur ∧ h = .locupd) ∨ (pd = p.pdMm ∧ mt = p.mtIdi ∧ h = .detach) ∨
      (pd = p.pdMm ∧ mt = p.mtCmsr ∧ h = .cmserv) ∨ (pd = p.pdRr ∧ mt = p.mtPgr ∧ h = .pagrsp) ∨
      (pd = p.pdRr ∧ mt = p.mtAsc ∧ chv = 1#1 ∧ h = .asscmp)) :
    routeMessage p pd mt chv = .handler h := by
  obtain ⟨⟨hpd, -, -⟩, ⟨hli, hlc, hic⟩, hpa⟩ := routerParamsOk_iff.mp hp
  unfold routeMessage
  obtain ⟨rfl, rfl, rfl⟩ | ⟨rfl, rfl, rfl⟩ | ⟨rfl, rfl, rfl⟩ | ⟨rfl, rfl, rfl⟩ | ⟨rfl, rfl, rfl, rfl⟩ := hrow
  · rw [if_pos rfl, if_pos rfl]
  · rw [if_pos rfl, if_neg hli.symm, if_pos rfl]
  · rw [if_pos rfl, if_neg hlc.symm, if_neg hic.symm, if_pos rfl]
  · rw [if_neg hpd.symm, if_pos rfl, if_pos rfl]
  · rw [if_neg hpd.symm, if_pos rfl, if_neg hpa.symm, if_pos rfl, if_pos rfl]

/-- A discriminator of neither domain (R152). -/
theorem routeMessage_of_other_protocol (hmm : pd ≠ p.pdMm) (hrr : pd ≠ p.pdRr) :
    routeMessage p pd mt chv = .unsupportedProtocol := by
  rw [routeMessage, if_neg hmm, if_neg hrr]

/-- A type the domain lacks, or an assignment completion without a traffic channel (R152). -/
theorem routeMessage_of_other_message (hp : routerParamsOk p)
    (h : (pd = p.pdMm ∧ mt ≠ p.mtLur ∧ mt ≠ p.mtIdi ∧ mt ≠ p.mtCmsr) ∨
      (pd = p.pdRr ∧ mt ≠ p.mtPgr ∧ ¬ (mt = p.mtAsc ∧ chv = 1#1))) :
    routeMessage p pd mt chv = .unsupportedMessage := by
  obtain ⟨⟨hpd, -, -⟩, -, -⟩ := routerParamsOk_iff.mp hp
  unfold routeMessage
  obtain ⟨rfl, hl, hi, hc⟩ | ⟨rfl, hpgr, hasc⟩ := h
  · rw [if_pos rfl, if_neg hl, if_neg hi, if_neg hc]
  · rw [if_neg hpd.symm, if_pos rfl, if_neg hpgr]
    by_cases hm : mt = p.mtAsc
    · rw [if_pos hm, if_neg fun hchv => hasc ⟨hm, hchv⟩]
    · rw [if_neg hm]

end

/-- CAUSE with a class of cause code 0x61, whatever else the state holds (R158). -/
theorem exec_cause_with_class (t : State) {c : BitVec 4} {f : FailureClass} (h : failureClass c.toNat = some f)
    (hcode : BitVec.ofNat 8 (causeCode f) = 0x61#8) :
    ∃ u, exec .cause { t with fclass := c } = .next u ∧ u.cause = 0x61#8 ∧ u.status = 0x00#8 :=
  ⟨_, exec_cause_of_class (s := { t with fclass := c }) h, hcode, rfl⟩

end Sys2Proof.Machine
end

section
/-! The statements about the step and the router that need nothing of the codec (10_state.md R20, R21, R45, 44_router.md
R152 to R158, 60_exceptions.md R170, R184, 70_reset_and_hazards.md R210). -/

namespace Sys2Proof.Machine

/-- Settles O10. -/
theorem noStepChangesTheParameters : Obligations.NoStepChangesTheParameters := fun _ _ => step_params

/-- Settles O11. -/
theorem noCommandWritesCfg : Obligations.NoCommandWritesCfg := fun _ _ _ => exec_layout

/-- Settles O14: every command completes, and what it leaves in STATUS is a code it raises. -/
theorem eachCommandEndsWithACodeItRaises : Obligations.EachCommandEndsWithACodeItRaises := by
  intro i s
  obtain ⟨t, ht, -⟩ := exec_ok_or_failed i s
  obtain ⟨c, hc, hstatus⟩ := exists_status_of_exec ht
  exact ⟨t, c, ht, hc, hstatus⟩

/-- Settles O29: an address is CMD's, a register's, a buffer's or unmapped, and a cell gives its address back. -/
theorem addressMapHasNoAliases : Obligations.AddressMapHasNoAliases := by
  refine ⟨fun a => ⟨fun h => ?_, cellAt_of_unmapped⟩, fun a b c ha hb => ?_⟩
  · by_contra hmapped
    exact cellAt_ne_none_of_not_unmapped hmapped h
  · exact (addr_of_cellAt ha).symm.trans (addr_of_cellAt hb)

/-- Settles O35. -/
theorem routeInvokesTheHandlerOfTheRow : Obligations.RouteInvokesTheHandlerOfTheRow :=
  fun _ _ hp hrow => exec_route_of_handler (routeMessage_of_row hp hrow)

/-- Settles O36. -/
theorem routeFailsOutsideTheTable : Obligations.RouteFailsOutsideTheTable :=
  fun _ hp => ⟨fun hmm hrr => exec_route_of_unsupportedProtocol (routeMessage_of_other_protocol hmm hrr),
    fun h => exec_route_of_unsupportedMessage (routeMessage_of_other_message hp h)⟩

/-- Settles O39: classes 4 and 8 have the cause code 0x61. -/
theorem routerFailuresLeadToCauseSixtyOne : Obligations.RouterFailuresLeadToCauseSixtyOne :=
  fun _ t _ => ⟨fun _ => exec_cause_with_class t (f := .unsupMsg) rfl rfl,
    fun _ => exec_cause_with_class t (f := .unsupProto) rfl rfl⟩

/-- Settles O5: the placed word is the next write to CMD, and it decodes to its command. -/
theorem placedWordIsRunNext : Obligations.PlacedWordIsRunNext := by
  intro s i
  rw [State.withFetchWord_toNat, step_pushEvent_cmd, command_of_decode (decode_encode i)]

/-- Settles O7. -/
theorem idleBlockHoldsItsState : Obligations.IdleBlockHoldsItsState := fun _ => step_of_no_event

/-- Settles O20: the event is taken off the list before the reset pulse. -/
theorem resetInputPutsTheBlockInTheResetState : Obligations.ResetInputPutsTheBlockInTheResetState :=
  fun _ _ => step_reset

end Sys2Proof.Machine
end

section
/-! SUPPORT. What a command reads: two states that agree in its operands are taken to the same writes, and what a command
writes it does not read (40_system.md R102 (d), (e), 70_reset_and_hazards.md R220). -/

namespace Sys2Proof.Machine

/-- The state with another STATUS, `cp` and EV, none of which is an operand of a command (R102 (d)). -/
def State.traced (s : State) (st : BitVec 8) (c : Nat) (e : List Event) : State := { s with status := st, cp := c, ev := e }

/-- The state with another `cp` and EV. -/
def State.counted (s : State) (c : Nat) (e : List Event) : State := { s with cp := c, ev := e }

section
variable {s t : State} {L : Layout} {k : Kind} {K : KindForm} {st : BitVec 8} {c : Nat} {e : List Event}

theorem State.get_traced {r : Reg} (h : r ≠ .status) : (s.traced st c e).get r = s.get r := by
  cases r with
  | status => exact absurd rfl h
  | _ => rfl

@[simp] theorem State.get_counted (r : Reg) : (s.counted c e).get r = s.get r := by cases r <;> rfl

/-! ENC.k. -/

/-- What ENC.k reads besides CFG: the kind's scalar registers and LEN, the payload, the blocks (41_codec_encode.md R107). -/
structure EncodeOperandsEq (K : KindForm) (s t : State) : Prop where
  scalars : ∀ rf ∈ K.scalars, t.get rf.1 = s.get rf.1
  len : t.get .len = s.get .len
  pay : t.memRead .pay 0 (s.get .len) = s.memRead .pay 0 (s.get .len)
  blocks : ∀ bf ∈ K.blocks, t.memRead bf.1 0 bf.2.width = s.memRead bf.1 0 bf.2.width

theorem EncodeOperandsEq.boundsFail (h : EncodeOperandsEq K s t) : t.boundsFail K = s.boundsFail K := by
  rw [State.boundsFail, State.boundsFail, h.len]

theorem EncodeOperandsEq.rangeFails (h : EncodeOperandsEq K s t) : t.rangeFails K = s.rangeFails K := by
  rw [Bool.eq_iff_iff]
  simp only [State.rangeFails, List.any_eq_true, decide_eq_true_eq]
  exact exists_congr fun rf => and_congr_right fun hrf => by rw [h.scalars rf hrf]

theorem EncodeOperandsEq.buildRecord (h : EncodeOperandsEq K s t) : t.buildRecord L K = s.buildRecord L K := by
  have hscalars : K.scalars.map (fun rf => (rf.2.off, bytesOf L.endian rf.2.width (t.get rf.1))) =
      K.scalars.map fun rf => (rf.2.off, bytesOf L.endian rf.2.width (s.get rf.1)) :=
    List.map_congr_left fun rf hrf => by rw [h.scalars rf hrf]
  have hblocks : K.blocks.map (fun bf => (bf.2.off, t.memRead bf.1 0 bf.2.width)) =
      K.blocks.map fun bf => (bf.2.off, s.memRead bf.1 0 bf.2.width) :=
    List.map_congr_left fun bf hbf => by rw [h.blocks bf hbf]
  simp only [State.buildRecord, State.placements, hscalars, hblocks, h.len, h.pay]

/-- Two states with the same operands take ENC.k the same way. -/
theorem State.encodeKind_cases_of_operands (hL : t.layoutInForce = s.layoutInForce)
    (h : ∀ L K, layoutKind L k = some K → EncodeOperandsEq K s t) :
    (∃ x, s.encodeKind k = s.raise x ∧ t.encodeKind k = t.raise x) ∨
      ∃ L K, layoutOk L = true ∧ s.encodeKind k = s.commitRecord L K ∧ t.encodeKind k = t.commitRecord L K ∧
        t.buildRecord L K = s.buildRecord L K := by
  obtain ⟨hnone, hs⟩ | ⟨L, K, hLs, hok, hK, hcases⟩ := s.encodeKind_cases k
  · exact .inl ⟨_, hs, State.encodeKind_refused (hL.symm ▸ hnone)⟩
  · have hops := h L K hK
    have ht := State.encodeKind_eq (hL.trans hLs) hK
    rw [State.encodeForm, hops.boundsFail, hops.rangeFails] at ht
    obtain ⟨hb, hs⟩ | ⟨hb, hr, hs⟩ | ⟨hb, hr, hs⟩ := hcases
    · exact .inl ⟨_, hs, by rw [ht, hb]; rfl⟩
    · exact .inl ⟨_, hs, by rw [ht, hb, hr]; rfl⟩
    · exact .inr ⟨L, K, hok, hs, by rw [ht, hb, hr]; rfl, hops.buildRecord⟩

theorem encodeOperandsEq_traced (hK : layoutKind L k = some K) : EncodeOperandsEq K s (s.traced st c e) := by
  obtain ⟨-, -, hne, -, -, -, -⟩ := kindShape hK
  refine ⟨fun rf hrf => State.get_traced ?_, rfl, rfl, fun _ _ => rfl⟩
  obtain ⟨-, hstatus, -⟩ := hne rf.1 (List.mem_map_of_mem hrf)
  exact hstatus

/-- ENC.k reads neither STATUS nor `cp` nor EV, and writes STATUS anew. -/
theorem State.encodeKind_traced (s : State) (k : Kind) (st : BitVec 8) (c : Nat) (e : List Event) :
    (s.traced st c e).encodeKind k = (s.encodeKind k).counted c e := by
  obtain ⟨x, hs, ht⟩ | ⟨L, K, -, hs, ht, hbuild⟩ :=
    State.encodeKind_cases_of_operands (s := s) (t := s.traced st c e) (k := k) rfl fun _ _ => encodeOperandsEq_traced
  · rw [ht, hs]
    rfl
  · rw [ht, hs, State.commitRecord, hbuild]
    rfl

/-- A cell that is not in REC is as before after ENC.k, and so is every register but RLEN and STATUS: its operands stay. -/
theorem encodeOperandsEq_encodeKind (hK : layoutKind L k = some K) : EncodeOperandsEq K s (s.encodeKind k).start := by
  obtain ⟨-, -, hne, hblock, -, -, -⟩ := kindShape hK
  have hregs (r : Reg) (hstatus : r ≠ .status) (hrlen : r ≠ .rlen) : (s.encodeKind k).start.get r = s.get r := by
    rw [State.get_start]
    obtain ⟨-, h⟩ | ⟨L, K, -, hok, -, ⟨-, h⟩ | ⟨-, -, h⟩ | ⟨-, -, h⟩⟩ := s.encodeKind_cases k <;> rw [h]
    · exact s.get_raise_of_ne _ hstatus
    · exact s.get_raise_of_ne _ hstatus
    · exact s.get_raise_of_ne _ hstatus
    · rw [State.get_commitRecord hok, if_neg hstatus, if_neg hrlen]
  have hcells {a : Nat} (ha : 0x200 ≤ a) : (s.encodeKind k).start.mem.read a = s.mem.read a := by
    obtain ⟨-, h⟩ | ⟨L, K, -, hok, -, ⟨-, h⟩ | ⟨-, -, h⟩ | ⟨-, -, h⟩⟩ := s.encodeKind_cases k <;> rw [h]
    · rfl
    · rfl
    · rfl
    · have := (layoutFacts hok).cap_le
      exact State.read_commitRecord_of_not (.inr (by omega))
  have hread {b : Buffer} (hb : 0x200 ≤ b.base) (n : Nat) : (s.encodeKind k).start.memRead b 0 n = s.memRead b 0 n :=
    Memory.readBlock_congr fun i _ => hcells (by omega)
  refine ⟨fun rf hrf => ?_, hregs .len (by decide) (by decide), hread (by decide) _, fun bf hbf => hread ?_ _⟩
  · obtain ⟨-, hstatus, hrlen, -⟩ := hne rf.1 (List.mem_map_of_mem hrf)
    exact hregs rf.1 hstatus hrlen
  · obtain h | h := hblock bf.1 (List.mem_map_of_mem hbf) <;> rw [h] <;> decide

/-- The same record committed twice is the record committed once. -/
theorem State.commitRecord_again (hok : layoutOk L = true)
    (hbuild : (s.commitRecord L K).start.buildRecord L K = s.buildRecord L K) :
    (s.commitRecord L K).start.commitRecord L K = (s.commitRecord L K).start := by
  refine State.ext_get (fun r => ?_) ?_ rfl rfl rfl rfl rfl
  · rw [State.get_commitRecord hok, State.get_start, State.get_commitRecord hok]
    split
    · rfl
    · split <;> rfl
  · rw [State.mem_commitRecord, hbuild, State.start_mem, State.mem_commitRecord, Memory.writeBlock_writeBlock _ _ _ _ rfl]

theorem State.encodeKind_again (s : State) (k : Kind) : (s.encodeKind k).start.encodeKind k = (s.encodeKind k).start := by
  obtain ⟨-, -, hlayout, hparams, -, -⟩ := s.encodeKind_keepsHostSide k
  obtain ⟨x, hs, ht⟩ | ⟨L, K, hok, hs, ht, hbuild⟩ := State.encodeKind_cases_of_operands (s := s)
    (t := (s.encodeKind k).start) (k := k) (State.layoutInForce_congr hparams hlayout) fun _ _ => encodeOperandsEq_encodeKind
  · rw [ht, hs]
    rfl
  · rw [ht]
    rw [hs] at hbuild ⊢
    exact State.commitRecord_again hok hbuild

/-! DEC. -/

/-- What DEC reads besides CFG: RLEN and the record (42_codec_decode_frame.md R121). -/
structure DecodeOperandsEq (s t : State) : Prop where
  rlen : t.get .rlen = s.get .rlen
  record : ∀ i, i < 256 → t.bufByte .record i = s.bufByte .record i

section
variable (h : DecodeOperandsEq s t)
include h

theorem DecodeOperandsEq.recField (hok : layoutOk L = true) {f : Slot} (hf : f.off + f.width ≤ L.cap) :
    t.recField L f = s.recField L f := by
  have := (layoutFacts hok).cap_le
  exact State.recField_congr h.record (by omega)

theorem DecodeOperandsEq.recField_len (hok : layoutOk L = true) (hK : layoutKind L k = some K) {q : Payload}
    (hq : q ∈ K.payload) : t.recField L q.len = s.recField L q.len := by
  obtain ⟨-, -, -, -, hlen, -, -⟩ := kindShape hK
  exact h.recField hok ((kindFacts hok hK).scalar_fits _ (hlen q hq))

theorem DecodeOperandsEq.wireLenTooLong (hok : layoutOk L = true) (hK : layoutKind L k = some K) :
    t.wireLenTooLong L K = s.wireLenTooLong L K := by
  cases hp : K.payload with
  | none => simp [State.wireLenTooLong, hp]
  | some q => simp [State.wireLenTooLong, hp, h.recField_len hok hK hp]

theorem DecodeOperandsEq.recScalars (hok : layoutOk L = true) (hK : layoutKind L k = some K) :
    t.recScalars L K = s.recScalars L K :=
  State.recScalars_congr fun rf hrf => h.recField hok ((kindFacts hok hK).scalar_fits rf hrf)

theorem DecodeOperandsEq.recBlocks (hok : layoutOk L = true) (hK : layoutKind L k = some K)
    (hw : s.wireLenTooLong L K = false) : t.recBlocks L K = s.recBlocks L K := by
  have hF := kindFacts hok hK
  have hcap := (layoutFacts hok).cap_le
  refine State.recBlocks_congr (fun q hq => ?_) fun bf hbf => ?_
  · have hfits := State.wireLenTooLong_eq_false.mp hw q hq
    have hregion := hF.region_fits q hq
    rw [h.recField_len hok hK hq, State.memRead_record_congr h.record (by omega)]
  · have := hF.block_fits bf hbf
    exact State.memRead_record_congr h.record (by omega)

end

/-- Two states with the same operands take DEC the same way. -/
theorem State.decodeRecord_cases_of_operands (hL : t.layoutInForce = s.layoutInForce) (h : DecodeOperandsEq s t) :
    (∃ x, s.decodeRecord = s.decFail x ∧ t.decodeRecord = t.decFail x) ∨
      ∃ L k K, layoutOk L = true ∧ layoutKind L k = some K ∧ s.decodeRecord = s.decAccept L k K ∧
        t.decodeRecord = t.decAccept L k K ∧ t.recScalars L K = s.recScalars L K ∧ t.recBlocks L K = s.recBlocks L K := by
  obtain ⟨hnone, hs⟩ | ⟨L, hLs, hok, hcases⟩ := s.decodeRecord_cases
  · exact .inl ⟨_, hs, by rw [State.decodeRecord, hL, hnone]⟩
  · have ht : t.decodeRecord = t.decodeWith L := by rw [State.decodeRecord, hL, hLs]
    have hdisc := h.recField hok (layoutFacts hok).disc_fits
    rw [State.decodeWith, h.rlen, hdisc] at ht
    obtain ⟨hlen, hs⟩ | ⟨hlen, hd, hs⟩ | ⟨k, K, hlen, hK, hd, hend⟩ := hcases
    · exact .inl ⟨_, hs, by rw [ht, if_pos hlen]⟩
    · exact .inl ⟨_, hs, by rw [ht, if_neg (not_not.mpr hlen), recognise_eq_none.mpr hd]⟩
    · rw [if_neg (not_not.mpr hlen), (recognise_eq_some hok).mpr ⟨hK, hd⟩] at ht
      simp only [h.wireLenTooLong hok hK] at ht
      obtain ⟨hw, hs⟩ | ⟨hw, hs⟩ := hend
      · exact .inl ⟨_, hs, by rw [ht, hw]; rfl⟩
      · exact .inr ⟨L, k, K, hok, hK, hs, by rw [ht, hw]; rfl, h.recScalars hok hK, h.recBlocks hok hK hw⟩

/-- Whole buffers written one after the other, as an act on the memory alone. -/
def Memory.writeBuffers (m : Memory) (blocks : List (Buffer × List Byte)) : Memory :=
  blocks.foldl (fun m bv => m.writeBlock bv.1.base (padTo bv.1.size bv.2)) m

theorem State.mem_writeBlocks (s : State) (blocks : List (Buffer × List Byte)) :
    (s.writeBlocks blocks).mem = s.mem.writeBuffers blocks := by
  unfold State.writeBlocks Memory.writeBuffers
  induction blocks generalizing s with
  | nil => rfl
  | cons p blocks ih => exact ih (s.writeWhole p.1 p.2)

theorem State.mem_decAccept : (s.decAccept L k K).mem = s.mem.writeBuffers (s.recBlocks L K) := by
  rw [State.decAccept, State.done_mem, State.copyFields, State.mem_writeBlocks, State.recBlocks_set]
  simp [State.writeScalars_frame]

/-- The buffers a DEC writes, written twice with the same bytes: for the info kind the two lie one above the other. -/
theorem Memory.writeBuffers_again (hK : layoutKind L k = some K) (m : Memory) :
    (m.writeBuffers (s.recBlocks L K)).writeBuffers (s.recBlocks L K) = m.writeBuffers (s.recBlocks L K) := by
  have hone (l : List Byte) (b : Buffer) :
      (m.writeBuffers [(b, l)]).writeBuffers [(b, l)] = m.writeBuffers [(b, l)] :=
    Memory.writeBlock_writeBlock _ _ _ _ rfl
  have htwo (l l' : List Byte) :
      (m.writeBuffers [(.cellcfg, l), (.tmrcfg, l')]).writeBuffers [(.cellcfg, l), (.tmrcfg, l')] =
        m.writeBuffers [(.cellcfg, l), (.tmrcfg, l')] := by
    have hbelow : Buffer.cellcfg.base + (padTo Buffer.cellcfg.size l).length ≤ Buffer.tmrcfg.base := by
      rw [length_padTo]
      decide
    simp only [Memory.writeBuffers, List.foldl]
    rw [m.writeBlock_again_below hbelow, Memory.writeBlock_writeBlock _ _ _ _ rfl]
  cases k <;> obtain ⟨f, -, rfl⟩ := Option.map_eq_some_iff.mp hK
  case infoInd => exact htwo _ _
  case dataInd => exact hone _ _
  case dataReq => exact hone _ _
  case raInd => rfl
  case rtsInd => rfl
  case timeInd => rfl

/-- DEC reads neither STATUS nor `cp` nor EV, and writes STATUS anew. -/
theorem State.decodeRecord_traced (s : State) (st : BitVec 8) (c : Nat) (e : List Event) :
    (s.traced st c e).decodeRecord = s.decodeRecord.counted c e := by
  obtain ⟨x, hs, ht⟩ | ⟨L, k, K, -, -, hs, ht, hscalars, hblocks⟩ :=
    State.decodeRecord_cases_of_operands (s := s) (t := s.traced st c e) rfl ⟨rfl, fun _ _ => rfl⟩
  · rw [ht, hs]
    rfl
  · rw [ht, hs]
    obtain ⟨hcp, hev, hparams, hpending, hreplies⟩ := State.decAccept_frame (s.traced st c e) L k K
    obtain ⟨-, -, hparams', hpending', hreplies'⟩ := State.decAccept_frame s L k K
    refine State.ext_get (fun r => ?_) ?_ hcp hev (hparams.trans hparams'.symm) (hpending.trans hpending'.symm)
      (hreplies.trans hreplies'.symm)
    · rw [State.get_counted]
      exact State.get_decAccept_congr hscalars fun hr => State.get_traced fun hstatus => hr (by simp [hstatus])
    · exact (State.mem_decAccept.trans (by rw [hblocks]; rfl)).trans State.mem_decAccept.symm

/-- DEC writes neither RLEN nor the record. -/
theorem decodeOperandsEq_decodeRecord (s : State) : DecodeOperandsEq s s.decodeRecord.start := by
  obtain ⟨-, h⟩ | ⟨L, -, -, ⟨-, h⟩ | ⟨-, -, h⟩ | ⟨k, K, -, hK, -, ⟨-, h⟩ | ⟨-, h⟩⟩⟩ := s.decodeRecord_cases <;> rw [h]
  · exact ⟨rfl, fun _ _ => rfl⟩
  · exact ⟨rfl, fun _ _ => rfl⟩
  · exact ⟨rfl, fun _ _ => rfl⟩
  · exact ⟨rfl, fun _ _ => rfl⟩
  · obtain ⟨-, -, hne, -, -, -, -⟩ := kindShape hK
    refine ⟨?_, fun i hi => ?_⟩
    · rw [State.get_start]
      exact State.get_decAccept_of_not (fun hmem => (hne .rlen hmem).2.2.1 rfl) (by decide) (by decide)
    · refine State.read_decAccept_of_outside hK (fun hin => ?_) fun hin => ?_ <;> simp only [Buffer.base] at hin <;> omega

/-- The same record decoded twice is the record decoded once. -/
theorem State.decAccept_again (hK : layoutKind L k = some K)
    (hscalars : (s.decAccept L k K).start.recScalars L K = s.recScalars L K)
    (hblocks : (s.decAccept L k K).start.recBlocks L K = s.recBlocks L K) :
    (s.decAccept L k K).start.decAccept L k K = (s.decAccept L k K).start := by
  obtain ⟨hcp, hev, hparams, hpending, hreplies⟩ := State.decAccept_frame (s.decAccept L k K).start L k K
  refine State.ext_get (fun r => ?_) ?_ hcp hev hparams hpending hreplies
  · rw [State.get_start]
    refine State.get_decAccept_congr hscalars fun hr => ?_
    simp only [List.mem_cons, not_or] at hr
    obtain ⟨hkind, hstatus, hscalar⟩ := hr
    exact State.get_decAccept_of_not hscalar hkind hstatus
  · rw [State.mem_decAccept, hblocks, State.start_mem, State.mem_decAccept, Memory.writeBuffers_again hK]

theorem State.decodeRecord_again (s : State) : s.decodeRecord.start.decodeRecord = s.decodeRecord.start := by
  obtain ⟨-, -, hlayout, hparams, -, -⟩ := s.decodeRecord_keepsHostSide
  obtain ⟨x, hs, ht⟩ | ⟨L, k, K, hok, hK, hs, ht, hscalars, hblocks⟩ := State.decodeRecord_cases_of_operands
    (t := s.decodeRecord.start) (State.layoutInForce_congr hparams hlayout) (decodeOperandsEq_decodeRecord s)
  · rw [ht, hs]
    rfl
  · rw [ht]
    rw [hs] at hscalars hblocks ⊢
    exact State.decAccept_again hK hscalars hblocks

/-! PACK and UNPACK. -/

/-- The same writes of PACK or UNPACK done twice are the writes done once. -/
theorem State.wroteWhole_again (b : Buffer) (bytes : List Byte) {r : Reg} (hr : r ≠ .status) (v : Nat) :
    (s.wroteWhole b bytes r v).wroteWhole b bytes r v = (s.wroteWhole b bytes r v).start := by
  obtain ⟨hcp, hev, hparams, hpending, hreplies⟩ := (s.wroteWhole b bytes r v).wroteWhole_counts b bytes r v
  refine State.ext_get (fun q => ?_) ?_ hcp hev hparams hpending hreplies
  · rw [State.get_start]
    by_cases hq : q = r
    · rw [hq, State.get_wroteWhole_same _ _ _ hr, State.get_wroteWhole_same _ _ _ hr]
    · by_cases hstatus : q = .status
      · rw [hstatus]
        rfl
      · exact State.wroteWhole_keeps_regs _ _ _ _ q (by simp [hq, hstatus])
  · have hmem (u : State) : (u.wroteWhole b bytes r v).mem = u.mem.writeBlock b.base (padTo b.size bytes) := by
      simp [State.wroteWhole, State.writeWhole]
    rw [hmem, State.start_mem, hmem, Memory.writeBlock_writeBlock _ _ _ _ rfl]

/-- A PACK that ended OK leaves the frame as it was, so a second one makes the same bytes (R220). -/
theorem State.packed_again (s : State) : s.packed.packed = s.packed.start := by
  have hfbits : s.packed.get .fbits = s.get .fbits := State.wroteWhole_keeps_regs _ _ _ _ .fbits (by decide)
  have hframe : s.packed.packedFrame = s.packedFrame := by
    rw [State.packedFrame, State.packedFrame, hfbits]
    refine congrArg packBits (State.frameBits_congr fun i hi => ?_)
    exact State.wroteWhole_keeps_cells .pay _ _ _ _ (by simp only [Buffer.base, Buffer.size]; omega)
  rw [State.packed, hframe, hfbits]
  exact State.wroteWhole_again _ _ (by decide) _

theorem State.unpacked_again (s : State) (hfits : s.get .len ≤ 255) : s.unpacked.unpacked = s.unpacked.start := by
  have hlen : s.unpacked.get .len = s.get .len := State.wroteWhole_keeps_regs _ _ _ _ .len (by decide)
  have hpayload : s.unpacked.unpackedPayload = s.unpackedPayload := by
    rw [State.unpackedPayload, State.unpackedPayload, hlen]
    refine congrArg unpackBits (State.memRead_congr fun i hi => ?_)
    exact State.wroteWhole_keeps_cells .frm _ _ _ _ (by simp only [Buffer.base, Buffer.size]; omega)
  rw [State.unpacked, hpayload, hlen]
  exact State.wroteWhole_again _ _ (by decide) _

/-! The commands. -/

theorem exec_pack_traced (h : exec .pack s = .next t) :
    exec .pack (s.traced st c e) = .next (t.counted (c + 1) e) := by
  by_cases hbad : s.get .fbits % 8 ≠ 0 ∨ 2040 < s.get .fbits
  · obtain rfl := Host.Outcome.next.inj ((exec_pack_refused hbad).symm.trans h)
    exact exec_pack_refused (s := s.traced st c e) hbad
  · obtain ⟨h8, hmax⟩ : s.get .fbits % 8 = 0 ∧ s.get .fbits ≤ 2040 := by omega
    obtain rfl := Host.Outcome.next.inj ((exec_pack_of_whole h8 hmax).symm.trans h)
    exact exec_pack_of_whole (s := s.traced st c e) h8 hmax

theorem exec_unpack_traced (h : exec .unpack s = .next t) :
    exec .unpack (s.traced st c e) = .next (t.counted (c + 1) e) := by
  by_cases hlong : 255 < s.get .len
  · obtain rfl := Host.Outcome.next.inj ((exec_unpack_refused hlong).symm.trans h)
    exact exec_unpack_refused (s := s.traced st c e) hlong
  · obtain rfl := Host.Outcome.next.inj ((exec_unpack_of_fits (not_lt.mp hlong)).symm.trans h)
    exact exec_unpack_of_fits (s := s.traced st c e) (not_lt.mp hlong)

theorem exec_cause_traced (h : exec .cause s = .next t) :
    exec .cause (s.traced st c e) = .next (t.counted (c + 1) e) := by
  cases hclass : failureClass (s.get .fclass) with
  | none =>
    obtain rfl := Host.Outcome.next.inj ((exec_cause_refused hclass).symm.trans h)
    exact exec_cause_refused (s := s.traced st c e) hclass
  | some f =>
    obtain rfl := Host.Outcome.next.inj ((exec_cause_of_class hclass).symm.trans h)
    exact exec_cause_of_class (s := s.traced st c e) hclass

theorem exec_encCommand_traced (k : Kind) (s : State) (st : BitVec 8) (c : Nat) (e : List Event) :
    exec (encCommand k) (s.traced st c e) = .next ((s.start.encodeKind k).counted (c + 1) e) := by
  rw [exec_encCommand, ← State.encodeKind_traced s.start k st (c + 1) e]
  rfl

/-- No command but ROUTE reads STATUS, `cp` or EV, or appends to EV (R102 (d)). -/
theorem exec_traced_of_ne_route {i : Instr} (hi : i ≠ .route) (h : exec i s = .next t) :
    exec i (s.traced st c e) = .next (t.counted (c + 1) e) := by
  cases i with
  | route => exact absurd rfl hi
  | pack => exact exec_pack_traced h
  | unpack => exact exec_unpack_traced h
  | cause => exact exec_cause_traced h
  | dec =>
    obtain rfl := Host.Outcome.next.inj h
    exact congrArg Host.Outcome.next (State.decodeRecord_traced s.start st (c + 1) e)
  | encInfo => exact Host.Outcome.next.inj h ▸ exec_encCommand_traced .infoInd s st c e
  | encRa => exact Host.Outcome.next.inj h ▸ exec_encCommand_traced .raInd s st c e
  | encRts => exact Host.Outcome.next.inj h ▸ exec_encCommand_traced .rtsInd s st c e
  | encDind => exact Host.Outcome.next.inj h ▸ exec_encCommand_traced .dataInd s st c e
  | encDreq => exact Host.Outcome.next.inj h ▸ exec_encCommand_traced .dataReq s st c e
  | encTime => exact Host.Outcome.next.inj h ▸ exec_encCommand_traced .timeInd s st c e
  | nop | clr | blknum | mfpos52 | mfpos51 =>
    obtain rfl := Host.Outcome.next.inj h
    rfl

theorem exec_pack_again (h : exec .pack s = .next t) : exec .pack t = .next t.start := by
  by_cases hbad : s.get .fbits % 8 ≠ 0 ∨ 2040 < s.get .fbits
  · obtain rfl := Host.Outcome.next.inj ((exec_pack_refused hbad).symm.trans h)
    exact exec_pack_refused (s := s.start.raise .eFrame) hbad
  · obtain ⟨h8, hmax⟩ : s.get .fbits % 8 = 0 ∧ s.get .fbits ≤ 2040 := by omega
    obtain rfl := Host.Outcome.next.inj ((exec_pack_of_whole h8 hmax).symm.trans h)
    exact (exec_pack_of_whole (s := s.packed) h8 hmax).trans (congrArg _ (s.packed_again))

theorem exec_unpack_again (h : exec .unpack s = .next t) : exec .unpack t = .next t.start := by
  by_cases hlong : 255 < s.get .len
  · obtain rfl := Host.Outcome.next.inj ((exec_unpack_refused hlong).symm.trans h)
    exact exec_unpack_refused (s := s.start.raise .eFrame) hlong
  · have hfits := not_lt.mp hlong
    obtain rfl := Host.Outcome.next.inj ((exec_unpack_of_fits hfits).symm.trans h)
    exact (exec_unpack_of_fits (s := s.unpacked) hfits).trans (congrArg _ (s.unpacked_again hfits))

theorem exec_cause_again (h : exec .cause s = .next t) : exec .cause t = .next t.start := by
  cases hclass : failureClass (s.get .fclass) with
  | none =>
    obtain rfl := Host.Outcome.next.inj ((exec_cause_refused hclass).symm.trans h)
    exact exec_cause_refused hclass
  | some f =>
    obtain rfl := Host.Outcome.next.inj ((exec_cause_of_class hclass).symm.trans h)
    exact exec_cause_of_class hclass

theorem exec_encCommand_again (k : Kind) (s : State) :
    exec (encCommand k) (s.start.encodeKind k) = .next (s.start.encodeKind k).start := by
  rw [exec_encCommand, State.encodeKind_again]

/-- A command but ROUTE run again makes the same writes: nothing changes but the count (R102 (e)). -/
theorem exec_again_of_ne_route {i : Instr} (hi : i ≠ .route) (h : exec i s = .next t) : exec i t = .next t.start := by
  cases i with
  | route => exact absurd rfl hi
  | pack => exact exec_pack_again h
  | unpack => exact exec_unpack_again h
  | cause => exact exec_cause_again h
  | dec =>
    obtain rfl := Host.Outcome.next.inj h
    exact congrArg Host.Outcome.next s.start.decodeRecord_again
  | encInfo => exact Host.Outcome.next.inj h ▸ exec_encCommand_again .infoInd s
  | encRa => exact Host.Outcome.next.inj h ▸ exec_encCommand_again .raInd s
  | encRts => exact Host.Outcome.next.inj h ▸ exec_encCommand_again .rtsInd s
  | encDind => exact Host.Outcome.next.inj h ▸ exec_encCommand_again .dataInd s
  | encDreq => exact Host.Outcome.next.inj h ▸ exec_encCommand_again .dataReq s
  | encTime => exact Host.Outcome.next.inj h ▸ exec_encCommand_again .timeInd s
  | nop | clr | blknum | mfpos52 | mfpos51 =>
    obtain rfl := Host.Outcome.next.inj h
    rfl

theorem ev_of_exec_of_ne_route {i : Instr} (hi : i ≠ .route) (h : exec i s = .next t) : t.ev = s.ev := by
  obtain ⟨-, hev, -⟩ := countsOneCommand_of_exec hi h
  exact hev

theorem State.failed_ev (s : State) (i : Instr) (x : StatusCode) : (s.failed i x).ev = s.ev := rfl

/-- ROUTE reads neither STATUS nor `cp` nor EV; it appends to whatever EV holds what it appended before. -/
theorem exec_route_traced (h : exec .route s = .next t) :
    exec .route (s.traced st c e) = .next (t.counted (c + 1) (e ++ t.ev.drop s.ev.length)) := by
  cases hr : routeMessage s.params s.pd s.mt s.chv with
  | handler k =>
    obtain rfl := Host.Outcome.next.inj ((exec_route_of_handler hr).symm.trans h)
    rw [State.routedTo_ev, List.drop_left]
    exact exec_route_of_handler (s := s.traced st c e) hr
  | unsupportedMessage =>
    obtain rfl := Host.Outcome.next.inj ((exec_route_of_unsupportedMessage hr).symm.trans h)
    rw [State.failed_ev, List.drop_length, List.append_nil]
    exact exec_route_of_unsupportedMessage (s := s.traced st c e) hr
  | unsupportedProtocol =>
    obtain rfl := Host.Outcome.next.inj ((exec_route_of_unsupportedProtocol hr).symm.trans h)
    rw [State.failed_ev, List.drop_length, List.append_nil]
    exact exec_route_of_unsupportedProtocol (s := s.traced st c e) hr

/-- ROUTE run again clears or writes HID as before and appends its event again (R220). -/
theorem exec_route_again (h : exec .route s = .next t) :
    exec .route t = .next (t.counted (t.cp + 1) (t.ev ++ t.ev.drop s.ev.length)) := by
  cases hr : routeMessage s.params s.pd s.mt s.chv with
  | handler k =>
    obtain rfl := Host.Outcome.next.inj ((exec_route_of_handler hr).symm.trans h)
    have hr' : routeMessage (s.routedTo k).params (s.routedTo k).pd (s.routedTo k).mt (s.routedTo k).chv = .handler k :=
      hr
    have hdrop : (s.routedTo k).ev.drop s.ev.length = [.invoke k] := List.drop_left
    rw [exec_route_of_handler hr', hdrop]
    rfl
  | unsupportedMessage =>
    obtain rfl := Host.Outcome.next.inj ((exec_route_of_unsupportedMessage hr).symm.trans h)
    rw [State.failed_ev, List.drop_length, List.append_nil]
    exact exec_route_of_unsupportedMessage (s := s.failed .route .unsupportedMessage) hr
  | unsupportedProtocol =>
    obtain rfl := Host.Outcome.next.inj ((exec_route_of_unsupportedProtocol hr).symm.trans h)
    rw [State.failed_ev, List.drop_length, List.append_nil]
    exact exec_route_of_unsupportedProtocol (s := s.failed .route .unsupportedProtocol) hr

end

end Sys2Proof.Machine
end

section
/-! The statements about what commands read and about commands run again (40_system.md R102). -/

namespace Sys2Proof.Machine

/-- Settles O17: the commands but ROUTE append no event, and ROUTE appends the same one. -/
theorem noCommandReadsStatusCpOrEv : Obligations.NoCommandReadsStatusCpOrEv := by
  intro i s t st c e h
  by_cases hi : i = .route
  · subst hi
    exact exec_route_traced h
  · rw [ev_of_exec_of_ne_route hi h, List.drop_length, List.append_nil]
    exact exec_traced_of_ne_route hi h

/-- Settles O18: the commands but ROUTE append no event, so only the count of the second run shows. -/
theorem runningACommandAgainMakesTheSameWrites : Obligations.RunningACommandAgainMakesTheSameWrites := by
  refine fun i s t h => ⟨?_, fun hi => ev_of_exec_of_ne_route hi h⟩
  by_cases hi : i = .route
  · subst hi
    exact exec_route_again h
  · have hev := ev_of_exec_of_ne_route hi h
    rw [← hev, List.drop_length, List.append_nil]
    exact exec_again_of_ne_route hi h

end Sys2Proof.Machine
end
